-- ==== Sys2Proof/Word.lean ====
section
/-! DEFINITION. The two word types of the core: bytes and 16-bit words (00_scope.md R9). -/

namespace Sys2Proof

/-- A byte: 8 bits, bit 0 the least significant (R9). -/
abbrev Byte := BitVec 8

/-- A word: 16 bits; PC, PPC and every computed address (R9, R6). -/
abbrev Word := BitVec 16

end Sys2Proof
end

