-- ==== Sys2Proof/Config.lean ====
section
/-! DEFINITION. What is fixed when a core is built (00_scope.md R2, R6; 10_state.md R40), the contract of the bus it is
built on (20_memory.md R70, R72), and the free values. -/

namespace Sys2Proof

/-- The four values of the `variant` parameter (R2). -/
inductive Variant where
  | nmos
  | cmos
  | nes2A03
  | m6510
deriving DecidableEq, Repr

/-- `ADC_DECIMAL_CARRY`: where decimal ADC takes C from (R194, D21, C3). -/
inductive DecimalCarry where
  | decimal
  | binary
deriving DecidableEq, Repr

/-- `NMOS_DECIMAL_NV`: where the NMOS decimal add takes N and V from (R194, D22). -/
inductive DecimalNV where
  | binary
  | silicon
deriving DecidableEq, Repr

/-- `ARR_DECIMAL`: whether ARR has its decimal form (R322, D24). -/
inductive ArrDecimal where
  | silicon
  | binary
deriving DecidableEq, Repr

/-- `JAM_POLICY`: what a JAM slot does (R372, D6). -/
inductive JamPolicy where
  | nop
  | halt
deriving DecidableEq, Repr

/-- One range of the bus with its optional custom handlers (R70, R72). A range without a handler for an access leaves that
access to the backing array (DESIGN CHOICE, log 3). -/
structure BusRange where
  /-- First bus address of the range. -/
  base : Nat
  /-- How many addresses it holds. -/
  size : Nat
  /-- Reads go to a custom read handler. -/
  readHandler : Bool
  /-- Writes go to a custom write handler. -/
  writeHandler : Bool
deriving DecidableEq, Repr

/-- The bus a core is built on: its ranges in the order they are scanned, and strict mode (R72). -/
structure BusMap where
  strict : Bool
  ranges : List BusRange
deriving DecidableEq, Repr

/-- The parameters of one core instance, fixed for its life (R6, R40). -/
structure Config where
  variant : Variant
  /-- `addr_mask` (R71). -/
  addrMask : Word
  /-- `cpu_id`, an integer: diagnostic, read by no rule (R6, R416). -/
  cpuId : Int
  /-- `CYCLE_CEILING`, OPEN (D9); `none` is the unbounded ceiling D9 allows. -/
  cycleCeiling : Option Nat
  /-- `MAGIC`, the constant of ANE and LXA (R324, R325, D25). -/
  magic : Byte
  /-- `BRK_CLEARS_D` at this core's variant (R286, D27). -/
  brkClearsD : Bool
  adcDecimalCarry : DecimalCarry
  nmosDecimalNV : DecimalNV
  arrDecimal : ArrDecimal
  jamPolicy : JamPolicy
  /-- `CYCLES`: base counts that replace the default tables of R475, by opcode (D7, log 7). -/
  cycleOverrides : List (Nat × Nat)
  /-- Whether the optional profiling counters are present (R431, I18). -/
  profiling : Bool
  bus : BusMap
deriving DecidableEq, Repr

/-- A core of the given variant with every other parameter at its default (R6); the parameters without a default are
DESIGN CHOICES (log 1, 6, 16). -/
def Config.default (v : Variant) : Config where
  variant := v
  addrMask := 0xFFFF#16
  cpuId := 0
  cycleCeiling := none
  magic := 0xEE#8
  brkClearsD := true
  adcDecimalCarry := .decimal
  nmosDecimalNV := .binary
  arrDecimal := .silicon
  jamPolicy := .nop
  cycleOverrides := []
  profiling := true
  bus := { strict := false, ranges := [] }

/-- Free values: what the `n`-th read that reaches a custom read handler returns. "A handler may return anything" (R70, R94);
nothing is known of these bytes (log 3). -/
opaque Config.handlerByte : Nat → Byte

/-- Free values: what the 8-bit registers hold between construction and the first reset (R52, I1; log 5). -/
opaque Config.powerOnByte : Nat → Byte

/-- Free values: what PC and PPC hold between construction and the first reset (R52, I1, I2; log 5). -/
opaque Config.powerOnWord : Nat → Word

end Sys2Proof
end

