-- ==== Sys2Proof/Syntax.lean ====
section
/-! DEFINITION. The instructions. One constructor per mnemonic of spec/opcode_table.json; the rows of one mnemonic differ in
addressing mode (30_encoding.md R111), which is the constructor's operand. Where several opcodes share mnemonic and mode
(NOP, JAM, UNDEF, ANC) the opcode byte is an operand, so that no encoding is lost. -/

namespace Sys2Proof

/-- The addressing modes of R111. -/
inductive Mode where
  | imp | acc | imm | zp | zpx | zpy | abs | abx | aby | ind | izx | izy | rel | izp | iax | zpr
deriving DecidableEq, Repr

/-- The modes whose operand is a byte of memory the semantics read or write (R154 to R159, R161, R162, R164). -/
inductive AddrMode where
  | zp | zpx | zpy | abs | abx | aby | izx | izy | izp
deriving DecidableEq, Repr

/-- A memory operand: its mode with the operand bytes assembled (R112). -/
inductive Addr where
  | zp  (z : Byte)
  | zpx (z : Byte)
  | zpy (z : Byte)
  | abs (w : Word)
  | abx (w : Word)
  | aby (w : Word)
  | izx (z : Byte)
  | izy (z : Byte)
  | izp (z : Byte)
deriving DecidableEq, Repr

/-- The operand of a read-class instruction: an immediate or a byte of memory (R168). -/
inductive Src where
  | imm (b : Byte)
  | mem (a : Addr)
deriving DecidableEq, Repr

/-- The operand of a shift or rotate: A or a byte of memory (R152, R168). -/
inductive Place where
  | acc
  | mem (a : Addr)
deriving DecidableEq, Repr

/-- The operand of JMP (R157, R160, R165). -/
inductive Target where
  | abs (w : Word)
  | ind (w : Word)
  | iax (w : Word)
deriving DecidableEq, Repr

/-- The operand bytes a NOP or UNDEF slot consumes (R371, R373). -/
inductive Pad where
  | imp
  | imm (b : Byte)
  | mem (a : Addr)
deriving DecidableEq, Repr

/-- The instructions. -/
inductive Instr where
  -- arithmetic (41_arithmetic.md)
  | adc (o : Src)
  | sbc (o : Src)
  -- logic, load, store, transfer, increment, decrement (42_logic_load_store.md)
  | and (o : Src)
  | ora (o : Src)
  | eor (o : Src)
  | lda (o : Src)
  | ldx (o : Src)
  | ldy (o : Src)
  | sta (o : Addr)
  | stx (o : Addr)
  | sty (o : Addr)
  | tax
  | tay
  | txa
  | tya
  | tsx
  | txs
  | inc (o : Addr)
  | dec (o : Addr)
  | inx
  | iny
  | dex
  | dey
  -- shifts, compares, BIT (43_shift_compare_bit.md)
  | asl (o : Place)
  | lsr (o : Place)
  | rol (o : Place)
  | ror (o : Place)
  | cmp (o : Src)
  | cpx (o : Src)
  | cpy (o : Src)
  | bit (o : Src)
  -- branches, jumps, subroutines (44_branch_jump.md); rr is the signed offset byte
  | bpl (rr : Byte)
  | bmi (rr : Byte)
  | bvc (rr : Byte)
  | bvs (rr : Byte)
  | bcc (rr : Byte)
  | bcs (rr : Byte)
  | bne (rr : Byte)
  | beq (rr : Byte)
  | jmp (o : Target)
  | jsr (w : Word)
  | rts
  -- stack, flags, software interrupt (45_stack_flags_interrupt.md)
  | pha
  | php
  | pla
  | plp
  | rti
  | brk
  | clc
  | sec
  | cli
  | sei
  | clv
  | cld
  | sed
  -- undocumented NMOS opcodes (46_undocumented.md)
  | slo (o : Addr)
  | rla (o : Addr)
  | sre (o : Addr)
  | rra (o : Addr)
  | sax (o : Addr)
  | lax (o : Addr)
  | dcp (o : Addr)
  | isc (o : Addr)
  | anc (op : Byte) (m : Byte)
  | alr (m : Byte)
  | arr (m : Byte)
  | sbx (m : Byte)
  | ane (m : Byte)
  | lxa (m : Byte)
  | las (o : Addr)
  | tas (o : Addr)
  | shy (o : Addr)
  | shx (o : Addr)
  | sha (o : Addr)
  | usbc (m : Byte)
  -- 65C02 instructions (47_cmos.md); b is the bit number op[6:4] (R113)
  | tsb (o : Addr)
  | trb (o : Addr)
  | stz (o : Addr)
  | bra (rr : Byte)
  | phx
  | plx
  | phy
  | ply
  | rmb (b : Fin 8) (z : Byte)
  | smb (b : Fin 8) (z : Byte)
  | bbr (b : Fin 8) (z : Byte) (rr : Byte)
  | bbs (b : Fin 8) (z : Byte) (rr : Byte)
  | ina
  | dea
  -- NOPs, JAM slots, CMOS undefined slots (48_nop.md); op is the slot's opcode byte
  | nop (op : Byte) (o : Pad)
  | jam (op : Byte)
  | undef (op : Byte) (o : Pad)
deriving DecidableEq, Repr

end Sys2Proof
end

