-- ==== Sys2Proof/WellFormed.lean ====
section
/-! DEFINITION. Which instructions exist on which variant, with which addressing modes: read from the "Encoding" line of each
instruction's own rule (41_arithmetic.md to 48_nop.md). -/

namespace Sys2Proof

/-- The mode of a memory operand. -/
def Addr.mode : Addr → AddrMode
  | .zp _ => .zp
  | .zpx _ => .zpx
  | .zpy _ => .zpy
  | .abs _ => .abs
  | .abx _ => .abx
  | .aby _ => .aby
  | .izx _ => .izx
  | .izy _ => .izy
  | .izp _ => .izp

/-- The variant runs the CMOS map (R114). -/
def Variant.isCmos : Variant → Bool
  | .cmos => true
  | .nmos | .nes2A03 | .m6510 => false

/-- The modes of the eight accumulator instructions ORA, AND, EOR, ADC, STA, LDA, CMP, SBC: (zp) only on CMOS (R164, D3). -/
def accumulatorModes (v : Variant) : List AddrMode :=
  [.zp, .zpx, .abs, .abx, .aby, .izx, .izy] ++ (if v.isCmos then [.izp] else [])

/-- The modes of the read-modify-write composites SLO, RLA, SRE, RRA, DCP, ISC (R312 to R315, R318, R319). -/
def compositeModes : List AddrMode := [.zp, .zpx, .abs, .abx, .aby, .izx, .izy]

/-- The memory operand is of one of the modes `ms`. -/
def Addr.isIn (ms : List AddrMode) (o : Addr) : Bool := ms.contains o.mode

/-- The read-class operand is an immediate, or of one of the modes `ms`. -/
def Src.isIn (ms : List AddrMode) : Src → Bool
  | .imm _ => true
  | .mem o => o.isIn ms

/-- The operand is A, or of one of the modes of ASL, LSR, ROL, ROR (R240 to R243). -/
def Place.isShift : Place → Bool
  | .acc => true
  | .mem o => o.isIn [.zp, .zpx, .abs, .abx]

/-- BIT's operands: zp and abs everywhere; immediate, zp,X and abs,X only on CMOS (R248). -/
def Src.isBit (v : Variant) : Src → Bool
  | .imm _ => v.isCmos
  | .mem o => o.isIn ([.zp, .abs] ++ (if v.isCmos then [.zpx, .abx] else []))

/-- JMP's operands: (abs,X) only on CMOS (R269). -/
def Target.isOn (v : Variant) : Target → Bool
  | .abs _ | .ind _ => true
  | .iax _ => v.isCmos

/-- The JAM slots (R372). -/
def jamSlots : List Byte :=
  [0x02#8, 0x12#8, 0x22#8, 0x32#8, 0x42#8, 0x52#8, 0x62#8, 0x72#8, 0x92#8, 0xB2#8, 0xD2#8, 0xF2#8]

/-- The opcodes of NOP with the given operand bytes: $EA on every variant (R370), the others on the NMOS family (R371). -/
def nopSlots (v : Variant) : Pad → List Byte
  | .imp => 0xEA#8 :: if v.isCmos then [] else [0x1A#8, 0x3A#8, 0x5A#8, 0x7A#8, 0xDA#8, 0xFA#8]
  | .imm _ => if v.isCmos then [] else [0x80#8, 0x82#8, 0x89#8, 0xC2#8, 0xE2#8]
  | .mem (.zp _) => if v.isCmos then [] else [0x04#8, 0x44#8, 0x64#8]
  | .mem (.zpx _) => if v.isCmos then [] else [0x14#8, 0x34#8, 0x54#8, 0x74#8, 0xD4#8, 0xF4#8]
  | .mem (.abs _) => if v.isCmos then [] else [0x0C#8]
  | .mem (.abx _) => if v.isCmos then [] else [0x1C#8, 0x3C#8, 0x5C#8, 0x7C#8, 0xDC#8, 0xFC#8]
  | .mem (.zpy _) | .mem (.aby _) | .mem (.izx _) | .mem (.izy _) | .mem (.izp _) => []

/-- The opcodes of the CMOS slots with no instruction, by the operand bytes they consume (R373). -/
def undefSlots : Pad → List Byte
  | .imp =>
    [0x03#8, 0x13#8, 0x23#8, 0x33#8, 0x43#8, 0x53#8, 0x63#8, 0x73#8, 0x83#8, 0x93#8, 0xA3#8, 0xB3#8, 0xC3#8, 0xD3#8, 0xE3#8,
      0xF3#8, 0x0B#8, 0x1B#8, 0x2B#8, 0x3B#8, 0x4B#8, 0x5B#8, 0x6B#8, 0x7B#8, 0x8B#8, 0x9B#8, 0xAB#8, 0xBB#8, 0xCB#8, 0xDB#8,
      0xEB#8, 0xFB#8]
  | .imm _ => [0x02#8, 0x22#8, 0x42#8, 0x62#8, 0x82#8, 0xC2#8, 0xE2#8]
  | .mem (.zp _) => [0x44#8]
  | .mem (.zpx _) => [0x54#8, 0xD4#8, 0xF4#8]
  | .mem (.abs _) => [0x5C#8, 0xDC#8, 0xFC#8]
  | .mem (.abx _) | .mem (.zpy _) | .mem (.aby _) | .mem (.izx _) | .mem (.izy _) | .mem (.izp _) => []

/-- The instruction exists on the variant, in the form it has. -/
def WellFormed (v : Variant) : Instr → Bool
  | .adc o | .sbc o | .and o | .ora o | .eor o | .lda o | .cmp o => o.isIn (accumulatorModes v)
  | .sta o => o.isIn (accumulatorModes v)
  | .ldx o => o.isIn [.zp, .zpy, .abs, .aby]
  | .ldy o => o.isIn [.zp, .zpx, .abs, .abx]
  | .stx o => o.isIn [.zp, .zpy, .abs]
  | .sty o => o.isIn [.zp, .zpx, .abs]
  | .cpx o | .cpy o => o.isIn [.zp, .abs]
  | .bit o => o.isBit v
  | .inc o | .dec o => o.isIn [.zp, .zpx, .abs, .abx]
  | .asl o | .lsr o | .rol o | .ror o => o.isShift
  | .jmp o => o.isOn v
  | .tax | .tay | .txa | .tya | .tsx | .txs | .inx | .iny | .dex | .dey => true
  | .bpl _ | .bmi _ | .bvc _ | .bvs _ | .bcc _ | .bcs _ | .bne _ | .beq _ => true
  | .jsr _ | .rts | .pha | .php | .pla | .plp | .rti | .brk => true
  | .clc | .sec | .cli | .sei | .clv | .cld | .sed => true
  | .slo o | .rla o | .sre o | .rra o | .dcp o | .isc o => !v.isCmos && o.isIn compositeModes
  | .sax o => !v.isCmos && o.isIn [.zp, .zpy, .abs, .izx]
  | .lax o => !v.isCmos && o.isIn [.zp, .zpy, .abs, .aby, .izx, .izy]
  | .anc op _ => !v.isCmos && [0x0B#8, 0x2B#8].contains op
  | .alr _ | .arr _ | .sbx _ | .ane _ | .lxa _ | .usbc _ => !v.isCmos
  | .las o | .tas o | .shx o => !v.isCmos && o.isIn [.aby]
  | .shy o => !v.isCmos && o.isIn [.abx]
  | .sha o => !v.isCmos && o.isIn [.aby, .izy]
  | .tsb o | .trb o => v.isCmos && o.isIn [.zp, .abs]
  | .stz o => v.isCmos && o.isIn [.zp, .zpx, .abs, .abx]
  | .bra _ | .phx | .plx | .phy | .ply | .ina | .dea => v.isCmos
  | .rmb _ _ | .smb _ _ | .bbr _ _ _ | .bbs _ _ _ => v.isCmos
  | .nop op o => (nopSlots v o).contains op
  | .jam op => !v.isCmos && jamSlots.contains op
  | .undef op o => v.isCmos && (undefSlots o).contains op

end Sys2Proof
end

