-- ==== Sys2Proof/Decode.lean ====
section
/-! DEFINITION. Decoding (30_encoding.md R110 to R117) and encoding. The two opcode maps are the tables of R115 and R116, row by
row; the encoder is written from the "Encoding" line of each instruction's own rule, so that each checks the other. -/

namespace Sys2Proof

/-! ## Bytes and words (R9, R112) -/

/-- `{h, l}` (R9). -/
def wordOf (h l : Byte) : Word := h ++ l

/-- `lo(w)` (R9). -/
def loByte (w : Word) : Byte := w.setWidth 8

/-- `hi(w)` (R9). -/
def hiByte (w : Word) : Byte := (w >>> 8).setWidth 8

/-! ## Modes and lengths (R111) -/

/-- The length in bytes of an instruction of the mode, opcode included (R111). -/
def Mode.length : Mode → Nat
  | .imp | .acc => 1
  | .imm | .zp | .zpx | .zpy | .izx | .izy | .rel | .izp => 2
  | .abs | .abx | .aby | .ind | .iax | .zpr => 3

/-- A memory-operand mode among the modes of R111. -/
def AddrMode.mode : AddrMode → Mode
  | .zp => .zp
  | .zpx => .zpx
  | .zpy => .zpy
  | .abs => .abs
  | .abx => .abx
  | .aby => .aby
  | .izx => .izx
  | .izy => .izy
  | .izp => .izp

/-- The memory operand assembled from the operand bytes `b1` and, for the absolute modes, `b2` (R110, R112). -/
def AddrMode.operand (b1 b2 : Byte) : AddrMode → Addr
  | .zp => .zp b1
  | .zpx => .zpx b1
  | .zpy => .zpy b1
  | .abs => .abs (wordOf b2 b1)
  | .abx => .abx (wordOf b2 b1)
  | .aby => .aby (wordOf b2 b1)
  | .izx => .izx b1
  | .izy => .izy b1
  | .izp => .izp b1

/-! ## The entries of the opcode table (R114) -/

/-- One entry of the opcode table: its addressing mode, and the instruction it makes of the opcode byte and the operand
bytes. -/
structure Slot where
  mode : Mode
  build : Byte → Byte → Byte → Instr

namespace Entry

/-- An implied instruction. -/
def imp (i : Instr) : Slot := ⟨.imp, fun _ _ _ => i⟩

/-- An accumulator instruction. -/
def acc (i : Instr) : Slot := ⟨.acc, fun _ _ _ => i⟩

/-- An instruction with an immediate and no other form. -/
def imm (f : Byte → Instr) : Slot := ⟨.imm, fun _ b1 _ => f b1⟩

/-- The immediate form of a read-class instruction. -/
def srcImm (f : Src → Instr) : Slot := ⟨.imm, fun _ b1 _ => f (.imm b1)⟩

/-- A memory form of a read-class instruction. -/
def src (f : Src → Instr) (m : AddrMode) : Slot := ⟨m.mode, fun _ b1 b2 => f (.mem (m.operand b1 b2))⟩

/-- A memory form of a shift or rotate. -/
def place (f : Place → Instr) (m : AddrMode) : Slot := ⟨m.mode, fun _ b1 b2 => f (.mem (m.operand b1 b2))⟩

/-- An instruction whose only operand is a byte of memory. -/
def mem (f : Addr → Instr) (m : AddrMode) : Slot := ⟨m.mode, fun _ b1 b2 => f (m.operand b1 b2)⟩

/-- A relative branch. -/
def rel (f : Byte → Instr) : Slot := ⟨.rel, fun _ b1 _ => f b1⟩

/-- JMP absolute. -/
def jmpAbs : Slot := ⟨.abs, fun _ b1 b2 => .jmp (.abs (wordOf b2 b1))⟩

/-- JMP (absolute). -/
def jmpInd : Slot := ⟨.ind, fun _ b1 b2 => .jmp (.ind (wordOf b2 b1))⟩

/-- JMP (absolute,X). -/
def jmpIax : Slot := ⟨.iax, fun _ b1 b2 => .jmp (.iax (wordOf b2 b1))⟩

/-- JSR absolute. -/
def jsr : Slot := ⟨.abs, fun _ b1 b2 => .jsr (wordOf b2 b1)⟩

/-- ANC, at two opcodes. -/
def anc : Slot := ⟨.imm, fun op b1 _ => .anc op b1⟩

/-- A JAM slot. -/
def jam : Slot := ⟨.imp, fun op _ _ => .jam op⟩

/-- A NOP or UNDEF slot without operand bytes. -/
def padImp (f : Byte → Pad → Instr) : Slot := ⟨.imp, fun op _ _ => f op .imp⟩

/-- A NOP or UNDEF slot with an immediate. -/
def padImm (f : Byte → Pad → Instr) : Slot := ⟨.imm, fun op b1 _ => f op (.imm b1)⟩

/-- A NOP or UNDEF slot with the operand bytes of a memory mode. -/
def pad (f : Byte → Pad → Instr) (m : AddrMode) : Slot := ⟨m.mode, fun op b1 b2 => f op (.mem (m.operand b1 b2))⟩

/-- The bit number of RMB, SMB, BBR, BBS: `op[6:4]` (R113). -/
def bitNumber (op : Byte) : Fin 8 := ⟨op.toNat / 16 % 8, Nat.mod_lt _ (by decide)⟩

/-- RMB and SMB. -/
def bitZp (f : Fin 8 → Byte → Instr) : Slot := ⟨.zp, fun op b1 _ => f (bitNumber op) b1⟩

/-- BBR and BBS: zero-page address, then offset (R166). -/
def bitRel (f : Fin 8 → Byte → Byte → Instr) : Slot := ⟨.zpr, fun op b1 b2 => f (bitNumber op) b1 b2⟩

end Entry

open Entry

/-! ## The NMOS map (R115) and the CMOS map (R116) -/

/-- Row 0x of the NMOS map. -/
def nmosRow0 : Vector Slot 16 := #v[
  imp .brk, src .ora .izx, jam, mem .slo .izx,
  pad .nop .zp, src .ora .zp, place .asl .zp, mem .slo .zp,
  imp .php, srcImm .ora, acc (.asl .acc), anc,
  pad .nop .abs, src .ora .abs, place .asl .abs, mem .slo .abs]

/-- Row 1x of the NMOS map. -/
def nmosRow1 : Vector Slot 16 := #v[
  rel .bpl, src .ora .izy, jam, mem .slo .izy,
  pad .nop .zpx, src .ora .zpx, place .asl .zpx, mem .slo .zpx,
  imp .clc, src .ora .aby, padImp .nop, mem .slo .aby,
  pad .nop .abx, src .ora .abx, place .asl .abx, mem .slo .abx]

/-- Row 2x of the NMOS map. -/
def nmosRow2 : Vector Slot 16 := #v[
  jsr, src .and .izx, jam, mem .rla .izx,
  src .bit .zp, src .and .zp, place .rol .zp, mem .rla .zp,
  imp .plp, srcImm .and, acc (.rol .acc), anc,
  src .bit .abs, src .and .abs, place .rol .abs, mem .rla .abs]

/-- Row 3x of the NMOS map. -/
def nmosRow3 : Vector Slot 16 := #v[
  rel .bmi, src .and .izy, jam, mem .rla .izy,
  pad .nop .zpx, src .and .zpx, place .rol .zpx, mem .rla .zpx,
  imp .sec, src .and .aby, padImp .nop, mem .rla .aby,
  pad .nop .abx, src .and .abx, place .rol .abx, mem .rla .abx]

/-- Row 4x of the NMOS map. -/
def nmosRow4 : Vector Slot 16 := #v[
  imp .rti, src .eor .izx, jam, mem .sre .izx,
  pad .nop .zp, src .eor .zp, place .lsr .zp, mem .sre .zp,
  imp .pha, srcImm .eor, acc (.lsr .acc), imm .alr,
  jmpAbs, src .eor .abs, place .lsr .abs, mem .sre .abs]

/-- Row 5x of the NMOS map. -/
def nmosRow5 : Vector Slot 16 := #v[
  rel .bvc, src .eor .izy, jam, mem .sre .izy,
  pad .nop .zpx, src .eor .zpx, place .lsr .zpx, mem .sre .zpx,
  imp .cli, src .eor .aby, padImp .nop, mem .sre .aby,
  pad .nop .abx, src .eor .abx, place .lsr .abx, mem .sre .abx]

/-- Row 6x of the NMOS map. -/
def nmosRow6 : Vector Slot 16 := #v[
  imp .rts, src .adc .izx, jam, mem .rra .izx,
  pad .nop .zp, src .adc .zp, place .ror .zp, mem .rra .zp,
  imp .pla, srcImm .adc, acc (.ror .acc), imm .arr,
  jmpInd, src .adc .abs, place .ror .abs, mem .rra .abs]

/-- Row 7x of the NMOS map. -/
def nmosRow7 : Vector Slot 16 := #v[
  rel .bvs, src .adc .izy, jam, mem .rra .izy,
  pad .nop .zpx, src .adc .zpx, place .ror .zpx, mem .rra .zpx,
  imp .sei, src .adc .aby, padImp .nop, mem .rra .aby,
  pad .nop .abx, src .adc .abx, place .ror .abx, mem .rra .abx]

/-- Row 8x of the NMOS map. -/
def nmosRow8 : Vector Slot 16 := #v[
  padImm .nop, mem .sta .izx, padImm .nop, mem .sax .izx,
  mem .sty .zp, mem .sta .zp, mem .stx .zp, mem .sax .zp,
  imp .dey, padImm .nop, imp .txa, imm .ane,
  mem .sty .abs, mem .sta .abs, mem .stx .abs, mem .sax .abs]

/-- Row 9x of the NMOS map. -/
def nmosRow9 : Vector Slot 16 := #v[
  rel .bcc, mem .sta .izy, jam, mem .sha .izy,
  mem .sty .zpx, mem .sta .zpx, mem .stx .zpy, mem .sax .zpy,
  imp .tya, mem .sta .aby, imp .txs, mem .tas .aby,
  mem .shy .abx, mem .sta .abx, mem .shx .aby, mem .sha .aby]

/-- Row Ax of the NMOS map. -/
def nmosRowA : Vector Slot 16 := #v[
  srcImm .ldy, src .lda .izx, srcImm .ldx, mem .lax .izx,
  src .ldy .zp, src .lda .zp, src .ldx .zp, mem .lax .zp,
  imp .tay, srcImm .lda, imp .tax, imm .lxa,
  src .ldy .abs, src .lda .abs, src .ldx .abs, mem .lax .abs]

/-- Row Bx of the NMOS map. -/
def nmosRowB : Vector Slot 16 := #v[
  rel .bcs, src .lda .izy, jam, mem .lax .izy,
  src .ldy .zpx, src .lda .zpx, src .ldx .zpy, mem .lax .zpy,
  imp .clv, src .lda .aby, imp .tsx, mem .las .aby,
  src .ldy .abx, src .lda .abx, src .ldx .aby, mem .lax .aby]

/-- Row Cx of the NMOS map. -/
def nmosRowC : Vector Slot 16 := #v[
  srcImm .cpy, src .cmp .izx, padImm .nop, mem .dcp .izx,
  src .cpy .zp, src .cmp .zp, mem .dec .zp, mem .dcp .zp,
  imp .iny, srcImm .cmp, imp .dex, imm .sbx,
  src .cpy .abs, src .cmp .abs, mem .dec .abs, mem .dcp .abs]

/-- Row Dx of the NMOS map. -/
def nmosRowD : Vector Slot 16 := #v[
  rel .bne, src .cmp .izy, jam, mem .dcp .izy,
  pad .nop .zpx, src .cmp .zpx, mem .dec .zpx, mem .dcp .zpx,
  imp .cld, src .cmp .aby, padImp .nop, mem .dcp .aby,
  pad .nop .abx, src .cmp .abx, mem .dec .abx, mem .dcp .abx]

/-- Row Ex of the NMOS map. -/
def nmosRowE : Vector Slot 16 := #v[
  srcImm .cpx, src .sbc .izx, padImm .nop, mem .isc .izx,
  src .cpx .zp, src .sbc .zp, mem .inc .zp, mem .isc .zp,
  imp .inx, srcImm .sbc, padImp .nop, imm .usbc,
  src .cpx .abs, src .sbc .abs, mem .inc .abs, mem .isc .abs]

/-- Row Fx of the NMOS map. -/
def nmosRowF : Vector Slot 16 := #v[
  rel .beq, src .sbc .izy, jam, mem .isc .izy,
  pad .nop .zpx, src .sbc .zpx, mem .inc .zpx, mem .isc .zpx,
  imp .sed, src .sbc .aby, padImp .nop, mem .isc .aby,
  pad .nop .abx, src .sbc .abx, mem .inc .abx, mem .isc .abx]

/-- The NMOS map (R115), a row per high nibble. -/
def nmosMap : Vector (Vector Slot 16) 16 := #v[
  nmosRow0, nmosRow1, nmosRow2, nmosRow3, nmosRow4, nmosRow5, nmosRow6, nmosRow7,
  nmosRow8, nmosRow9, nmosRowA, nmosRowB, nmosRowC, nmosRowD, nmosRowE, nmosRowF]

/-- Row 0x of the CMOS map. -/
def cmosRow0 : Vector Slot 16 := #v[
  imp .brk, src .ora .izx, padImm .undef, padImp .undef,
  mem .tsb .zp, src .ora .zp, place .asl .zp, bitZp .rmb,
  imp .php, srcImm .ora, acc (.asl .acc), padImp .undef,
  mem .tsb .abs, src .ora .abs, place .asl .abs, bitRel .bbr]

/-- Row 1x of the CMOS map. -/
def cmosRow1 : Vector Slot 16 := #v[
  rel .bpl, src .ora .izy, src .ora .izp, padImp .undef,
  mem .trb .zp, src .ora .zpx, place .asl .zpx, bitZp .rmb,
  imp .clc, src .ora .aby, acc .ina, padImp .undef,
  mem .trb .abs, src .ora .abx, place .asl .abx, bitRel .bbr]

/-- Row 2x of the CMOS map. -/
def cmosRow2 : Vector Slot 16 := #v[
  jsr, src .and .izx, padImm .undef, padImp .undef,
  src .bit .zp, src .and .zp, place .rol .zp, bitZp .rmb,
  imp .plp, srcImm .and, acc (.rol .acc), padImp .undef,
  src .bit .abs, src .and .abs, place .rol .abs, bitRel .bbr]

/-- Row 3x of the CMOS map. -/
def cmosRow3 : Vector Slot 16 := #v[
  rel .bmi, src .and .izy, src .and .izp, padImp .undef,
  src .bit .zpx, src .and .zpx, place .rol .zpx, bitZp .rmb,
  imp .sec, src .and .aby, acc .dea, padImp .undef,
  src .bit .abx, src .and .abx, place .rol .abx, bitRel .bbr]

/-- Row 4x of the CMOS map. -/
def cmosRow4 : Vector Slot 16 := #v[
  imp .rti, src .eor .izx, padImm .undef, padImp .undef,
  pad .undef .zp, src .eor .zp, place .lsr .zp, bitZp .rmb,
  imp .pha, srcImm .eor, acc (.lsr .acc), padImp .undef,
  jmpAbs, src .eor .abs, place .lsr .abs, bitRel .bbr]

/-- Row 5x of the CMOS map. -/
def cmosRow5 : Vector Slot 16 := #v[
  rel .bvc, src .eor .izy, src .eor .izp, padImp .undef,
  pad .undef .zpx, src .eor .zpx, place .lsr .zpx, bitZp .rmb,
  imp .cli, src .eor .aby, imp .phy, padImp .undef,
  pad .undef .abs, src .eor .abx, place .lsr .abx, bitRel .bbr]

/-- Row 6x of the CMOS map. -/
def cmosRow6 : Vector Slot 16 := #v[
  imp .rts, src .adc .izx, padImm .undef, padImp .undef,
  mem .stz .zp, src .adc .zp, place .ror .zp, bitZp .rmb,
  imp .pla, srcImm .adc, acc (.ror .acc), padImp .undef,
  jmpInd, src .adc .abs, place .ror .abs, bitRel .bbr]

/-- Row 7x of the CMOS map. -/
def cmosRow7 : Vector Slot 16 := #v[
  rel .bvs, src .adc .izy, src .adc .izp, padImp .undef,
  mem .stz .zpx, src .adc .zpx, place .ror .zpx, bitZp .rmb,
  imp .sei, src .adc .aby, imp .ply, padImp .undef,
  jmpIax, src .adc .abx, place .ror .abx, bitRel .bbr]

/-- Row 8x of the CMOS map. -/
def cmosRow8 : Vector Slot 16 := #v[
  rel .bra, mem .sta .izx, padImm .undef, padImp .undef,
  mem .sty .zp, mem .sta .zp, mem .stx .zp, bitZp .smb,
  imp .dey, srcImm .bit, imp .txa, padImp .undef,
  mem .sty .abs, mem .sta .abs, mem .stx .abs, bitRel .bbs]

/-- Row 9x of the CMOS map. -/
def cmosRow9 : Vector Slot 16 := #v[
  rel .bcc, mem .sta .izy, mem .sta .izp, padImp .undef,
  mem .sty .zpx, mem .sta .zpx, mem .stx .zpy, bitZp .smb,
  imp .tya, mem .sta .aby, imp .txs, padImp .undef,
  mem .stz .abs, mem .sta .abx, mem .stz .abx, bitRel .bbs]

/-- Row Ax of the CMOS map. -/
def cmosRowA : Vector Slot 16 := #v[
  srcImm .ldy, src .lda .izx, srcImm .ldx, padImp .undef,
  src .ldy .zp, src .lda .zp, src .ldx .zp, bitZp .smb,
  imp .tay, srcImm .lda, imp .tax, padImp .undef,
  src .ldy .abs, src .lda .abs, src .ldx .abs, bitRel .bbs]

/-- Row Bx of the CMOS map. -/
def cmosRowB : Vector Slot 16 := #v[
  rel .bcs, src .lda .izy, src .lda .izp, padImp .undef,
  src .ldy .zpx, src .lda .zpx, src .ldx .zpy, bitZp .smb,
  imp .clv, src .lda .aby, imp .tsx, padImp .undef,
  src .ldy .abx, src .lda .abx, src .ldx .aby, bitRel .bbs]

/-- Row Cx of the CMOS map. -/
def cmosRowC : Vector Slot 16 := #v[
  srcImm .cpy, src .cmp .izx, padImm .undef, padImp .undef,
  src .cpy .zp, src .cmp .zp, mem .dec .zp, bitZp .smb,
  imp .iny, srcImm .cmp, imp .dex, padImp .undef,
  src .cpy .abs, src .cmp .abs, mem .dec .abs, bitRel .bbs]

/-- Row Dx of the CMOS map. -/
def cmosRowD : Vector Slot 16 := #v[
  rel .bne, src .cmp .izy, src .cmp .izp, padImp .undef,
  pad .undef .zpx, src .cmp .zpx, mem .dec .zpx, bitZp .smb,
  imp .cld, src .cmp .aby, imp .phx, padImp .undef,
  pad .undef .abs, src .cmp .abx, mem .dec .abx, bitRel .bbs]

/-- Row Ex of the CMOS map. -/
def cmosRowE : Vector Slot 16 := #v[
  srcImm .cpx, src .sbc .izx, padImm .undef, padImp .undef,
  src .cpx .zp, src .sbc .zp, mem .inc .zp, bitZp .smb,
  imp .inx, srcImm .sbc, padImp .nop, padImp .undef,
  src .cpx .abs, src .sbc .abs, mem .inc .abs, bitRel .bbs]

/-- Row Fx of the CMOS map. -/
def cmosRowF : Vector Slot 16 := #v[
  rel .beq, src .sbc .izy, src .sbc .izp, padImp .undef,
  pad .undef .zpx, src .sbc .zpx, mem .inc .zpx, bitZp .smb,
  imp .sed, src .sbc .aby, imp .plx, padImp .undef,
  pad .undef .abs, src .sbc .abx, mem .inc .abx, bitRel .bbs]

/-- The CMOS map (R116), a row per high nibble. -/
def cmosMap : Vector (Vector Slot 16) 16 := #v[
  cmosRow0, cmosRow1, cmosRow2, cmosRow3, cmosRow4, cmosRow5, cmosRow6, cmosRow7,
  cmosRow8, cmosRow9, cmosRowA, cmosRowB, cmosRowC, cmosRowD, cmosRowE, cmosRowF]

/-! ## Decoding (R114) -/

/-- The opcode table of a variant: NMOS, NES2A03 and M6510 use the NMOS map (R114). -/
def opcodeMap (v : Variant) : Vector (Vector Slot 16) 16 := if v.isCmos then cmosMap else nmosMap

/-- `Table[variant][op]`: row the high nibble, column the low nibble (R114, R115). -/
def slotOf (v : Variant) (op : Byte) : Slot :=
  ((opcodeMap v).get ⟨op.toNat / 16, by omega⟩).get ⟨op.toNat % 16, by omega⟩

/-- The mode of an opcode (R111). -/
def modeOf (v : Variant) (op : Byte) : Mode := (slotOf v op).mode

/-- The length of an instruction: a function of the variant and the opcode byte alone (R111). -/
def lengthOf (v : Variant) (op : Byte) : Nat := (modeOf v op).length

/-- The instruction that starts with the opcode `op`, given the two bytes after it; those its length leaves out have no
effect (R114). -/
def decodeAt (v : Variant) (op b1 b2 : Byte) : Instr := (slotOf v op).build op b1 b2

/-- Why a byte string holds no instruction. Every opcode byte is one (R117), so the only reason is that bytes are missing. -/
inductive DecodeError where
  /-- Fewer bytes than the opcode's length (R111). -/
  | truncated
deriving DecidableEq, Repr

/-- Decoding of a byte string: the instruction at its start and the bytes after it, or why there is none. -/
def decode (v : Variant) : List Byte → Except DecodeError (Instr × List Byte)
  | [] => .error .truncated
  | op :: rest =>
    match lengthOf v op, rest with
    | 1, _ => .ok (decodeAt v op 0#8 0#8, rest)
    | 2, b1 :: rest => .ok (decodeAt v op b1 0#8, rest)
    | 3, b1 :: b2 :: rest => .ok (decodeAt v op b1 b2, rest)
    | _, _ => .error .truncated

/-! ## Encoding -/

/-- Only on CMOS. -/
def onCmos (v : Variant) (c : Option Byte) : Option Byte := if v.isCmos then c else none

/-- Only on NMOS, NES2A03 and M6510. -/
def onNmos (v : Variant) (c : Option Byte) : Option Byte := if v.isCmos then none else c

/-- Modes an instruction gains on CMOS. -/
def moreOnCmos (v : Variant) (t : List (AddrMode × Byte)) : List (AddrMode × Byte) := if v.isCmos then t else []

/-- The opcode the list gives the operand's mode. -/
def codeIn (t : List (AddrMode × Byte)) (o : Addr) : Option Byte := t.lookup o.mode

/-- The opcode of a read-class operand: `i` for an immediate. -/
def srcCode (i : Byte) (t : List (AddrMode × Byte)) : Src → Option Byte
  | .imm _ => some i
  | .mem o => codeIn t o

/-- The opcode of a shift's operand: `a` for A. -/
def placeCode (a : Byte) (t : List (AddrMode × Byte)) : Place → Option Byte
  | .acc => some a
  | .mem o => codeIn t o

/-- `base + $10 * b`: the opcodes of RMB, SMB, BBR, BBS (R349 to R352). -/
def bitCode (base : Byte) (b : Fin 8) : Byte := base + BitVec.ofNat 8 (16 * b.val)

/-- The opcode byte of an instruction on a variant, from the "Encoding" line of its rule; `none` where it has none. -/
def opcodeOf (v : Variant) : Instr → Option Byte
  | .adc o =>
    srcCode 0x69#8 ([(.zp, 0x65#8), (.zpx, 0x75#8), (.abs, 0x6D#8),
      (.abx, 0x7D#8), (.aby, 0x79#8), (.izx, 0x61#8), (.izy, 0x71#8)] ++ moreOnCmos v [(.izp, 0x72#8)]) o
  | .sbc o =>
    srcCode 0xE9#8 ([(.zp, 0xE5#8), (.zpx, 0xF5#8), (.abs, 0xED#8),
      (.abx, 0xFD#8), (.aby, 0xF9#8), (.izx, 0xE1#8), (.izy, 0xF1#8)] ++ moreOnCmos v [(.izp, 0xF2#8)]) o
  | .and o =>
    srcCode 0x29#8 ([(.zp, 0x25#8), (.zpx, 0x35#8), (.abs, 0x2D#8),
      (.abx, 0x3D#8), (.aby, 0x39#8), (.izx, 0x21#8), (.izy, 0x31#8)] ++ moreOnCmos v [(.izp, 0x32#8)]) o
  | .ora o =>
    srcCode 0x09#8 ([(.zp, 0x05#8), (.zpx, 0x15#8), (.abs, 0x0D#8),
      (.abx, 0x1D#8), (.aby, 0x19#8), (.izx, 0x01#8), (.izy, 0x11#8)] ++ moreOnCmos v [(.izp, 0x12#8)]) o
  | .eor o =>
    srcCode 0x49#8 ([(.zp, 0x45#8), (.zpx, 0x55#8), (.abs, 0x4D#8),
      (.abx, 0x5D#8), (.aby, 0x59#8), (.izx, 0x41#8), (.izy, 0x51#8)] ++ moreOnCmos v [(.izp, 0x52#8)]) o
  | .lda o =>
    srcCode 0xA9#8 ([(.zp, 0xA5#8), (.zpx, 0xB5#8), (.abs, 0xAD#8),
      (.abx, 0xBD#8), (.aby, 0xB9#8), (.izx, 0xA1#8), (.izy, 0xB1#8)] ++ moreOnCmos v [(.izp, 0xB2#8)]) o
  | .ldx o => srcCode 0xA2#8 ([(.zp, 0xA6#8), (.zpy, 0xB6#8), (.abs, 0xAE#8), (.aby, 0xBE#8)]) o
  | .ldy o => srcCode 0xA0#8 ([(.zp, 0xA4#8), (.zpx, 0xB4#8), (.abs, 0xAC#8), (.abx, 0xBC#8)]) o
  | .sta o =>
    codeIn ([(.zp, 0x85#8), (.zpx, 0x95#8), (.abs, 0x8D#8),
      (.abx, 0x9D#8), (.aby, 0x99#8), (.izx, 0x81#8), (.izy, 0x91#8)] ++ moreOnCmos v [(.izp, 0x92#8)]) o
  | .stx o => codeIn [(.zp, 0x86#8), (.zpy, 0x96#8), (.abs, 0x8E#8)] o
  | .sty o => codeIn [(.zp, 0x84#8), (.zpx, 0x94#8), (.abs, 0x8C#8)] o
  | .tax => some 0xAA#8
  | .tay => some 0xA8#8
  | .txa => some 0x8A#8
  | .tya => some 0x98#8
  | .tsx => some 0xBA#8
  | .txs => some 0x9A#8
  | .inc o => codeIn [(.zp, 0xE6#8), (.zpx, 0xF6#8), (.abs, 0xEE#8), (.abx, 0xFE#8)] o
  | .dec o => codeIn [(.zp, 0xC6#8), (.zpx, 0xD6#8), (.abs, 0xCE#8), (.abx, 0xDE#8)] o
  | .inx => some 0xE8#8
  | .iny => some 0xC8#8
  | .dex => some 0xCA#8
  | .dey => some 0x88#8
  | .asl o => placeCode 0x0A#8 [(.zp, 0x06#8), (.zpx, 0x16#8), (.abs, 0x0E#8), (.abx, 0x1E#8)] o
  | .lsr o => placeCode 0x4A#8 [(.zp, 0x46#8), (.zpx, 0x56#8), (.abs, 0x4E#8), (.abx, 0x5E#8)] o
  | .rol o => placeCode 0x2A#8 [(.zp, 0x26#8), (.zpx, 0x36#8), (.abs, 0x2E#8), (.abx, 0x3E#8)] o
  | .ror o => placeCode 0x6A#8 [(.zp, 0x66#8), (.zpx, 0x76#8), (.abs, 0x6E#8), (.abx, 0x7E#8)] o
  | .cmp o =>
    srcCode 0xC9#8 ([(.zp, 0xC5#8), (.zpx, 0xD5#8), (.abs, 0xCD#8),
      (.abx, 0xDD#8), (.aby, 0xD9#8), (.izx, 0xC1#8), (.izy, 0xD1#8)] ++ moreOnCmos v [(.izp, 0xD2#8)]) o
  | .cpx o => srcCode 0xE0#8 ([(.zp, 0xE4#8), (.abs, 0xEC#8)]) o
  | .cpy o => srcCode 0xC0#8 ([(.zp, 0xC4#8), (.abs, 0xCC#8)]) o
  | .bit (.imm _) => onCmos v (some 0x89#8)
  | .bit (.mem o) => codeIn ([(.zp, 0x24#8), (.abs, 0x2C#8)] ++ moreOnCmos v [(.zpx, 0x34#8), (.abx, 0x3C#8)]) o
  | .bpl _ => some 0x10#8
  | .bmi _ => some 0x30#8
  | .bvc _ => some 0x50#8
  | .bvs _ => some 0x70#8
  | .bcc _ => some 0x90#8
  | .bcs _ => some 0xB0#8
  | .bne _ => some 0xD0#8
  | .beq _ => some 0xF0#8
  | .jmp (.abs _) => some 0x4C#8
  | .jmp (.ind _) => some 0x6C#8
  | .jmp (.iax _) => onCmos v (some 0x7C#8)
  | .jsr _ => some 0x20#8
  | .rts => some 0x60#8
  | .pha => some 0x48#8
  | .php => some 0x08#8
  | .pla => some 0x68#8
  | .plp => some 0x28#8
  | .rti => some 0x40#8
  | .brk => some 0x00#8
  | .clc => some 0x18#8
  | .sec => some 0x38#8
  | .cli => some 0x58#8
  | .sei => some 0x78#8
  | .clv => some 0xB8#8
  | .cld => some 0xD8#8
  | .sed => some 0xF8#8
  | .slo o =>
    onNmos v (codeIn [(.zp, 0x07#8), (.zpx, 0x17#8), (.abs, 0x0F#8),
      (.abx, 0x1F#8), (.aby, 0x1B#8), (.izx, 0x03#8), (.izy, 0x13#8)] o)
  | .rla o =>
    onNmos v (codeIn [(.zp, 0x27#8), (.zpx, 0x37#8), (.abs, 0x2F#8),
      (.abx, 0x3F#8), (.aby, 0x3B#8), (.izx, 0x23#8), (.izy, 0x33#8)] o)
  | .sre o =>
    onNmos v (codeIn [(.zp, 0x47#8), (.zpx, 0x57#8), (.abs, 0x4F#8),
      (.abx, 0x5F#8), (.aby, 0x5B#8), (.izx, 0x43#8), (.izy, 0x53#8)] o)
  | .rra o =>
    onNmos v (codeIn [(.zp, 0x67#8), (.zpx, 0x77#8), (.abs, 0x6F#8),
      (.abx, 0x7F#8), (.aby, 0x7B#8), (.izx, 0x63#8), (.izy, 0x73#8)] o)
  | .sax o => onNmos v (codeIn [(.zp, 0x87#8), (.zpy, 0x97#8), (.abs, 0x8F#8), (.izx, 0x83#8)] o)
  | .lax o =>
    onNmos v (codeIn [(.zp, 0xA7#8), (.zpy, 0xB7#8), (.abs, 0xAF#8), (.aby, 0xBF#8), (.izx, 0xA3#8), (.izy, 0xB3#8)] o)
  | .dcp o =>
    onNmos v (codeIn [(.zp, 0xC7#8), (.zpx, 0xD7#8), (.abs, 0xCF#8),
      (.abx, 0xDF#8), (.aby, 0xDB#8), (.izx, 0xC3#8), (.izy, 0xD3#8)] o)
  | .isc o =>
    onNmos v (codeIn [(.zp, 0xE7#8), (.zpx, 0xF7#8), (.abs, 0xEF#8),
      (.abx, 0xFF#8), (.aby, 0xFB#8), (.izx, 0xE3#8), (.izy, 0xF3#8)] o)
  | .anc op _ => onNmos v (if op = 0x0B#8 ∨ op = 0x2B#8 then some op else none)
  | .alr _ => onNmos v (some 0x4B#8)
  | .arr _ => onNmos v (some 0x6B#8)
  | .sbx _ => onNmos v (some 0xCB#8)
  | .ane _ => onNmos v (some 0x8B#8)
  | .lxa _ => onNmos v (some 0xAB#8)
  | .las o => onNmos v (codeIn [(.aby, 0xBB#8)] o)
  | .tas o => onNmos v (codeIn [(.aby, 0x9B#8)] o)
  | .shy o => onNmos v (codeIn [(.abx, 0x9C#8)] o)
  | .shx o => onNmos v (codeIn [(.aby, 0x9E#8)] o)
  | .sha o => onNmos v (codeIn [(.aby, 0x9F#8), (.izy, 0x93#8)] o)
  | .usbc _ => onNmos v (some 0xEB#8)
  | .tsb o => onCmos v (codeIn [(.zp, 0x04#8), (.abs, 0x0C#8)] o)
  | .trb o => onCmos v (codeIn [(.zp, 0x14#8), (.abs, 0x1C#8)] o)
  | .stz o => onCmos v (codeIn [(.zp, 0x64#8), (.zpx, 0x74#8), (.abs, 0x9C#8), (.abx, 0x9E#8)] o)
  | .bra _ => onCmos v (some 0x80#8)
  | .phx => onCmos v (some 0xDA#8)
  | .plx => onCmos v (some 0xFA#8)
  | .phy => onCmos v (some 0x5A#8)
  | .ply => onCmos v (some 0x7A#8)
  | .ina => onCmos v (some 0x1A#8)
  | .dea => onCmos v (some 0x3A#8)
  | .rmb b _ => onCmos v (some (bitCode 0x07#8 b))
  | .smb b _ => onCmos v (some (bitCode 0x87#8 b))
  | .bbr b _ _ => onCmos v (some (bitCode 0x0F#8 b))
  | .bbs b _ _ => onCmos v (some (bitCode 0x8F#8 b))
  | .nop op o => if (nopSlots v o).contains op then some op else none
  | .jam op => onNmos v (if jamSlots.contains op then some op else none)
  | .undef op o => onCmos v (if (undefSlots o).contains op then some op else none)

/-- An absolute operand: low byte first (R110). -/
def wordBytes (w : Word) : List Byte := [loByte w, hiByte w]

/-- The operand bytes of a memory operand (R110). -/
def Addr.bytes : Addr → List Byte
  | .zp z | .zpx z | .zpy z | .izx z | .izy z | .izp z => [z]
  | .abs w | .abx w | .aby w => wordBytes w

/-- The operand bytes of a read-class operand. -/
def Src.bytes : Src → List Byte
  | .imm b => [b]
  | .mem o => o.bytes

/-- The operand bytes of a shift's operand. -/
def Place.bytes : Place → List Byte
  | .acc => []
  | .mem o => o.bytes

/-- The operand bytes of JMP. -/
def Target.bytes : Target → List Byte
  | .abs w | .ind w | .iax w => wordBytes w

/-- The operand bytes of a NOP or UNDEF slot. -/
def Pad.bytes : Pad → List Byte
  | .imp => []
  | .imm b => [b]
  | .mem o => o.bytes

/-- The bytes after the opcode (R110). -/
def operandBytes : Instr → List Byte
  | .adc o | .sbc o | .and o | .ora o | .eor o | .lda o | .ldx o | .ldy o | .cmp o | .cpx o | .cpy o | .bit o => o.bytes
  | .sta o | .stx o | .sty o | .inc o | .dec o => o.bytes
  | .asl o | .lsr o | .rol o | .ror o => o.bytes
  | .tax | .tay | .txa | .tya | .tsx | .txs | .inx | .iny | .dex | .dey => []
  | .bpl rr | .bmi rr | .bvc rr | .bvs rr | .bcc rr | .bcs rr | .bne rr | .beq rr | .bra rr => [rr]
  | .jmp o => o.bytes
  | .jsr w => wordBytes w
  | .rts | .pha | .php | .pla | .plp | .rti | .brk | .clc | .sec | .cli | .sei | .clv | .cld | .sed => []
  | .slo o | .rla o | .sre o | .rra o | .sax o | .lax o | .dcp o | .isc o => o.bytes
  | .anc _ m | .alr m | .arr m | .sbx m | .ane m | .lxa m | .usbc m => [m]
  | .las o | .tas o | .shy o | .shx o | .sha o | .tsb o | .trb o | .stz o => o.bytes
  | .phx | .plx | .phy | .ply | .ina | .dea => []
  | .rmb _ z | .smb _ z => [z]
  | .bbr _ z rr | .bbs _ z rr => [z, rr]
  | .nop _ o | .undef _ o => o.bytes
  | .jam _ => []

/-- The bytes of an instruction, lowest address first (R110); `none` for one the variant does not have. -/
def encode (v : Variant) (i : Instr) : Option (List Byte) := (opcodeOf v i).map (· :: operandBytes i)

/-! ## The opcode table's rows as numbers (spec/opcode_table.json; log 11) -/

/-- The byte at bit `8 * k` of a row's number: the first byte of an instruction is bits 7 to 0. -/
def tableByte (w k : Nat) : Byte := BitVec.ofNat 8 (w / 256 ^ k)

/-- The table does not say of a number which variant's row it is. Where only one map gives the opcode the row's length, that
map; where both do, CMOS, but for SHY and SHX at $9C and $9E (log 11). -/
def tableVariant (nbits w : Nat) : Variant :=
  let op := tableByte w 0
  let fits (v : Variant) : Bool := 8 * lengthOf v op == nbits
  if fits .nmos && !fits .cmos then .nmos
  else if fits .cmos && !fits .nmos then .cmos
  else if decodeAt .nmos op (tableByte w 1) (tableByte w 2) = decodeAt .cmos op (tableByte w 1) (tableByte w 2) then .nmos
  else if op = 0x9C#8 ∨ op = 0x9E#8 then .nmos
  else .cmos

/-- The instruction the decoder reads from a row's number (log 11). -/
def decodeTableWord (nbits w : Nat) : Option Instr :=
  match decode (tableVariant nbits w) [tableByte w 0, tableByte w 1, tableByte w 2] with
  | .ok (i, _) => some i
  | .error _ => none

end Sys2Proof
end

