-- ==== Sys2Proof/Machine/State.lean ====
section
/-! DEFINITION. The state of the machine (10_state.md R53), why it can stop, and its value after reset (70_reset_and_hazards.md
R450). -/

namespace Sys2Proof.Machine

/-- A list of key and value pairs, keys strictly rising: the one canonical form of sparse data. -/
abbrev Cells (α : Type) := List (Nat × α)

/-- The bus's flat backing array (R72), as a list of `Host.Cell`: an address it does not list reads as $00 (log 2). -/
abbrev Memory := List Host.Cell

/-- How an IRQ is delivered (R45). -/
inductive IrqMode where
  | pulse
  | hold
deriving DecidableEq, Repr

/-- What the outside sees of a step, in order (R70, R80, R87; log 8). -/
inductive BusEvent where
  /-- A read of a bus address and the byte the bus answered. -/
  | read (addr : Nat) (v : Byte)
  /-- A write of a byte to a bus address. -/
  | write (addr : Nat) (v : Byte)
  /-- The 6510 port's callback was called with the new effective output (R74). -/
  | portCallback (v : Byte)
deriving DecidableEq, Repr

/-- The state of one core, its configuration and the memory behind its bus. -/
structure State where
  /-- The parameters the core was built with; no step and no host call changes them (R40; log 1). -/
  cfg : Config
  /-- A, the accumulator (R30). -/
  a : Byte
  /-- X (R31). -/
  x : Byte
  /-- Y (R32). -/
  y : Byte
  /-- S, the stack pointer (R33). -/
  sp : Byte
  /-- P, the status register (R34). -/
  p : Byte
  /-- PC (R38). -/
  pc : Word
  /-- PPC (R39). -/
  ppc : Word
  /-- The model's own: a fetch has written PPC since construction (I2; log 4). -/
  ppcWritten : Bool
  /-- `clockticks_this_instruction` (R42). -/
  clockticks : Nat
  /-- `clocktickstotal` (R43). -/
  clocktickstotal : Nat
  /-- `irq_pending` (R44). -/
  irqPending : Bool
  /-- `irq_mode` (R45). -/
  irqMode : IrqMode
  /-- `inhibit` (R46). -/
  inhibit : Nat
  /-- `nmi_pending` (R47). -/
  nmiPending : Bool
  /-- `port_ddr` (R48). -/
  portDdr : Byte
  /-- `port_latch` (R49). -/
  portLatch : Byte
  /-- `port_pins` (R50). -/
  portPins : Byte
  /-- `port_callback` is registered (R51). -/
  portCallback : Bool
  /-- `has_reset` (R52). -/
  hasReset : Bool
  /-- `halted` (R54). -/
  halted : Bool
  /-- The bus's backing array (R72). -/
  mem : Memory
  /-- The optional profiling counters, by opcode; an unlisted one is 0 (R431; log 16). -/
  profile : Cells Nat
  /-- The model's own: how many free values device reads have drawn (log 3). -/
  oracle : Nat
  /-- The model's own: the events of the current step or reset, oldest first (log 8). -/
  busLog : List BusEvent
deriving DecidableEq, Repr

/-- Why a step stops with a fault: never. "Synchronous exceptions: the core has none" (R410), and none of the behaviours the
source calls undefined is a fault (93 Part 1). -/
inductive Fault where
deriving DecidableEq, Repr

/-- Why the model does not define an operation. -/
inductive Refusal where
  /-- Raised by `exec` for an instruction without a meaning yet; no arm raises it. Safe: the run stops. -/
  | notModelled (mnemonic : String)
  /-- Raised by `step`, `run_for` and the register reads of the host before the first reset (R52, I1). Safe: the run stops. -/
  | notReset
  /-- Raised by the host's `get_ppc` before a fetch has written PPC (R452, I2). Safe: the read gives no value. -/
  | ppcNotWritten
deriving DecidableEq, Repr

/-- What an instruction or a step answers. -/
abbrev Result := Host.Outcome State Fault Refusal

/-- The core right after `reset()`: an NMOS core of default configuration, built on a bus whose memory lists nothing (R450,
R53). PC is the vector read from that memory; `busLog` holds the two vector reads. Values the spec does not give: `cfg`
(log 1, 6), `ppc` (log 4), `portCallback` (log 8), `oracle` (log 3). -/
def State.reset : State where
  cfg := Config.default .nmos
  a := 0x00#8
  x := 0x00#8
  y := 0x00#8
  sp := 0xFF#8
  p := 0x26#8
  pc := 0x0000#16
  ppc := 0x0000#16
  ppcWritten := false
  clockticks := 6
  clocktickstotal := 0
  irqPending := false
  irqMode := .pulse
  inhibit := 0
  nmiPending := false
  portDdr := 0x00#8
  portLatch := 0x00#8
  portPins := 0xFF#8
  portCallback := false
  hasReset := true
  halted := false
  mem := []
  profile := []
  oracle := 0
  busLog := [.read 0xFFFC 0x00#8, .read 0xFFFD 0x00#8]

end Sys2Proof.Machine
end

