-- ==== Sys2Proof/Machine/Flags.lean ====
section
/-! DEFINITION. The status register's bits and every flag computation: the N/Z rule, the adders, the compare, the shifts, ARR
(10_state.md R34; 41_arithmetic.md R190 to R197; 43_shift_compare_bit.md R240 to R244; 46_undocumented.md R322). Exact sums
are natural numbers or integers, narrowed at the end. -/

namespace Sys2Proof.Machine

/-- The bits of P (R34). -/
inductive Flag where
  | c | z | i | d | b | u | v | n
deriving DecidableEq, Repr

/-- The bit number of a flag (R34). -/
def Flag.index : Flag → Nat
  | .c => 0
  | .z => 1
  | .i => 2
  | .d => 3
  | .b => 4
  | .u => 5
  | .v => 6
  | .n => 7

/-- One bit of P. -/
def getFlag (p : Byte) (f : Flag) : Bool := p.getLsbD f.index

/-- P with one bit written. -/
def setFlag (p : Byte) (f : Flag) (v : Bool) : Byte :=
  (p &&& ~~~(1#8 <<< f.index)) ||| (if v then 1#8 <<< f.index else 0#8)

/-- `SetNZ(v)` (R190). -/
def setNZ (p v : Byte) : Byte := setFlag (setFlag p .z (v == 0#8)) .n v.msb

/-- P as PHP and BRK push it: Break and Unused forced to 1 (R282, R286). -/
def pushedBySoftware (p : Byte) : Byte := p ||| 0x30#8

/-- P as an IRQ or NMI pushes it: Break 0, Unused 1 (R405). -/
def pushedByInterrupt (p : Byte) : Byte := (p &&& ~~~0x10#8) ||| 0x20#8

/-- P as PLP and RTI restore it: Unused forced to 1, every other bit as pulled (R284, R285). -/
def restoredP (pulled : Byte) : Byte := pulled ||| 0x20#8

/-! ## The adders -/

/-- What an adder returns: the result and four flags (R192). -/
structure AluOut where
  r : Byte
  n : Bool
  v : Bool
  z : Bool
  c : Bool
deriving DecidableEq, Repr

/-- P with the four flags of an adder written. -/
def AluOut.flags (o : AluOut) (p : Byte) : Byte :=
  setFlag (setFlag (setFlag (setFlag p .n o.n) .v o.v) .z o.z) .c o.c

/-- `AddBinary(a, m, c)` (R192). -/
def addBinary (a m : Byte) (c : Bool) : AluOut :=
  let s := a.toNat + m.toNat + c.toNat
  let r := BitVec.ofNat 8 s
  { r := r, n := r.msb, v := (~~~(a ^^^ m) &&& (a ^^^ r)).msb, z := r == 0#8, c := decide (s > 255) }

/-- `SubBinary(a, m, c)` (R193). -/
def subBinary (a m : Byte) (c : Bool) : AluOut :=
  let d : Int := (a.toNat : Int) - m.toNat - (1 - c.toNat)
  let r := BitVec.ofInt 8 d
  { r := r, n := r.msb, v := ((a ^^^ m) &&& (a ^^^ r)).msb, z := r == 0#8, c := decide (d ≥ 0) }

/-- The low digit of a byte, `x & $0F`. -/
def lowDigit (x : Byte) : Nat := x.toNat % 16

/-- The high digit in place, `x & $F0`. -/
def highPart (x : Byte) : Nat := x.toNat / 16 * 16

/-- `al` of the decimal add: the low digits added and corrected (R194). -/
def decimalAddLow (a m : Byte) (c : Bool) : Nat :=
  let al := lowDigit a + lowDigit m + c.toNat
  if al ≥ 0x0A then (al + 0x06) % 16 + 0x10 else al

/-- `s` of the decimal add: the corrected exact sum (R194). -/
def decimalAddSum (a m : Byte) (c : Bool) : Nat :=
  let s := highPart a + highPart m + decimalAddLow a m c
  if s ≥ 0xA0 then s + 0x60 else s

/-- C of the decimal add: the decimal carry, or the literal reading (R194, R196, C3). -/
def decimalAddCarry (k : DecimalCarry) (a m : Byte) (c : Bool) : Bool :=
  match k with
  | .decimal => decide (decimalAddSum a m c ≥ 0x100)
  | .binary => (addBinary a m c).c

/-- `t` of the NMOS decimal add's `silicon` alternative: high parts taken as signed bytes (R194). -/
def decimalAddSigned (a m : Byte) (c : Bool) : Int :=
  (a &&& 0xF0#8).toInt + (m &&& 0xF0#8).toInt + decimalAddLow a m c

/-- The NMOS decimal add (R194). -/
def addNmosDecimal (cfg : Config) (a m : Byte) (c : Bool) : AluOut :=
  let b := addBinary a m c
  let t := decimalAddSigned a m c
  { r := BitVec.ofNat 8 (decimalAddSum a m c)
    n := match cfg.nmosDecimalNV with
      | .binary => b.n
      | .silicon => (BitVec.ofInt 8 t).msb
    v := match cfg.nmosDecimalNV with
      | .binary => b.v
      | .silicon => decide (t < -128 ∨ t > 127)
    z := b.z
    c := decimalAddCarry cfg.adcDecimalCarry a m c }

/-- The CMOS decimal add (R196); its extra cycle is charged by the instruction (R478). -/
def addCmosDecimal (cfg : Config) (a m : Byte) (c : Bool) : AluOut :=
  let r := BitVec.ofNat 8 (decimalAddSum a m c)
  { r := r
    n := r.msb
    v := (addBinary a m c).v
    z := r == 0#8
    c := decimalAddCarry cfg.adcDecimalCarry a m c }

/-- The low digits subtracted with borrow, exact (R195, R197). -/
def decimalSubLow (a m : Byte) (c : Bool) : Int := (lowDigit a : Int) - lowDigit m + c.toNat - 1

/-- The NMOS decimal subtract: every flag from the binary difference (R195). -/
def subNmosDecimal (a m : Byte) (c : Bool) : AluOut :=
  let low := decimalSubLow a m c
  let al := if low < 0 then (low - 0x06) % 16 - 0x10 else low
  let s := (highPart a : Int) - highPart m + al
  let s := if s < 0 then s - 0x60 else s
  { subBinary a m c with r := BitVec.ofInt 8 s }

/-- The CMOS decimal subtract (R197); its extra cycle is charged by the instruction (R478). -/
def subCmosDecimal (a m : Byte) (c : Bool) : AluOut :=
  let al := decimalSubLow a m c
  let s : Int := (a.toNat : Int) - m.toNat + c.toNat - 1
  let s := if s < 0 then s - 0x60 else s
  let s := if al < 0 then s - 0x06 else s
  let r := BitVec.ofInt 8 s
  { r := r, n := r.msb, v := (subBinary a m c).v, z := r == 0#8, c := (subBinary a m c).c }

/-- `Add` of R191's table: the variant and P.D select the adder; NES2A03 never corrects. -/
def aluAdd (cfg : Config) (d : Bool) (a m : Byte) (c : Bool) : AluOut :=
  match d, cfg.variant with
  | false, _ => addBinary a m c
  | true, .nes2A03 => addBinary a m c
  | true, .nmos | true, .m6510 => addNmosDecimal cfg a m c
  | true, .cmos => addCmosDecimal cfg a m c

/-- `Sub` of R191's table. -/
def aluSub (cfg : Config) (d : Bool) (a m : Byte) (c : Bool) : AluOut :=
  match d, cfg.variant with
  | false, _ => subBinary a m c
  | true, .nes2A03 => subBinary a m c
  | true, .nmos | true, .m6510 => subNmosDecimal a m c
  | true, .cmos => subCmosDecimal a m c

/-- The extra cycle of ADC and SBC: 1 on CMOS when P.D = 1 (R478). -/
def decimalCycles (cfg : Config) (d : Bool) : Nat :=
  match d, cfg.variant with
  | true, .cmos => 1
  | true, .nmos | true, .nes2A03 | true, .m6510 => 0
  | false, _ => 0

/-! ## Compare, shifts, ARR -/

/-- `Compare(r, m)`: the new P (R244). -/
def compareP (p r m : Byte) : Byte := setNZ (setFlag p .c (decide (m.toNat ≤ r.toNat))) (r - m)

/-- What a shift or rotate returns: the result and the bit shifted out (R240 to R243). -/
structure ShiftOut where
  r : Byte
  c : Bool
deriving DecidableEq, Repr

/-- P after a shift: C the bit shifted out, N and Z from the result. -/
def ShiftOut.flags (o : ShiftOut) (p : Byte) : Byte := setNZ (setFlag p .c o.c) o.r

/-- The carry as a byte, 0 or 1. -/
def carryByte (c : Bool) : Byte := if c then 1#8 else 0#8

/-- ASL (R240). -/
def shiftAsl (m : Byte) : ShiftOut := { r := m <<< 1, c := m.getLsbD 7 }

/-- LSR (R241). -/
def shiftLsr (m : Byte) : ShiftOut := { r := m >>> 1, c := m.getLsbD 0 }

/-- ROL: the old carry enters bit 0 (R242). -/
def shiftRol (m : Byte) (c : Bool) : ShiftOut := { r := (m <<< 1) ||| carryByte c, c := m.getLsbD 7 }

/-- ROR: the old carry enters bit 7 (R243). -/
def shiftRor (m : Byte) (c : Bool) : ShiftOut := { r := (m >>> 1) ||| (carryByte c <<< 7), c := m.getLsbD 0 }

/-- Whether ARR takes its decimal form (R322, D24). -/
def arrIsDecimal (cfg : Config) (d : Bool) : Bool :=
  match d, cfg.variant, cfg.arrDecimal with
  | true, .nmos, .silicon | true, .m6510, .silicon => true
  | true, .nmos, .binary | true, .m6510, .binary => false
  | true, .nes2A03, _ | true, .cmos, _ | false, _, _ => false

/-- ARR's binary form on `t = A & m`: the result and its flags (R322). -/
def arrBinary (t : Byte) (c : Bool) : AluOut :=
  let r := (shiftRor t c).r
  { r := r, n := r.msb, v := (r.getLsbD 6).xor (r.getLsbD 5), z := r == 0#8, c := r.getLsbD 6 }

/-- ARR's decimal form on `t = A & m` (R322). -/
def arrDecimalForm (t : Byte) (c : Bool) : AluOut :=
  let r := (shiftRor t c).r
  let r1 := if lowDigit t + t.toNat % 2 > 0x05 then (r &&& 0xF0#8) ||| ((r + 0x06#8) &&& 0x0F#8) else r
  let high := decide (highPart t + (t &&& 0x10#8).toNat > 0x50)
  { r := if high then r1 + 0x60#8 else r1
    n := c
    v := (t ^^^ r).getLsbD 6
    z := r == 0#8
    c := high }

end Sys2Proof.Machine
end

