-- ==== Sys2Proof/Machine/Ops.lean ====
section
/-! DEFINITION. The named operations over memory, the bus, the stack and the registers that steps share, taking an interrupt or
BRK, and returning from one (20_memory.md; 44_branch_jump.md R260; 45_stack_flags_interrupt.md R280; 60_exceptions.md R404 to
R409; 70_reset_and_hazards.md R474, R480). -/

namespace Sys2Proof.Machine

/-! ## Sparse data in canonical form -/

/-- The value of a key; `d` where the list does not name it. -/
def Cells.get {α : Type} (d : α) : Cells α → Nat → α
  | [], _ => d
  | (k, v) :: rest, a => if k = a then v else Cells.get d rest a

/-- The list without a key. -/
def Cells.erase {α : Type} : Cells α → Nat → Cells α
  | [], _ => []
  | (k, v) :: rest, a => if k = a then Cells.erase rest a else (k, v) :: Cells.erase rest a

/-- A pair put before the first greater key. -/
def Cells.insert {α : Type} : Cells α → Nat → α → Cells α
  | [], a, v => [(a, v)]
  | (k, w) :: rest, a, v => if a < k then (a, v) :: (k, w) :: rest else (k, w) :: Cells.insert rest a v

/-- The list with one key's value replaced, in canonical form: the value an unlisted key has is not listed. -/
def Cells.set {α : Type} [DecidableEq α] (d : α) (m : Cells α) (a : Nat) (v : α) : Cells α :=
  if v = d then Cells.erase m a else Cells.insert (Cells.erase m a) a v

/-- Every key is at least `lo`, keys rise strictly, no value is `d`. -/
def Cells.wfFrom {α : Type} [DecidableEq α] (d : α) : Nat → Cells α → Bool
  | _, [] => true
  | lo, (k, v) :: rest => decide (lo ≤ k) && decide (v ≠ d) && Cells.wfFrom d (k + 1) rest

/-- The canonical form. -/
def Cells.wf {α : Type} [DecidableEq α] (d : α) (m : Cells α) : Bool := Cells.wfFrom d 0 m

/-- What a byte of memory that nothing has written reads as (DESIGN CHOICE, log 2). -/
def unlistedByte : Byte := 0x00#8

/-- One byte of the backing array. -/
def Memory.read (m : Memory) (a : Nat) : Byte := Cells.get unlistedByte m a

/-- The backing array with one byte written. -/
def Memory.write (m : Memory) (a : Nat) (v : Byte) : Memory := Cells.set unlistedByte m a v

/-- The memory is in canonical form. -/
def Memory.wf (m : Memory) : Bool := Cells.wf unlistedByte m

/-! ## The bus (R70 to R72) -/

/-- The address lies in the range. -/
def rangeHolds (r : BusRange) (b : Nat) : Bool := decide (r.base ≤ b) && decide (b < r.base + r.size)

/-- The first range that holds the address: "ranges are scanned in range order, first match wins" (R72). -/
def rangeAt (m : BusMap) (b : Nat) : Option BusRange := m.ranges.find? (rangeHolds · b)

/-- Where a bus access goes. -/
inductive Route where
  /-- A custom handler, with the address relative to its range's start (R72). -/
  | handler (offset : Nat)
  /-- The flat backing array. -/
  | backing
  /-- No range, strict mode: a read gives 0, a write does nothing (R72). -/
  | rejected
deriving DecidableEq, Repr

/-- Where an access goes when the range found has a handler for it or not (R72; log 3). -/
def routeOf (m : BusMap) (hasHandler : BusRange → Bool) (b : Nat) : Route :=
  match rangeAt m b with
  | some r => if hasHandler r then .handler (b - r.base) else .backing
  | none => if m.strict then .rejected else .backing

/-- Where a read of a bus address goes. -/
def readRoute (m : BusMap) (b : Nat) : Route := routeOf m (·.readHandler) b

/-- Where a write of a bus address goes. -/
def writeRoute (m : BusMap) (b : Nat) : Route := routeOf m (·.writeHandler) b

/-- Add an event to the step's log (R70, R80). -/
def State.logEvent (s : State) (e : BusEvent) : State := { s with busLog := s.busLog ++ [e] }

/-- A value and the state after obtaining it. -/
structure Got (α : Type) where
  val : α
  st : State
deriving Repr

/-- `Bus.read`: the byte the bus answers (R70, R72). A custom handler answers a free value. -/
def State.busRead (s : State) (b : Nat) : Got Byte :=
  match readRoute s.cfg.bus b with
  | .handler _ =>
    let v := Config.handlerByte s.oracle
    ⟨v, { s with oracle := s.oracle + 1 }.logEvent (.read b v)⟩
  | .backing => ⟨s.mem.read b, s.logEvent (.read b (s.mem.read b))⟩
  | .rejected => ⟨0x00#8, s.logEvent (.read b 0x00#8)⟩

/-- `Bus.write` (R70, R72). A custom handler changes nothing the core can see but through later reads of a handler. -/
def State.busWrite (s : State) (b : Nat) (v : Byte) : State :=
  match writeRoute s.cfg.bus b with
  | .backing => { s with mem := s.mem.write b v }.logEvent (.write b v)
  | .handler _ | .rejected => s.logEvent (.write b v)

/-! ## The 6510 I/O port (R73, R74) -/

/-- The effective output: the latch masked by the direction register (R51). -/
def State.portOutput (s : State) : Byte := s.portLatch &&& s.portDdr

/-- `PortRead` (R73). -/
def State.portRead (s : State) (b : Nat) : Byte :=
  if b = 0 then s.portDdr else (s.portLatch &&& s.portDdr) ||| (s.portPins &&& ~~~s.portDdr)

/-- The port register an address names, written. -/
def State.portStore (s : State) (b : Nat) (v : Byte) : State :=
  if b = 0 then { s with portDdr := v } else { s with portLatch := v }

/-- `PortWrite`: the callback is called when it is registered and the effective output changed (R74). -/
def State.portWrite (s : State) (b : Nat) (v : Byte) : State :=
  let t := s.portStore b v
  if t.portOutput ≠ s.portOutput ∧ s.portCallback then t.logEvent (.portCallback t.portOutput) else t

/-- The bus address is one the 6510 port answers (R71, R73). -/
def State.isPort (s : State) (b : Nat) : Bool := decide (s.cfg.variant = .m6510) && decide (b < 2)

/-! ## The core's accesses (R71, R76, R81, R82, R86) -/

/-- The address presented to the bus: `a & addr_mask` (R71). -/
def State.busAddr (s : State) (a : Word) : Nat := (a &&& s.cfg.addrMask).toNat

/-- `MemRead(a)` (R71). -/
def State.memRead (s : State) (a : Word) : Got Byte :=
  let b := s.busAddr a
  if s.isPort b then ⟨s.portRead b, s⟩ else s.busRead b

/-- `MemWrite(a, v)` (R71). -/
def State.memWrite (s : State) (a : Word) (v : Byte) : State :=
  let b := s.busAddr a
  if s.isPort b then s.portWrite b v else s.busWrite b v

/-- `Read16(a_lo, a_hi)`: the low byte first (R76). -/
def State.read16 (s : State) (aLo aHi : Word) : Got Word :=
  let l := s.memRead aLo
  let h := l.st.memRead aHi
  ⟨wordOf h.val l.val, h.st⟩

/-- `zext_16(b)` (R9). -/
def zext16 (b : Byte) : Word := b.setWidth 16

/-- `sext_16(b)` (R9). -/
def sext16 (b : Byte) : Word := b.signExtend 16

/-- The stack address of an S: `$0100 + S` (R81). -/
def stackAddr (sp : Byte) : Word := 0x0100#16 + zext16 sp

/-- `Push(v)`: write, then decrement S modulo 256 (R81, R83). -/
def State.push (s : State) (v : Byte) : State :=
  let t := s.memWrite (stackAddr s.sp) v
  { t with sp := s.sp - 1#8 }

/-- `Pull()`: increment S modulo 256, then read (R82, R83, C4). -/
def State.pull (s : State) : Got Byte := { s with sp := s.sp + 1#8 }.memRead (stackAddr (s.sp + 1#8))

/-- `FetchByte()`: PC advances modulo 2^16 (R86). -/
def State.fetchByte (s : State) : Got Byte :=
  let r := s.memRead s.pc
  ⟨r.val, { r.st with pc := s.pc + 1#16 }⟩

/-! ## Register and counter updates -/

/-- P replaced. -/
def State.setP (s : State) (p : Byte) : State := { s with p := p }

/-- A written, N and Z from it. -/
def State.loadA (s : State) (v : Byte) : State := { s with a := v, p := setNZ s.p v }

/-- X written, N and Z from it. -/
def State.loadX (s : State) (v : Byte) : State := { s with x := v, p := setNZ s.p v }

/-- Y written, N and Z from it. -/
def State.loadY (s : State) (v : Byte) : State := { s with y := v, p := setNZ s.p v }

/-- `cycles +<- n` (R474). -/
def State.addCycles (s : State) (n : Nat) : State := { s with clockticks := s.clockticks + n }

/-- The running total exceeds the ceiling, where there is one (R480). -/
def overCeiling (ceiling : Option Nat) (total : Nat) : Bool :=
  match ceiling with
  | some c => decide (total > c)
  | none => false

/-- `Account()`: the total is set to 0 when it exceeds the ceiling (R480, C7). -/
def State.account (s : State) : State :=
  let total := s.clocktickstotal + s.clockticks
  { s with clocktickstotal := if overCeiling s.cfg.cycleCeiling total then 0 else total }

/-- `if inhibit > 0 then inhibit <- inhibit - 1` (R400, R46). -/
def State.decInhibit (s : State) : State := { s with inhibit := s.inhibit - 1 }

/-- `ArmDeferral(i_before)` (R280). -/
def State.armDeferral (s : State) (iBefore : Bool) : State :=
  if iBefore = true ∧ getFlag s.p .i = false then { s with inhibit := 2 } else s

/-- `Branch(cond, target)`: 1 cycle when taken, 2 when the target's page is not the page of the next instruction (R260). -/
def State.branch (s : State) (cond : Bool) (target : Word) : State :=
  if cond then
    { s with pc := target }.addCycles (if hiByte target ≠ hiByte s.pc then 2 else 1)
  else s

/-- A branch's target: the next instruction's address plus the signed offset (R163). -/
def State.branchTarget (s : State) (rr : Byte) : Word := s.pc + sext16 rr

/-! ## Entering a handler and returning (R404 to R409, R285, R286) -/

/-- Load PC from a vector: low byte at `addr_mask & vector`, high byte at `addr_mask & (vector + 1)` (R404, R85). -/
def State.jumpVector (s : State) (vector : Word) : State :=
  let r := s.read16 (s.cfg.addrMask &&& vector) (s.cfg.addrMask &&& (vector + 1#16))
  { r.st with pc := r.val }

/-- What BRK, IRQ and NMI share: push PCH, PCL and the given byte of P, set I, load PC from the vector (R404, R408). -/
def State.enterHandler (s : State) (vector : Word) (pushedP : Byte) : State :=
  let s1 := ((s.push (hiByte s.pc)).push (loByte s.pc)).push pushedP
  (s1.setP (setFlag s1.p .i true)).jumpVector vector

/-- `Service(vector)` of IRQ and NMI (R404, R405). -/
def State.service (s : State) (vector : Word) : State := s.enterHandler vector (pushedByInterrupt s.p)

/-- Clear D where BRK does so (R286, D27). -/
def State.brkClearD (s : State) : State :=
  if s.cfg.brkClearsD then s.setP (setFlag s.p .d false) else s

/-- BRK: skip the signature byte, enter the handler at $FFFE with B and U set in the pushed P, clear D where configured
(R286). -/
def State.softwareInterrupt (s : State) : State :=
  let s1 := { s with pc := s.pc + 1#16 }
  (s1.enterHandler 0xFFFE#16 (pushedBySoftware s1.p)).brkClearD

/-- Pull P with U forced to 1 (R284, R285). -/
def State.pullP (s : State) : State :=
  let r := s.pull
  r.st.setP (restoredP r.val)

/-- Pull a word, low byte first (R271, R285). -/
def State.pullWord (s : State) : Got Word :=
  let l := s.pull
  let h := l.st.pull
  ⟨wordOf h.val l.val, h.st⟩

/-- The return from a handler: P, then PC, then the deferral (R285, R409). -/
def State.returnFromHandler (s : State) : State :=
  let r := s.pullP.pullWord
  { r.st with pc := r.val }.armDeferral (getFlag s.p .i)

/-! ## Interrupts (R400 steps 3 and 4) -/

/-- The NMI step: 7 cycles, inhibit decremented, accounted (R406, R400 step 3). -/
def State.nmiStep (s : State) : State :=
  (({ s with nmiPending := false }.service 0xFFFA#16).addCycles 7).decInhibit.account

/-- An IRQ is recognised: pending, not inhibited, I clear (R403). -/
def State.irqRecognised (s : State) : Bool :=
  s.irqPending && decide (s.inhibit = 0) && !getFlag s.p .i

/-- In pulse mode the service clears the latch; in hold mode it stays (R404). -/
def State.acknowledgeIrq (s : State) : State :=
  match s.irqMode with
  | .pulse => { s with irqPending := false }
  | .hold => s

/-- The IRQ step: 7 cycles, inhibit decremented, accounted (R404, R400 step 4). -/
def State.irqStep (s : State) : State :=
  ((s.service 0xFFFE#16).addCycles 7).acknowledgeIrq.decInhibit.account

end Sys2Proof.Machine
end

