-- ==== Sys2Proof/Machine/Operands.lean ====
section
/-! DEFINITION. The addressing-mode resolvers and the operand classes (40_addressing.md). Operand bytes have been fetched when
a resolver runs (log 9): it makes only the pointer reads its rule writes, and PC is the address of the next instruction. -/

namespace Sys2Proof.Machine

/-- What a resolver returns: the effective address, the unindexed base (the EA itself where nothing is indexed), and whether
indexing crossed a page (R150, R167, R311). -/
structure Ea where
  ea : Word
  base : Word
  crossed : Bool
deriving DecidableEq, Repr

/-- An effective address that is not indexed over pages: `crossed` is false (R167). -/
def Ea.plain (w : Word) : Ea := { ea := w, base := w, crossed := false }

/-- `base + index` modulo 2^16, and whether the high byte changed (R158, R159, R162). -/
def Ea.indexed (base : Word) (index : Byte) : Ea :=
  let ea := base + zext16 index
  { ea := ea, base := base, crossed := decide (hiByte ea ≠ hiByte base) }

/-- A pointer in the zero page: its high byte is read at the next zero-page address, modulo 256 (R161, R162, R164). -/
def State.readZeroPagePointer (s : State) (z : Byte) : Got Word := s.read16 (zext16 z) (zext16 (z + 1#8))

/-- The resolvers of the memory modes (R154 to R159, R161, R162, R164). -/
def resolve (o : Addr) (s : State) : Got Ea :=
  match o with
  | .zp z => ⟨.plain (zext16 z), s⟩
  | .zpx z => ⟨.plain (zext16 (z + s.x)), s⟩
  | .zpy z => ⟨.plain (zext16 (z + s.y)), s⟩
  | .abs w => ⟨.plain w, s⟩
  | .abx w => ⟨.indexed w s.x, s⟩
  | .aby w => ⟨.indexed w s.y, s⟩
  | .izx z =>
    let r := s.readZeroPagePointer (z + s.x)
    ⟨.plain r.val, r.st⟩
  | .izy z =>
    let r := s.readZeroPagePointer z
    ⟨.indexed r.val s.y, r.st⟩
  | .izp z =>
    let r := s.readZeroPagePointer z
    ⟨.plain r.val, r.st⟩

/-- The address of the pointer's high byte in JMP (abs): within the page on the NMOS family, the next address on CMOS
(R160). -/
def pointerHigh (v : Variant) (ptr : Word) : Word :=
  if v.isCmos then ptr + 1#16 else wordOf (hiByte ptr) (loByte ptr + 1#8)

/-- The resolvers of JMP: the jump target (R157, R160, R165). -/
def resolveTarget (o : Target) (s : State) : Got Word :=
  match o with
  | .abs w => ⟨w, s⟩
  | .ind w => s.read16 w (pointerHigh s.cfg.variant w)
  | .iax w => s.read16 (w + zext16 s.x) (w + zext16 s.x + 1#16)

/-- A byte of memory as the operand: resolve, then one read of EA (R168). -/
def operandAt (o : Addr) (s : State) : Got Byte :=
  let r := resolve o s
  r.st.memRead r.val.ea

/-- `Operand()` of the read class (R168). The immediate byte was read when it was fetched (R153; log 9). -/
def operand (o : Src) (s : State) : Got Byte :=
  match o with
  | .imm b => ⟨b, s⟩
  | .mem o => operandAt o s

/-- The write class: resolve, then one write of EA, with the value `f` gives (R168). -/
def storeWith (o : Addr) (f : Ea → State → Byte) (s : State) : State :=
  let r := resolve o s
  r.st.memWrite r.val.ea (f r.val r.st)

/-- The read-modify-write class: resolve, read EA once, write `f` of the byte to EA once (R79, R168); then `g` of the byte
read sets registers and flags. -/
def modifyWith (o : Addr) (f : Byte → State → Byte) (g : Byte → State → State) (s : State) : State :=
  let r := resolve o s
  let m := r.st.memRead r.val.ea
  g m.val (m.st.memWrite r.val.ea (f m.val m.st))

/-- `HPlus1`: the high byte of the unindexed base plus 1, modulo 256 (R311). -/
def Ea.hPlus1 (e : Ea) : Byte := hiByte e.base + 1#8

end Sys2Proof.Machine
end

