-- ==== Sys2Proof/Machine/Arithmetic.lean ====
section
/-! DEFINITION. ADC and SBC (41_arithmetic.md R198, R199). -/

namespace Sys2Proof.Machine

/-- A and N, V, Z, C from the selected adder on A, `m` and C (R198). -/
def State.addToA (s : State) (m : Byte) : State :=
  let o := aluAdd s.cfg (getFlag s.p .d) s.a m (getFlag s.p .c)
  { s with a := o.r, p := o.flags s.p }

/-- A and N, V, Z, C from the selected subtracter on A, `m` and C (R199). -/
def State.subFromA (s : State) (m : Byte) : State :=
  let o := aluSub s.cfg (getFlag s.p .d) s.a m (getFlag s.p .c)
  { s with a := o.r, p := o.flags s.p }

/-- The decimal cycle of ADC and SBC, from P.D at the start of the instruction (R478). -/
def State.chargeDecimal (s : State) : State := s.addCycles (decimalCycles s.cfg (getFlag s.p .d))

/-- SBC of an operand (R199), which USBC is too (R331). -/
def subtractOperand (o : Src) (s : State) : State :=
  let r := operand o s
  r.st.chargeDecimal.subFromA r.val

/-- ADC (R198). -/
def execAdc (o : Src) (s : State) : Result :=
  let r := operand o s
  .next (r.st.chargeDecimal.addToA r.val)

/-- SBC (R199). -/
def execSbc (o : Src) (s : State) : Result := .next (subtractOperand o s)

end Sys2Proof.Machine
end

