-- ==== Sys2Proof/Machine/Branch.lean ====
section
/-! DEFINITION. Branches, jumps and subroutines (44_branch_jump.md R260 to R271). -/

namespace Sys2Proof.Machine

/-- BPL (R261). -/
def execBpl (rr : Byte) (s : State) : Result := .next (s.branch (!getFlag s.p .n) (s.branchTarget rr))

/-- BMI (R262). -/
def execBmi (rr : Byte) (s : State) : Result := .next (s.branch (getFlag s.p .n) (s.branchTarget rr))

/-- BVC (R263). -/
def execBvc (rr : Byte) (s : State) : Result := .next (s.branch (!getFlag s.p .v) (s.branchTarget rr))

/-- BVS (R264). -/
def execBvs (rr : Byte) (s : State) : Result := .next (s.branch (getFlag s.p .v) (s.branchTarget rr))

/-- BCC (R265). -/
def execBcc (rr : Byte) (s : State) : Result := .next (s.branch (!getFlag s.p .c) (s.branchTarget rr))

/-- BCS (R266). -/
def execBcs (rr : Byte) (s : State) : Result := .next (s.branch (getFlag s.p .c) (s.branchTarget rr))

/-- BNE (R267). -/
def execBne (rr : Byte) (s : State) : Result := .next (s.branch (!getFlag s.p .z) (s.branchTarget rr))

/-- BEQ (R268). -/
def execBeq (rr : Byte) (s : State) : Result := .next (s.branch (getFlag s.p .z) (s.branchTarget rr))

/-- JMP (R269). -/
def execJmp (o : Target) (s : State) : Result :=
  let r := resolveTarget o s
  .next { r.st with pc := r.val }

/-- JSR: pushes the address of its own last byte, high byte first (R270). -/
def execJsr (w : Word) (s : State) : Result :=
  let ret := s.pc - 1#16
  .next { (s.push (hiByte ret)).push (loByte ret) with pc := w }

/-- RTS: the pulled address plus 1 (R271). -/
def execRts (s : State) : Result :=
  let r := s.pullWord
  .next { r.st with pc := r.val + 1#16 }

end Sys2Proof.Machine
end

