-- ==== Sys2Proof/Machine/ShiftCompare.lean ====
section
/-! DEFINITION. Shifts, rotates, compares and BIT (43_shift_compare_bit.md R240 to R248). -/

namespace Sys2Proof.Machine

/-- A shift of A or of a byte of memory, `f` the shift given the byte and the old carry (R240 to R243). -/
def shiftPlace (f : Byte → Bool → ShiftOut) (o : Place) (s : State) : State :=
  match o with
  | .acc =>
    let r := f s.a (getFlag s.p .c)
    { s with a := r.r, p := r.flags s.p }
  | .mem o =>
    modifyWith o (fun m t => (f m (getFlag t.p .c)).r) (fun m t => t.setP ((f m (getFlag t.p .c)).flags t.p)) s

/-- ASL (R240). -/
def execAsl (o : Place) (s : State) : Result := .next (shiftPlace (fun m _ => shiftAsl m) o s)

/-- LSR (R241). -/
def execLsr (o : Place) (s : State) : Result := .next (shiftPlace (fun m _ => shiftLsr m) o s)

/-- ROL (R242). -/
def execRol (o : Place) (s : State) : Result := .next (shiftPlace shiftRol o s)

/-- ROR (R243). -/
def execRor (o : Place) (s : State) : Result := .next (shiftPlace shiftRor o s)

/-- CMP (R245). -/
def execCmp (o : Src) (s : State) : Result :=
  let r := operand o s
  .next (r.st.setP (compareP r.st.p r.st.a r.val))

/-- CPX (R246). -/
def execCpx (o : Src) (s : State) : Result :=
  let r := operand o s
  .next (r.st.setP (compareP r.st.p r.st.x r.val))

/-- CPY (R247). -/
def execCpy (o : Src) (s : State) : Result :=
  let r := operand o s
  .next (r.st.setP (compareP r.st.p r.st.y r.val))

/-- P after Z from `A & m` (R248, R341, R342). -/
def testBits (p a m : Byte) : Byte := setFlag p .z (a &&& m == 0#8)

/-- BIT: the immediate form, which only CMOS has, touches Z alone (R248). -/
def execBit (o : Src) (s : State) : Result :=
  match o with
  | .imm m => .next (s.setP (testBits s.p s.a m))
  | .mem o =>
    let r := operandAt o s
    .next (r.st.setP (setFlag (setFlag (testBits r.st.p r.st.a r.val) .n (r.val.getLsbD 7)) .v (r.val.getLsbD 6)))

end Sys2Proof.Machine
end

