-- ==== Sys2Proof/Machine/Cmos.lean ====
section
/-! DEFINITION. The 65C02 instructions (47_cmos.md R341 to R354). -/

namespace Sys2Proof.Machine

/-- TSB: Z from the AND before the set (R341). -/
def execTsb (o : Addr) (s : State) : Result :=
  .next (modifyWith o (fun m t => m ||| t.a) (fun m t => t.setP (testBits t.p t.a m)) s)

/-- TRB: Z from the AND before the reset (R342). -/
def execTrb (o : Addr) (s : State) : Result :=
  .next (modifyWith o (fun m t => m &&& ~~~t.a) (fun m t => t.setP (testBits t.p t.a m)) s)

/-- STZ (R343). -/
def execStz (o : Addr) (s : State) : Result := .next (storeWith o (fun _ _ => 0x00#8) s)

/-- BRA (R344). -/
def execBra (rr : Byte) (s : State) : Result := .next (s.branch true (s.branchTarget rr))

/-- PHX (R345). -/
def execPhx (s : State) : Result := .next (s.push s.x)

/-- PLX (R346). -/
def execPlx (s : State) : Result :=
  let r := s.pull
  .next (r.st.loadX r.val)

/-- PHY (R347). -/
def execPhy (s : State) : Result := .next (s.push s.y)

/-- PLY (R348). -/
def execPly (s : State) : Result :=
  let r := s.pull
  .next (r.st.loadY r.val)

/-- The byte with bit `b` alone set, `1 << b` (R349). -/
def bitMask (b : Fin 8) : Byte := 1#8 <<< b.val

/-- RMB (R349). -/
def execRmb (b : Fin 8) (z : Byte) (s : State) : Result :=
  .next (modifyWith (.zp z) (fun m _ => m &&& ~~~bitMask b) (fun _ t => t) s)

/-- SMB (R350). -/
def execSmb (b : Fin 8) (z : Byte) (s : State) : Result :=
  .next (modifyWith (.zp z) (fun m _ => m ||| bitMask b) (fun _ t => t) s)

/-- BBR: branch when the bit is 0 (R351, R166). -/
def execBbr (b : Fin 8) (z rr : Byte) (s : State) : Result :=
  let r := s.memRead (zext16 z)
  .next (r.st.branch (!r.val.getLsbD b.val) (s.branchTarget rr))

/-- BBS: branch when the bit is 1 (R352, R166). -/
def execBbs (b : Fin 8) (z rr : Byte) (s : State) : Result :=
  let r := s.memRead (zext16 z)
  .next (r.st.branch (r.val.getLsbD b.val) (s.branchTarget rr))

/-- INA (R353). -/
def execIna (s : State) : Result := .next (s.loadA (s.a + 1#8))

/-- DEA (R354). -/
def execDea (s : State) : Result := .next (s.loadA (s.a - 1#8))

end Sys2Proof.Machine
end

