-- ==== Sys2Proof/Machine/LoadStore.lean ====
section
/-! DEFINITION. Logic, loads, stores, transfers, increments and decrements (42_logic_load_store.md R210 to R230). -/

namespace Sys2Proof.Machine

/-- AND (R210). -/
def execAnd (o : Src) (s : State) : Result :=
  let r := operand o s
  .next (r.st.loadA (r.st.a &&& r.val))

/-- ORA (R211). -/
def execOra (o : Src) (s : State) : Result :=
  let r := operand o s
  .next (r.st.loadA (r.st.a ||| r.val))

/-- EOR (R212). -/
def execEor (o : Src) (s : State) : Result :=
  let r := operand o s
  .next (r.st.loadA (r.st.a ^^^ r.val))

/-- LDA (R213). -/
def execLda (o : Src) (s : State) : Result :=
  let r := operand o s
  .next (r.st.loadA r.val)

/-- LDX (R214). -/
def execLdx (o : Src) (s : State) : Result :=
  let r := operand o s
  .next (r.st.loadX r.val)

/-- LDY (R215). -/
def execLdy (o : Src) (s : State) : Result :=
  let r := operand o s
  .next (r.st.loadY r.val)

/-- STA (R216). -/
def execSta (o : Addr) (s : State) : Result := .next (storeWith o (fun _ t => t.a) s)

/-- STX (R217). -/
def execStx (o : Addr) (s : State) : Result := .next (storeWith o (fun _ t => t.x) s)

/-- STY (R218). -/
def execSty (o : Addr) (s : State) : Result := .next (storeWith o (fun _ t => t.y) s)

/-- TAX (R219). -/
def execTax (s : State) : Result := .next (s.loadX s.a)

/-- TAY (R220). -/
def execTay (s : State) : Result := .next (s.loadY s.a)

/-- TXA (R221). -/
def execTxa (s : State) : Result := .next (s.loadA s.x)

/-- TYA (R222). -/
def execTya (s : State) : Result := .next (s.loadA s.y)

/-- TSX (R223). -/
def execTsx (s : State) : Result := .next (s.loadX s.sp)

/-- TXS: sets no flag (R224). -/
def execTxs (s : State) : Result := .next { s with sp := s.x }

/-- INC (R225). -/
def execInc (o : Addr) (s : State) : Result :=
  .next (modifyWith o (fun m _ => m + 1#8) (fun m t => t.setP (setNZ t.p (m + 1#8))) s)

/-- DEC (R226). -/
def execDec (o : Addr) (s : State) : Result :=
  .next (modifyWith o (fun m _ => m - 1#8) (fun m t => t.setP (setNZ t.p (m - 1#8))) s)

/-- INX (R227). -/
def execInx (s : State) : Result := .next (s.loadX (s.x + 1#8))

/-- INY (R228). -/
def execIny (s : State) : Result := .next (s.loadY (s.y + 1#8))

/-- DEX (R229). -/
def execDex (s : State) : Result := .next (s.loadX (s.x - 1#8))

/-- DEY (R230). -/
def execDey (s : State) : Result := .next (s.loadY (s.y - 1#8))

end Sys2Proof.Machine
end

