-- ==== Sys2Proof/Machine/Nop.lean ====
section
/-! DEFINITION. NOPs, JAM slots and CMOS undefined slots (48_nop.md R370 to R373). The operand bytes are fetched before; a page
cross of an abs,X NOP is charged by the step (R371). -/

namespace Sys2Proof.Machine

/-- NOP, documented and unofficial: no other effect, no data read (R370, R371, D20). -/
def execNop (_op : Byte) (_o : Pad) (s : State) : Result := .next s

/-- JAM: a one-byte NOP, or the halted state, as `JAM_POLICY` says (R372, D6). -/
def execJam (_op : Byte) (s : State) : Result :=
  match s.cfg.jamPolicy with
  | .nop => .next s
  | .halt => .next { s with halted := true }

/-- A CMOS slot with no instruction: a NOP of its own length and cycles (R373, D5). -/
def execUndef (_op : Byte) (_o : Pad) (s : State) : Result := .next s

end Sys2Proof.Machine
end

