-- ==== Sys2Proof/Machine/Stack.lean ====
section
/-! DEFINITION. Stack, flag and software-interrupt instructions (45_stack_flags_interrupt.md R281 to R293). -/

namespace Sys2Proof.Machine

/-- PHA (R281). -/
def execPha (s : State) : Result := .next (s.push s.a)

/-- PHP: B and U forced to 1 in the pushed byte (R282). -/
def execPhp (s : State) : Result := .next (s.push (pushedBySoftware s.p))

/-- PLA (R283). -/
def execPla (s : State) : Result :=
  let r := s.pull
  .next (r.st.loadA r.val)

/-- PLP, with the deferral when I goes from 1 to 0 (R284, R280). -/
def execPlp (s : State) : Result := .next (s.pullP.armDeferral (getFlag s.p .i))

/-- RTI (R285). -/
def execRti (s : State) : Result := .next s.returnFromHandler

/-- BRK (R286). -/
def execBrk (s : State) : Result := .next s.softwareInterrupt

/-- CLC (R287). -/
def execClc (s : State) : Result := .next (s.setP (setFlag s.p .c false))

/-- SEC (R288). -/
def execSec (s : State) : Result := .next (s.setP (setFlag s.p .c true))

/-- CLI, with the deferral when I was 1 (R289, R280). -/
def execCli (s : State) : Result := .next ((s.setP (setFlag s.p .i false)).armDeferral (getFlag s.p .i))

/-- SEI (R290). -/
def execSei (s : State) : Result := .next (s.setP (setFlag s.p .i true))

/-- CLV (R291). -/
def execClv (s : State) : Result := .next (s.setP (setFlag s.p .v false))

/-- CLD (R292). -/
def execCld (s : State) : Result := .next (s.setP (setFlag s.p .d false))

/-- SED (R293). -/
def execSed (s : State) : Result := .next (s.setP (setFlag s.p .d true))

end Sys2Proof.Machine
end

