-- ==== Sys2Proof/Machine/Undocumented.lean ====
section
/-! DEFINITION. The undocumented NMOS opcodes (46_undocumented.md R310 to R331). -/

namespace Sys2Proof.Machine

/-- SLO: ASL memory, then OR into A (R312). -/
def execSlo (o : Addr) (s : State) : Result :=
  .next (modifyWith o (fun m _ => (shiftAsl m).r)
    (fun m t => (t.setP (setFlag t.p .c (shiftAsl m).c)).loadA (t.a ||| (shiftAsl m).r)) s)

/-- RLA: ROL memory, then AND into A (R313). -/
def execRla (o : Addr) (s : State) : Result :=
  .next (modifyWith o (fun m t => (shiftRol m (getFlag t.p .c)).r)
    (fun m t =>
      let r := shiftRol m (getFlag t.p .c)
      (t.setP (setFlag t.p .c r.c)).loadA (t.a &&& r.r)) s)

/-- SRE: LSR memory, then exclusive OR into A (R314). -/
def execSre (o : Addr) (s : State) : Result :=
  .next (modifyWith o (fun m _ => (shiftLsr m).r)
    (fun m t => (t.setP (setFlag t.p .c (shiftLsr m).c)).loadA (t.a ^^^ (shiftLsr m).r)) s)

/-- RRA: ROR memory, then ADC with the carry of the rotate (R315). -/
def execRra (o : Addr) (s : State) : Result :=
  .next (modifyWith o (fun m t => (shiftRor m (getFlag t.p .c)).r)
    (fun m t =>
      let r := shiftRor m (getFlag t.p .c)
      (t.setP (setFlag t.p .c r.c)).addToA r.r) s)

/-- SAX: store A AND X (R316). -/
def execSax (o : Addr) (s : State) : Result := .next (storeWith o (fun _ t => t.a &&& t.x) s)

/-- LAX: load A and X (R317). -/
def execLax (o : Addr) (s : State) : Result :=
  let r := operandAt o s
  .next { r.st.loadA r.val with x := r.val }

/-- DCP: DEC memory, then CMP (R318). -/
def execDcp (o : Addr) (s : State) : Result :=
  .next (modifyWith o (fun m _ => m - 1#8) (fun m t => t.setP (compareP t.p t.a (m - 1#8))) s)

/-- ISC: INC memory, then SBC (R319). -/
def execIsc (o : Addr) (s : State) : Result :=
  .next (modifyWith o (fun m _ => m + 1#8) (fun m t => t.subFromA (m + 1#8)) s)

/-- ANC: AND, then C from bit 7 of the result; both opcodes alike (R320). -/
def execAnc (_op : Byte) (m : Byte) (s : State) : Result :=
  let t := s.loadA (s.a &&& m)
  .next (t.setP (setFlag t.p .c (t.a.getLsbD 7)))

/-- ALR: AND, then LSR A (R321). -/
def execAlr (m : Byte) (s : State) : Result :=
  let r := shiftLsr (s.a &&& m)
  .next ((s.setP (setFlag s.p .c r.c)).loadA r.r)

/-- ARR: AND, then ROR A with flags of its own (R322). -/
def execArr (m : Byte) (s : State) : Result :=
  let t := s.a &&& m
  let c := getFlag s.p .c
  let o := if arrIsDecimal s.cfg (getFlag s.p .d) then arrDecimalForm t c else arrBinary t c
  .next { s with a := o.r, p := o.flags s.p }

/-- SBX: A AND X minus the immediate into X, flags as a compare (R323). -/
def execSbx (m : Byte) (s : State) : Result :=
  let t := s.a &&& s.x
  .next { s with x := t - m, p := compareP s.p t m }

/-- ANE: `(A | MAGIC) & X & m` (R324, D25). -/
def execAne (m : Byte) (s : State) : Result := .next (s.loadA ((s.a ||| s.cfg.magic) &&& s.x &&& m))

/-- LXA: `(A | MAGIC) & m` into A and X (R325, D25). -/
def execLxa (m : Byte) (s : State) : Result :=
  let v := (s.a ||| s.cfg.magic) &&& m
  .next { s.loadA v with x := v }

/-- LAS: memory AND S into A, X and S (R326). -/
def execLas (o : Addr) (s : State) : Result :=
  let r := operandAt o s
  let v := r.val &&& r.st.sp
  .next { r.st.loadA v with x := v, sp := v }

/-- TAS: S from A AND X, then store S AND HPlus1 (R327, R311). -/
def execTas (o : Addr) (s : State) : Result :=
  .next (storeWith o (fun e t => t.sp &&& e.hPlus1) { s with sp := s.a &&& s.x })

/-- SHY: store Y AND HPlus1 (R328, R311). -/
def execShy (o : Addr) (s : State) : Result := .next (storeWith o (fun e t => t.y &&& e.hPlus1) s)

/-- SHX: store X AND HPlus1 (R329, R311). -/
def execShx (o : Addr) (s : State) : Result := .next (storeWith o (fun e t => t.x &&& e.hPlus1) s)

/-- SHA: store A AND X AND HPlus1 (R330, R311). -/
def execSha (o : Addr) (s : State) : Result := .next (storeWith o (fun e t => t.a &&& t.x &&& e.hPlus1) s)

/-- USBC: SBC immediate (R331). -/
def execUsbc (m : Byte) (s : State) : Result := .next (subtractOperand (.imm m) s)

end Sys2Proof.Machine
end

