-- ==== Sys2Proof/Machine/Dispatch.lean ====
section
/-! DEFINITION. Execute(variant, op, EA) of 60_exceptions.md R400 step 5: one arm per instruction, each one call of its
meaning. -/

namespace Sys2Proof.Machine

def exec (i : Instr) (s : State) : Host.Outcome State Fault Refusal :=
  match i with
  -- arithmetic (41_arithmetic.md)
  | .adc o => Sys2Proof.Machine.execAdc o s
  | .sbc o => Sys2Proof.Machine.execSbc o s
  -- logic, load, store, transfer, increment, decrement (42_logic_load_store.md)
  | .and o => Sys2Proof.Machine.execAnd o s
  | .ora o => Sys2Proof.Machine.execOra o s
  | .eor o => Sys2Proof.Machine.execEor o s
  | .lda o => Sys2Proof.Machine.execLda o s
  | .ldx o => Sys2Proof.Machine.execLdx o s
  | .ldy o => Sys2Proof.Machine.execLdy o s
  | .sta o => Sys2Proof.Machine.execSta o s
  | .stx o => Sys2Proof.Machine.execStx o s
  | .sty o => Sys2Proof.Machine.execSty o s
  | .tax => Sys2Proof.Machine.execTax s
  | .tay => Sys2Proof.Machine.execTay s
  | .txa => Sys2Proof.Machine.execTxa s
  | .tya => Sys2Proof.Machine.execTya s
  | .tsx => Sys2Proof.Machine.execTsx s
  | .txs => Sys2Proof.Machine.execTxs s
  | .inc o => Sys2Proof.Machine.execInc o s
  | .dec o => Sys2Proof.Machine.execDec o s
  | .inx => Sys2Proof.Machine.execInx s
  | .iny => Sys2Proof.Machine.execIny s
  | .dex => Sys2Proof.Machine.execDex s
  | .dey => Sys2Proof.Machine.execDey s
  -- shifts, compares, BIT (43_shift_compare_bit.md)
  | .asl o => Sys2Proof.Machine.execAsl o s
  | .lsr o => Sys2Proof.Machine.execLsr o s
  | .rol o => Sys2Proof.Machine.execRol o s
  | .ror o => Sys2Proof.Machine.execRor o s
  | .cmp o => Sys2Proof.Machine.execCmp o s
  | .cpx o => Sys2Proof.Machine.execCpx o s
  | .cpy o => Sys2Proof.Machine.execCpy o s
  | .bit o => Sys2Proof.Machine.execBit o s
  -- branches, jumps, subroutines (44_branch_jump.md)
  | .bpl rr => Sys2Proof.Machine.execBpl rr s
  | .bmi rr => Sys2Proof.Machine.execBmi rr s
  | .bvc rr => Sys2Proof.Machine.execBvc rr s
  | .bvs rr => Sys2Proof.Machine.execBvs rr s
  | .bcc rr => Sys2Proof.Machine.execBcc rr s
  | .bcs rr => Sys2Proof.Machine.execBcs rr s
  | .bne rr => Sys2Proof.Machine.execBne rr s
  | .beq rr => Sys2Proof.Machine.execBeq rr s
  | .jmp o => Sys2Proof.Machine.execJmp o s
  | .jsr w => Sys2Proof.Machine.execJsr w s
  | .rts => Sys2Proof.Machine.execRts s
  -- stack, flags, software interrupt (45_stack_flags_interrupt.md)
  | .pha => Sys2Proof.Machine.execPha s
  | .php => Sys2Proof.Machine.execPhp s
  | .pla => Sys2Proof.Machine.execPla s
  | .plp => Sys2Proof.Machine.execPlp s
  | .rti => Sys2Proof.Machine.execRti s
  | .brk => Sys2Proof.Machine.execBrk s
  | .clc => Sys2Proof.Machine.execClc s
  | .sec => Sys2Proof.Machine.execSec s
  | .cli => Sys2Proof.Machine.execCli s
  | .sei => Sys2Proof.Machine.execSei s
  | .clv => Sys2Proof.Machine.execClv s
  | .cld => Sys2Proof.Machine.execCld s
  | .sed => Sys2Proof.Machine.execSed s
  -- undocumented NMOS opcodes (46_undocumented.md)
  | .slo o => Sys2Proof.Machine.execSlo o s
  | .rla o => Sys2Proof.Machine.execRla o s
  | .sre o => Sys2Proof.Machine.execSre o s
  | .rra o => Sys2Proof.Machine.execRra o s
  | .sax o => Sys2Proof.Machine.execSax o s
  | .lax o => Sys2Proof.Machine.execLax o s
  | .dcp o => Sys2Proof.Machine.execDcp o s
  | .isc o => Sys2Proof.Machine.execIsc o s
  | .anc op m => Sys2Proof.Machine.execAnc op m s
  | .alr m => Sys2Proof.Machine.execAlr m s
  | .arr m => Sys2Proof.Machine.execArr m s
  | .sbx m => Sys2Proof.Machine.execSbx m s
  | .ane m => Sys2Proof.Machine.execAne m s
  | .lxa m => Sys2Proof.Machine.execLxa m s
  | .las o => Sys2Proof.Machine.execLas o s
  | .tas o => Sys2Proof.Machine.execTas o s
  | .shy o => Sys2Proof.Machine.execShy o s
  | .shx o => Sys2Proof.Machine.execShx o s
  | .sha o => Sys2Proof.Machine.execSha o s
  | .usbc m => Sys2Proof.Machine.execUsbc m s
  -- 65C02 instructions (47_cmos.md)
  | .tsb o => Sys2Proof.Machine.execTsb o s
  | .trb o => Sys2Proof.Machine.execTrb o s
  | .stz o => Sys2Proof.Machine.execStz o s
  | .bra rr => Sys2Proof.Machine.execBra rr s
  | .phx => Sys2Proof.Machine.execPhx s
  | .plx => Sys2Proof.Machine.execPlx s
  | .phy => Sys2Proof.Machine.execPhy s
  | .ply => Sys2Proof.Machine.execPly s
  | .rmb b z => Sys2Proof.Machine.execRmb b z s
  | .smb b z => Sys2Proof.Machine.execSmb b z s
  | .bbr b z rr => Sys2Proof.Machine.execBbr b z rr s
  | .bbs b z rr => Sys2Proof.Machine.execBbs b z rr s
  | .ina => Sys2Proof.Machine.execIna s
  | .dea => Sys2Proof.Machine.execDea s
  -- NOPs, JAM slots, CMOS undefined slots (48_nop.md)
  | .nop op o => Sys2Proof.Machine.execNop op o s
  | .jam op => Sys2Proof.Machine.execJam op s
  | .undef op o => Sys2Proof.Machine.execUndef op o s

end Sys2Proof.Machine
end

