-- ==== Sys2Proof/Machine/Cycles.lean ====
section
/-! DEFINITION. Cycle counts (70_reset_and_hazards.md R474 to R476): the base tables of R475, row the high nibble of the opcode,
column the low nibble, and the page-cross penalty. -/

namespace Sys2Proof.Machine

/-- The NMOS-family base counts (R475). -/
def nmosCycles : Vector (Vector Nat 16) 16 := #v[
  #v[7, 6, 2, 8, 3, 3, 5, 5, 3, 2, 2, 2, 4, 4, 6, 6],
  #v[2, 5, 2, 8, 4, 4, 6, 6, 2, 4, 2, 7, 4, 4, 7, 7],
  #v[6, 6, 2, 8, 3, 3, 5, 5, 4, 2, 2, 2, 4, 4, 6, 6],
  #v[2, 5, 2, 8, 4, 4, 6, 6, 2, 4, 2, 7, 4, 4, 7, 7],
  #v[6, 6, 2, 8, 3, 3, 5, 5, 3, 2, 2, 2, 3, 4, 6, 6],
  #v[2, 5, 2, 8, 4, 4, 6, 6, 2, 4, 2, 7, 4, 4, 7, 7],
  #v[6, 6, 2, 8, 3, 3, 5, 5, 4, 2, 2, 2, 5, 4, 6, 6],
  #v[2, 5, 2, 8, 4, 4, 6, 6, 2, 4, 2, 7, 4, 4, 7, 7],
  #v[2, 6, 2, 6, 3, 3, 3, 3, 2, 2, 2, 2, 4, 4, 4, 4],
  #v[2, 6, 2, 6, 4, 4, 4, 4, 2, 5, 2, 5, 5, 5, 5, 5],
  #v[2, 6, 2, 6, 3, 3, 3, 3, 2, 2, 2, 2, 4, 4, 4, 4],
  #v[2, 5, 2, 5, 4, 4, 4, 4, 2, 4, 2, 4, 4, 4, 4, 4],
  #v[2, 6, 2, 8, 3, 3, 5, 5, 2, 2, 2, 2, 4, 4, 6, 6],
  #v[2, 5, 2, 8, 4, 4, 6, 6, 2, 4, 2, 7, 4, 4, 7, 7],
  #v[2, 6, 2, 8, 3, 3, 5, 5, 2, 2, 2, 2, 4, 4, 6, 6],
  #v[2, 5, 2, 8, 4, 4, 6, 6, 2, 4, 2, 7, 4, 4, 7, 7]]

/-- The CMOS base counts (R475). -/
def cmosCycles : Vector (Vector Nat 16) 16 := #v[
  #v[7, 6, 2, 1, 5, 3, 5, 5, 3, 2, 2, 1, 6, 4, 6, 5],
  #v[2, 5, 5, 1, 5, 4, 6, 5, 2, 4, 2, 1, 6, 4, 7, 5],
  #v[6, 6, 2, 1, 3, 3, 5, 5, 4, 2, 2, 1, 4, 4, 6, 5],
  #v[2, 5, 5, 1, 4, 4, 6, 5, 2, 4, 2, 1, 4, 4, 7, 5],
  #v[6, 6, 2, 1, 3, 3, 5, 5, 3, 2, 2, 1, 3, 4, 6, 5],
  #v[2, 5, 5, 1, 4, 4, 6, 5, 2, 4, 3, 1, 8, 4, 7, 5],
  #v[6, 6, 2, 1, 3, 3, 5, 5, 4, 2, 2, 1, 6, 4, 6, 5],
  #v[2, 5, 5, 1, 4, 4, 6, 5, 2, 4, 4, 1, 6, 4, 7, 5],
  #v[2, 6, 2, 1, 3, 3, 3, 5, 2, 2, 2, 1, 4, 4, 4, 5],
  #v[2, 6, 5, 1, 4, 4, 4, 5, 2, 5, 2, 1, 4, 5, 5, 5],
  #v[2, 6, 2, 1, 3, 3, 3, 5, 2, 2, 2, 1, 4, 4, 4, 5],
  #v[2, 5, 5, 1, 4, 4, 4, 5, 2, 4, 2, 1, 4, 4, 4, 5],
  #v[2, 6, 2, 1, 3, 3, 5, 5, 2, 2, 2, 1, 4, 4, 6, 5],
  #v[2, 5, 5, 1, 4, 4, 6, 5, 2, 4, 3, 1, 4, 4, 7, 5],
  #v[2, 6, 2, 1, 3, 3, 5, 5, 2, 2, 2, 1, 4, 4, 6, 5],
  #v[2, 5, 5, 1, 4, 4, 6, 5, 2, 4, 4, 1, 4, 4, 7, 5]]

/-- The default base count of an opcode: the NMOS table for NMOS, NES2A03 and M6510, the CMOS table for CMOS (R475). -/
def defaultCycles (v : Variant) (op : Byte) : Nat :=
  ((if v.isCmos then cmosCycles else nmosCycles).get ⟨op.toNat / 16, by omega⟩).get ⟨op.toNat % 16, by omega⟩

/-- `CYCLES(variant, op)`: the parameter, with the tables as its default (R475, D7; log 7). -/
def baseCycles (cfg : Config) (op : Byte) : Nat :=
  (cfg.cycleOverrides.lookup op.toNat).getD (defaultCycles cfg.variant op)

/-- `PagePenalty(variant, op)`: abs,X and abs,Y with base count 4, (zp),Y with base count 5 (R476). -/
def pagePenalty (cfg : Config) (op : Byte) : Bool :=
  match modeOf cfg.variant op with
  | .abx | .aby => decide (baseCycles cfg op = 4)
  | .izy => decide (baseCycles cfg op = 5)
  | .imp | .acc | .imm | .zp | .zpx | .zpy | .abs | .ind | .izx | .rel | .izp | .iax | .zpr => false

/-- `crossed`, the resolver's answer for the fetched mode and operand bytes: it exists for abx, aby and izy only (R167;
log 10). -/
def crossedBy (m : Mode) (b1 b2 : Byte) (s : State) : Bool :=
  match m with
  | .abx => (resolve (.abx (wordOf b2 b1)) s).val.crossed
  | .aby => (resolve (.aby (wordOf b2 b1)) s).val.crossed
  | .izy => (resolve (.izy b1) s).val.crossed
  | .imp | .acc | .imm | .zp | .zpx | .zpy | .abs | .ind | .izx | .rel | .izp | .iax | .zpr => false

/-- What step 6 of R400 charges: the base count, and one cycle for a page cross where the opcode takes the penalty. -/
def chargedCycles (cfg : Config) (op : Byte) (crossed : Bool) : Nat :=
  baseCycles cfg op + (if crossed && pagePenalty cfg op then 1 else 0)

end Sys2Proof.Machine
end

