-- ==== Sys2Proof/Machine/Fetch.lean ====
section
/-! DEFINITION. Fetching an instruction's bytes (60_exceptions.md R400 step 5), what a step does before and after it, and placing
an instruction where the next step fetches it (log 11, 12). -/

namespace Sys2Proof.Machine

/-- The start of a step: the step's cycle counter and event log are empty (R400 step 1; log 8). -/
def State.beginStep (s : State) : State := { s with clockticks := 0, busLog := [] }

/-- PPC takes PC right after the opcode fetch (R39, R400 step 5, C1). -/
def State.recordPpc (s : State) : State := { s with ppc := s.pc, ppcWritten := true }

/-- The profiling counters, where they are present: one more of this opcode (R431; log 16). -/
def State.countOpcode (s : State) (op : Byte) : State :=
  if s.cfg.profiling then
    { s with profile := Cells.set 0 s.profile op.toNat (Cells.get 0 s.profile op.toNat + 1) }
  else s

/-- An instruction's bytes, and the state after fetching them; a byte the length leaves out is 0. -/
structure Fetched where
  op : Byte
  b1 : Byte
  b2 : Byte
  st : State
deriving Repr

/-- The opcode fetched, PPC recorded and the opcode counted (R400 step 5). -/
def State.fetchOpcode (s : State) : Got Byte :=
  let o := s.fetchByte
  ⟨o.val, o.st.recordPpc.countOpcode o.val⟩

/-- The opcode and as many operand bytes as its length has, in order (R400 step 5, R111, R150). -/
def State.fetchInstr (s : State) : Fetched :=
  let o := s.fetchOpcode
  match lengthOf s.cfg.variant o.val with
  | 1 => { op := o.val, b1 := 0#8, b2 := 0#8, st := o.st }
  | 2 =>
    let r1 := o.st.fetchByte
    { op := o.val, b1 := r1.val, b2 := 0#8, st := r1.st }
  | _ =>
    let r1 := o.st.fetchByte
    let r2 := r1.st.fetchByte
    { op := o.val, b1 := r1.val, b2 := r2.val, st := r2.st }

/-- The instruction the fetched bytes decode to (R114). -/
def Fetched.instr (f : Fetched) : Instr := decodeAt f.st.cfg.variant f.op f.b1 f.b2

/-- Whether the resolver reports a page cross for the fetched instruction (R150). -/
def Fetched.crossed (f : Fetched) : Bool := crossedBy (modeOf f.st.cfg.variant f.op) f.b1 f.b2 f.st

/-- The end of an instruction step: charge, account, count the deferral down (R400 steps 6 and 7). -/
def State.finishInstr (s : State) (op : Byte) (crossed : Bool) : State :=
  (s.addCycles (chargedCycles s.cfg op crossed)).account.decInhibit

/-! ## Placing an instruction (log 11, 12) -/

/-- The three bus addresses a fetch at PC can reach. -/
def State.fetchWindow (s : State) : List Nat :=
  [s.busAddr s.pc, s.busAddr (s.pc + 1#16), s.busAddr (s.pc + 2#16)]

/-- The variant under which a row's number is that row: the state's own where it decodes the bytes alike. -/
def State.variantFor (s : State) (nbits w : Nat) : Variant :=
  let v := tableVariant nbits w
  let instrOn (u : Variant) : Instr := decodeAt u (tableByte w 0) (tableByte w 1) (tableByte w 2)
  let u := if instrOn s.cfg.variant = instrOn v then s.cfg.variant else v
  if u = .m6510 ∧ s.fetchWindow.any (· < 2) then .nmos else u

/-- A bus on which the fetch window is plain memory: the state's own where it already is. -/
def State.busFor (s : State) : BusMap :=
  if s.fetchWindow.all (fun b => readRoute s.cfg.bus b = .backing) then s.cfg.bus else { strict := false, ranges := [] }

/-- The state whose very next step fetches and runs the instruction of a table row's number. -/
def State.placeInstr (s : State) (nbits w : Nat) : State :=
  { s with
    cfg := { s.cfg with variant := s.variantFor nbits w, bus := s.busFor }
    hasReset := true
    halted := false
    nmiPending := false
    irqPending := s.irqPending && !s.irqRecognised
    mem := ((s.mem.write (s.busAddr (s.pc + 2#16)) (tableByte w 2)).write (s.busAddr (s.pc + 1#16)) (tableByte w 1)).write
      (s.busAddr s.pc) (tableByte w 0) }

end Sys2Proof.Machine
end

