-- ==== Sys2Proof/Machine/Run.lean ====
section
/-! DEFINITION. What a step does: an interrupt dispatch, or one instruction fetched, decoded, executed and finished
(60_exceptions.md R400). -/

namespace Sys2Proof.Machine

/-- The instruction at PC: fetched, run, then charged and accounted (R400 steps 5 to 8). -/
def runInstr (s : State) : Result :=
  let f := s.fetchInstr
  match exec f.instr f.st with
  | .next t => .next (t.finishInstr f.op f.crossed)
  | .fault r => .fault r
  | .refused r => .refused r

/-- The body of `step()` (R400): refused before the first reset; nothing while halted; a pending NMI first, then a recognised
IRQ, else the instruction at PC (R407; log 14). -/
def runStep (s : State) : Result :=
  if s.hasReset = false then .refused .notReset
  else if s.halted then .next s.beginStep
  else if s.nmiPending then .next s.beginStep.nmiStep
  else if s.irqRecognised then .next s.beginStep.irqStep
  else runInstr s.beginStep

end Sys2Proof.Machine
end

