-- ==== Sys2Proof/Machine/Step.lean ====
section
/-! DEFINITION. `step()`: exactly one interrupt dispatch or exactly one instruction (60_exceptions.md R400, R407). Its cycle
count, which `step` of the spec returns, is the next state's `clockticks`. -/

namespace Sys2Proof.Machine

/-- `step()` (R400). -/
def step (s : State) : Host.Outcome State Fault Refusal := runStep s

/-- The state with the instruction of a table row's number stored where the next step fetches (log 11, 12). -/
def State.withFetchWord (s : State) (nbits w : Nat) : State := s.placeInstr nbits w

end Sys2Proof.Machine
end

