-- ==== Sys2Proof/Machine/HostCalls.lean ====
section
/-! DEFINITION. The host interface (60_exceptions.md R401, R420 to R431; 70_reset_and_hazards.md R450; 30_encoding.md R121). These
calls act between steps; no step contains one (R87; log 13). A read the spec refuses answers a refusal. -/

namespace Sys2Proof.Machine

/-- Construction on a bus with the given memory: registers hold free values, unreadable until reset (R426, R52, R53; log 5). -/
def State.construct (cfg : Config) (mem : Memory) : State where
  cfg := cfg
  a := Config.powerOnByte 0
  x := Config.powerOnByte 1
  y := Config.powerOnByte 2
  sp := Config.powerOnByte 3
  p := Config.powerOnByte 4
  pc := Config.powerOnWord 0
  ppc := Config.powerOnWord 1
  ppcWritten := false
  clockticks := 0
  clocktickstotal := 0
  irqPending := false
  irqMode := .pulse
  inhibit := 0
  nmiPending := false
  portDdr := 0x00#8
  portLatch := 0x00#8
  portPins := 0xFF#8
  portCallback := false
  hasReset := false
  halted := false
  mem := mem
  profile := []
  oracle := 0
  busLog := []

/-- The port after reset, on M6510 only: all-input, latch 0, pins high; no callback (R450). -/
def State.resetPort (s : State) : State :=
  if s.cfg.variant = .m6510 then { s with portDdr := 0x00#8, portLatch := 0x00#8, portPins := 0xFF#8 } else s

/-- `reset()` (R450, R427): its only bus accesses are the two vector reads; the 6 it returns is `clockticks`. -/
def State.hostReset (s : State) : State :=
  let s1 := { s with
    a := 0x00#8
    x := 0x00#8
    y := 0x00#8
    p := 0x26#8
    sp := 0xFF#8
    irqPending := false
    nmiPending := false
    inhibit := 0
    halted := false
    clocktickstotal := 0
    busLog := [] }
  { s1.resetPort.jumpVector 0xFFFC#16 with clockticks := 6, hasReset := true }

/-- `assert_irq()` (R420). -/
def State.assertIrq (s : State) : State := { s with irqPending := true }

/-- `set_irq_mode(m)` (R420). -/
def State.setIrqMode (s : State) (m : IrqMode) : State := { s with irqMode := m }

/-- `assert_nmi()` (R420). -/
def State.assertNmi (s : State) : State := { s with nmiPending := true }

/-- `clear_pending_interrupt()` (R420, D11). -/
def State.clearPendingInterrupt (s : State) : State := { s with irqPending := false, nmiPending := false }

/-- The register IDs of the accessors (R421). -/
inductive RegId where
  | a | x | y | p | s
deriving DecidableEq, Repr

/-- A register's content. -/
def State.register (s : State) : RegId → Byte
  | .a => s.a
  | .x => s.x
  | .y => s.y
  | .p => s.p
  | .s => s.sp

/-- `get(r)`: refused before the first reset (R421, R52). -/
def State.getReg (s : State) (r : RegId) : Except Refusal Byte :=
  if s.hasReset then .ok (s.register r) else .error .notReset

/-- `set(r, v)`: verbatim; it never arms the deferral (R421, D32, D34). -/
def State.setReg (s : State) (r : RegId) (v : Byte) : State :=
  match r with
  | .a => { s with a := v }
  | .x => { s with x := v }
  | .y => { s with y := v }
  | .p => { s with p := v }
  | .s => { s with sp := v }

/-- `get_pc()` (R422, R52). -/
def State.getPc (s : State) : Except Refusal Word := if s.hasReset then .ok s.pc else .error .notReset

/-- `set_pc(v)` (R422). -/
def State.setPc (s : State) (v : Word) : State := { s with pc := v }

/-- `get_ppc()`: refused until a fetch has written PPC (R423, R452, I2). -/
def State.getPpc (s : State) : Except Refusal Word :=
  if s.hasReset = false then .error .notReset
  else if s.ppcWritten then .ok s.ppc
  else .error .ppcNotWritten

/-- `get_total(zero)` (R424). -/
def State.getTotal (s : State) (zero : Bool) : Nat × State :=
  (s.clocktickstotal, if zero then { s with clocktickstotal := 0 } else s)

/-- `set_port_pins(v)`, on M6510: never calls the callback (R425). -/
def State.setPortPins (s : State) (v : Byte) : State := { s with portPins := v }

/-- `set_port_callback`: registers the callback or removes it (R425). -/
def State.setPortCallback (s : State) (registered : Bool) : State := { s with portCallback := registered }

/-- The host's reset-counters call of the profiling interface (R431). -/
def State.resetProfile (s : State) : State := { s with profile := [] }

/-- The profiling count of an opcode (R431). -/
def State.profileCount (s : State) (op : Byte) : Nat := Cells.get 0 s.profile op.toNat

/-- The length the disassembler returns for an address; its read of the opcode goes through `MemRead` (R430, R121; log 17). -/
def State.disassembledLength (s : State) (a : Word) : Nat × State :=
  let r := s.memRead a
  (lengthOf s.cfg.variant r.val, r.st)

/-- The loop of `run_for` (R401), with at most `fuel` steps: every step but the last adds at least 1 cycle, so a budget of `n`
cycles takes at most `n` steps (log 18). -/
def runForLoop : Nat → Nat → Nat → State → Host.Outcome (Nat × State) Fault Refusal
  | 0, _, done, s => .next (done, s)
  | fuel + 1, n, done, s =>
    if done < n then
      match step s with
      | .next t => if t.clockticks = 0 then .next (done, t) else runForLoop fuel n (done + t.clockticks) t
      | .fault r => .fault r
      | .refused r => .refused r
    else .next (done, s)

/-- `run_for(n)`: the cycles executed and the state; no step for `n <= 0`; refused before the first reset (R401, R52, I1, D36). -/
def runFor (n : Int) (s : State) : Host.Outcome (Nat × State) Fault Refusal :=
  if s.hasReset then runForLoop n.toNat n.toNat 0 s else .refused .notReset

end Sys2Proof.Machine
end

