-- ==== Sys2Proof/Safety.lean ====
section
/-! DEFINITION. What claims about runs are stated in: the invariant of a running core, what an update leaves alone, and what a
store is allowed to change. -/

namespace Sys2Proof.Machine

/-! ## Reading a state -/

/-- One byte of the memory behind the bus. -/
def State.byteAt (s : State) (b : Nat) : Byte := s.mem.read b

/-- The bus address is plain memory for reads and writes: not the 6510 port, and left to the backing array. -/
def State.isPlain (s : State) (b : Nat) : Prop :=
  s.isPort b = false ∧ readRoute s.cfg.bus b = .backing ∧ writeRoute s.cfg.bus b = .backing

/-- A byte of two valid decimal digits (R194: "not valid BCD (a nibble above 9)"). -/
def isBcd (x : Byte) : Prop := x.toNat % 16 ≤ 9 ∧ x.toNat / 16 ≤ 9

/-- The number two decimal digits stand for. -/
def bcdValue (x : Byte) : Nat := x.toNat / 16 * 10 + x.toNat % 16

/-! ## The invariant of a running core -/

/-- What every step keeps: the core has been reset; memory and counters are in canonical form and inside their ranges; inhibit
is one of 0, 1, 2 (R46); the Unused bit of P is 1 (R36); the running total does not exceed the ceiling (R480); only the `halt`
policy halts (R54). -/
structure Inv (s : State) : Prop where
  hasReset : s.hasReset = true
  memWf : s.mem.wf = true
  memInSpace : ∀ c ∈ s.mem, c.1 < 65536
  profileWf : Cells.wf 0 s.profile = true
  profileInRange : ∀ c ∈ s.profile, c.1 < 256
  inhibit : s.inhibit ≤ 2
  unused : getFlag s.p .u = true
  ceiling : overCeiling s.cfg.cycleCeiling s.clocktickstotal = false
  halted : s.halted = true → s.cfg.jamPolicy = .halt

/-! ## Frames -/

/-- `q` is `p` with exactly the listed flags given the listed values; every other bit is as in `p`. -/
def writesFlags (p q : Byte) (w : List (Flag × Bool)) : Prop :=
  ∀ f : Flag, getFlag q f = (w.lookup f).getD (getFlag p f)

/-- The instructions R35 names as writers of a flag, with the forms the family rules give (BIT immediate writes Z only, R248; BRK
writes D where `BRK_CLEARS_D`, R286). -/
def mayWriteFlag (cfg : Config) (f : Flag) (i : Instr) : Bool :=
  match i, f with
  | .plp, _ | .rti, _ => true
  | .adc _, f | .sbc _, f | .usbc _, f | .rra _, f | .isc _, f | .arr _, f => f == .n || f == .v || f == .z || f == .c
  | .and _, f | .ora _, f | .eor _, f | .lda _, f | .ldx _, f | .ldy _, f | .lax _, f | .las _, f | .ane _, f | .lxa _, f =>
    f == .n || f == .z
  | .tax, f | .tay, f | .txa, f | .tya, f | .tsx, f | .pla, f | .plx, f | .ply, f => f == .n || f == .z
  | .inc _, f | .dec _, f | .inx, f | .iny, f | .dex, f | .dey, f | .ina, f | .dea, f => f == .n || f == .z
  | .asl _, f | .lsr _, f | .rol _, f | .ror _, f | .cmp _, f | .cpx _, f | .cpy _, f => f == .n || f == .z || f == .c
  | .slo _, f | .rla _, f | .sre _, f | .dcp _, f | .anc _ _, f | .alr _, f | .sbx _, f => f == .n || f == .z || f == .c
  | .bit (.mem _), f => f == .n || f == .v || f == .z
  | .bit (.imm _), f | .tsb _, f | .trb _, f => f == .z
  | .clc, f | .sec, f => f == .c
  | .cli, f | .sei, f => f == .i
  | .clv, f => f == .v
  | .cld, f | .sed, f => f == .d
  | .brk, f => f == .i || (f == .d && cfg.brkClearsD)
  | .sta _, _ | .stx _, _ | .sty _, _ | .stz _, _ | .sax _, _ | .shy _, _ | .shx _, _ | .sha _, _ | .tas _, _ => false
  | .txs, _ | .pha, _ | .php, _ | .phx, _ | .phy, _ | .jmp _, _ | .jsr _, _ | .rts, _ => false
  | .bpl _, _ | .bmi _, _ | .bvc _, _ | .bvs _, _ | .bcc _, _ | .bcs _, _ | .bne _, _ | .beq _, _ | .bra _, _ => false
  | .rmb _ _, _ | .smb _ _, _ | .bbr _ _ _, _ | .bbs _ _ _, _ | .nop _ _, _ | .jam _, _ | .undef _ _, _ => false

/-- The N/Z rule for a result (R190): the two flag values. -/
def nz (v : Byte) : List (Flag × Bool) := [(.z, decide (v = 0#8)), (.n, v.getLsbD 7)]

/-- `t` is `s` but for the model's own event log and free-value counter: what bus reads may change. All of memory, every
register, the status register, the ports, the latches and the counters are the same; of a read that a custom handler takes this
is the model's choice (log 3). -/
def sameButReads (s t : State) : Prop := t = { s with busLog := t.busLog, oracle := t.oracle }

/-- `t` is `s` but for memory, the port's two registers, the event log and the free-value counter: what reads and one or more
stores may change. What the stores change of these, `stored` says. -/
def sameButBus (s t : State) : Prop :=
  t = { s with mem := t.mem, portDdr := t.portDdr, portLatch := t.portLatch, busLog := t.busLog, oracle := t.oracle }

/-- What one store of `v` at the 16-bit address `ea` makes of memory and the port (R71, R72, R74): at a port address the named
port register takes it and no byte of memory changes; elsewhere the byte at the masked address is `v`, or unchanged when the
access goes to a custom handler (the model's choice, log 3) or is rejected, and every other byte reads as before. -/
def stored (s t : State) (ea : Word) (v : Byte) : Prop :=
  let b := s.busAddr ea
  (s.isPort b = true →
    t.portDdr = (if b = 0 then v else s.portDdr) ∧ t.portLatch = (if b = 0 then s.portLatch else v) ∧
      ∀ k, t.byteAt k = s.byteAt k) ∧
  (s.isPort b = false →
    t.portDdr = s.portDdr ∧ t.portLatch = s.portLatch ∧
      t.byteAt b = (if writeRoute s.cfg.bus b = .backing then v else s.byteAt b) ∧
      ∀ k, k ≠ b → t.byteAt k = s.byteAt k)

/-- `t` is `s` after pushing `v`: the store at `$0100 + S`, S one less modulo 256, nothing else (R81, R83). -/
def pushed (s t : State) (v : Byte) : Prop :=
  stored s t (stackAddr s.sp) v ∧ ∃ u, sameButBus s u ∧ t = { u with sp := s.sp - 1#8 }

/-- `v` and `t` are what a pull from `s` gives: S one more modulo 256, `v` the byte read at the new `$0100 + S`, nothing else
(R82, R83). -/
def pulled (s : State) (v : Byte) (t : State) : Prop :=
  v = ({ s with sp := s.sp + 1#8 }.memRead (0x0100#16 + zext16 (s.sp + 1#8))).val ∧
    sameButReads { s with sp := s.sp + 1#8 } t

/-! ## Bus events (R80) -/

/-- The event of one core read: none at the 6510 port, which answers before the bus (R73). -/
def readEvents (s : State) (a : Word) : List BusEvent :=
  if s.isPort (s.busAddr a) then [] else [.read (s.busAddr a) (s.memRead a).val]

/-- The event of one core write: the byte at the masked address, whatever takes it there; at the 6510 port the call of the
registered callback, when the effective output changes (R74). -/
def writeEvents (s : State) (a : Word) (v : Byte) : List BusEvent :=
  let b := s.busAddr a
  let before := s.portLatch &&& s.portDdr
  let after := (if b = 0 then s.portLatch else v) &&& (if b = 0 then v else s.portDdr)
  if s.isPort b then (if after ≠ before ∧ s.portCallback = true then [.portCallback after] else []) else [.write b v]

/-- Two reads, the second after the first (R76). -/
def twoReadEvents (s : State) (lo hi : Word) : List BusEvent := readEvents s lo ++ readEvents (s.memRead lo).st hi

/-- The pointer reads of a resolver (R161, R162, R164); the other memory modes make none. -/
def pointerEvents (o : Addr) (s : State) : List BusEvent :=
  match o with
  | .izx z => twoReadEvents s (zext16 (z + s.x)) (zext16 (z + s.x + 1#8))
  | .izy z | .izp z => twoReadEvents s (zext16 z) (zext16 (z + 1#8))
  | .zp _ | .zpx _ | .zpy _ | .abs _ | .abx _ | .aby _ => []

/-- The read class: the pointer, then one read of EA (R168). -/
def loadEvents (o : Addr) (s : State) : List BusEvent :=
  pointerEvents o s ++ readEvents (resolve o s).st (resolve o s).val.ea

/-- The read class with an immediate form, which makes no access after its fetch (R153; log 9). -/
def sourceEvents (o : Src) (s : State) : List BusEvent :=
  match o with
  | .imm _ => []
  | .mem o => loadEvents o s

/-- The write class: the pointer, then one write of EA (R168). -/
def storeEvents (o : Addr) (s : State) (v : Byte) : List BusEvent :=
  pointerEvents o s ++ writeEvents s (resolve o s).val.ea v

/-- The read-modify-write class: the pointer, one read and one write of EA, the byte written given by the byte read (R79). -/
def modifyEvents (o : Addr) (s : State) (f : Byte → Byte) : List BusEvent :=
  loadEvents o s ++ writeEvents s (resolve o s).val.ea (f (operand (.mem o) s).val)

/-- The read-modify-write class of the shifts, whose accumulator form makes no access (R168). -/
def placeEvents (o : Place) (s : State) (f : Byte → Byte) : List BusEvent :=
  match o with
  | .acc => []
  | .mem o => modifyEvents o s f

/-- The pointer reads of JMP (R157, R160, R165). -/
def targetEvents (o : Target) (s : State) : List BusEvent :=
  match o with
  | .abs _ => []
  | .ind w => twoReadEvents s w (if s.cfg.variant = .cmos then w + 1#16 else wordOf (hiByte w) (loByte w + 1#8))
  | .iax w => twoReadEvents s (w + zext16 s.x) (w + zext16 s.x + 1#16)

/-- Two pushes, the second after the first (R81). -/
def twoPushEvents (s : State) (first second : Byte) : List BusEvent :=
  writeEvents s (stackAddr s.sp) first ++ writeEvents (s.memWrite (stackAddr s.sp) first) (stackAddr (s.sp - 1#8)) second

/-- Entering a handler: PCH, PCL and the byte of P pushed, then the vector read (R404, R408). -/
def entryEvents (s : State) (vector : Word) (pp : Byte) : List BusEvent :=
  let u2 := (s.memWrite (stackAddr s.sp) (hiByte s.pc)).memWrite (stackAddr (s.sp - 1#8)) (loByte s.pc)
  twoPushEvents s (hiByte s.pc) (loByte s.pc) ++ writeEvents u2 (stackAddr (s.sp - 2#8)) pp ++
    twoReadEvents (u2.memWrite (stackAddr (s.sp - 2#8)) pp) (s.cfg.addrMask &&& vector) (s.cfg.addrMask &&& (vector + 1#16))

/-- Every bus event of an instruction after its fetch, in order, with every byte (R80 and the instruction's own rule). -/
def instrEvents (i : Instr) (s : State) : List BusEvent :=
  let c := (getFlag s.p .c).toNat
  let left (m : Byte) : Byte := BitVec.ofNat 8 (2 * m.toNat)
  let leftC (m : Byte) : Byte := BitVec.ofNat 8 (2 * m.toNat + c)
  let right (m : Byte) : Byte := BitVec.ofNat 8 (m.toNat / 2)
  let rightC (m : Byte) : Byte := BitVec.ofNat 8 (m.toNat / 2 + 128 * c)
  let up (m : Byte) : Byte := BitVec.ofNat 8 (m.toNat + 1)
  let down (m : Byte) : Byte := BitVec.ofNat 8 (m.toNat + 255)
  let high (o : Addr) : Byte := BitVec.ofNat 8 ((resolve o s).val.base.toNat / 256 + 1)
  match i with
  | .adc o | .sbc o | .and o | .ora o | .eor o | .lda o | .ldx o | .ldy o | .cmp o | .cpx o | .cpy o | .bit o => sourceEvents o s
  | .lax o | .las o => loadEvents o s
  | .sta o => storeEvents o s s.a
  | .stx o => storeEvents o s s.x
  | .sty o => storeEvents o s s.y
  | .stz o => storeEvents o s 0x00#8
  | .sax o => storeEvents o s (s.a &&& s.x)
  | .shy o => storeEvents o s (s.y &&& high o)
  | .shx o => storeEvents o s (s.x &&& high o)
  | .sha o | .tas o => storeEvents o s (s.a &&& s.x &&& high o)
  | .inc o | .isc o => modifyEvents o s up
  | .dec o | .dcp o => modifyEvents o s down
  | .asl o => placeEvents o s left
  | .lsr o => placeEvents o s right
  | .rol o => placeEvents o s leftC
  | .ror o => placeEvents o s rightC
  | .slo o => modifyEvents o s left
  | .sre o => modifyEvents o s right
  | .rla o => modifyEvents o s leftC
  | .rra o => modifyEvents o s rightC
  | .tsb o => modifyEvents o s (· ||| s.a)
  | .trb o => modifyEvents o s (· &&& ~~~s.a)
  | .rmb b z => modifyEvents (.zp z) s (· &&& ~~~(1#8 <<< b.val))
  | .smb b z => modifyEvents (.zp z) s (· ||| 1#8 <<< b.val)
  | .bbr _ z _ | .bbs _ z _ => readEvents s (zext16 z)
  | .jmp o => targetEvents o s
  | .jsr _ => twoPushEvents s (hiByte (s.pc - 1#16)) (loByte (s.pc - 1#16))
  | .rts => twoReadEvents s (stackAddr (s.sp + 1#8)) (stackAddr (s.sp + 2#8))
  | .pha => writeEvents s (stackAddr s.sp) s.a
  | .phx => writeEvents s (stackAddr s.sp) s.x
  | .phy => writeEvents s (stackAddr s.sp) s.y
  | .php => writeEvents s (stackAddr s.sp) (s.p ||| 0x30#8)
  | .pla | .plx | .ply | .plp => readEvents s (stackAddr (s.sp + 1#8))
  | .rti =>
    readEvents s (stackAddr (s.sp + 1#8)) ++
      twoReadEvents (s.memRead (stackAddr (s.sp + 1#8))).st (stackAddr (s.sp + 2#8)) (stackAddr (s.sp + 3#8))
  | .brk => entryEvents { s with pc := s.pc + 1#16 } 0xFFFE#16 (s.p ||| 0x30#8)
  | .tax | .tay | .txa | .tya | .tsx | .txs | .inx | .iny | .dex | .dey | .ina | .dea => []
  | .bpl _ | .bmi _ | .bvc _ | .bvs _ | .bcc _ | .bcs _ | .bne _ | .beq _ | .bra _ => []
  | .clc | .sec | .cli | .sei | .clv | .cld | .sed => []
  | .anc _ _ | .alr _ | .arr _ | .sbx _ | .ane _ | .lxa _ | .usbc _ => []
  | .nop _ _ | .undef _ _ | .jam _ => []

/-- `t` is `s` after BRK, IRQ or NMI entry: PCH, PCL and the byte `pp` pushed in that order, I set and no other flag of P changed,
PC the word at `addr_mask & vector` and `addr_mask & (vector + 1)`, low byte first, nothing else (R404, R408); the bus events
are those of `entryEvents`. -/
def entered (s t : State) (vector : Word) (pp : Byte) : Prop :=
  t.busLog = s.busLog ++ entryEvents s vector pp ∧
  ∃ u1 u2 u3 q, pushed s u1 (hiByte s.pc) ∧ pushed u1 u2 (loByte s.pc) ∧ pushed u2 u3 pp ∧ writesFlags s.p q [(.i, true)] ∧
    ∃ l h : Got Byte, l = ({ u3 with p := q }).memRead (s.cfg.addrMask &&& vector) ∧
      h = l.st.memRead (s.cfg.addrMask &&& (vector + 1#16)) ∧ t = { h.st with pc := wordOf h.val l.val }

/-! ## What the rules say of an instruction's operand and cost -/

/-- The memory operand whose effective address the resolver forms (R150), of a NOP or UNDEF slot too (R371, R373). -/
def memOperand : Instr → Option Addr
  | .adc (.mem o) | .sbc (.mem o) | .and (.mem o) | .ora (.mem o) | .eor (.mem o) | .lda (.mem o) | .ldx (.mem o) => some o
  | .ldy (.mem o) | .cmp (.mem o) | .cpx (.mem o) | .cpy (.mem o) | .bit (.mem o) => some o
  | .adc (.imm _) | .sbc (.imm _) | .and (.imm _) | .ora (.imm _) | .eor (.imm _) | .lda (.imm _) | .ldx (.imm _) => none
  | .ldy (.imm _) | .cmp (.imm _) | .cpx (.imm _) | .cpy (.imm _) | .bit (.imm _) => none
  | .asl (.mem o) | .lsr (.mem o) | .rol (.mem o) | .ror (.mem o) | .nop _ (.mem o) | .undef _ (.mem o) => some o
  | .asl .acc | .lsr .acc | .rol .acc | .ror .acc | .nop _ .imp | .nop _ (.imm _) | .undef _ .imp | .undef _ (.imm _) => none
  | .sta o | .stx o | .sty o | .inc o | .dec o | .slo o | .rla o | .sre o | .rra o | .sax o | .lax o | .dcp o | .isc o => some o
  | .las o | .tas o | .shy o | .shx o | .sha o | .tsb o | .trb o | .stz o => some o
  | .rmb _ z | .smb _ z => some (.zp z)
  | .tax | .tay | .txa | .tya | .tsx | .txs | .inx | .iny | .dex | .dey | .ina | .dea => none
  | .bpl _ | .bmi _ | .bvc _ | .bvs _ | .bcc _ | .bcs _ | .bne _ | .beq _ | .bra _ | .bbr _ _ _ | .bbs _ _ _ => none
  | .jmp _ | .jsr _ | .rts | .pha | .php | .phx | .phy | .pla | .plp | .plx | .ply | .rti | .brk => none
  | .clc | .sec | .cli | .sei | .clv | .cld | .sed => none
  | .anc _ _ | .alr _ | .arr _ | .sbx _ | .ane _ | .lxa _ | .usbc _ | .jam _ => none

/-- The base count of a read of the mode (the read-class "Encoding" lines, R210 to R215, R245 to R248, R317, R326). -/
def readCount : AddrMode → Nat
  | .zp => 3
  | .zpx | .zpy | .abs | .abx | .aby => 4
  | .izy | .izp => 5
  | .izx => 6

/-- The base count of a store of the mode (R216 to R218, R316, R327 to R330, R343). -/
def storeCount : AddrMode → Nat
  | .zp => 3
  | .zpx | .zpy | .abs => 4
  | .abx | .aby | .izp => 5
  | .izx | .izy => 6

/-- The base count of a read-modify-write of the mode (R225, R226, R240 to R243, R312 to R319, R341, R342, R349, R350); no
instruction of the class has (zp). -/
def modifyCount : AddrMode → Nat
  | .zp => 5
  | .zpx | .zpy | .abs => 6
  | .abx | .aby => 7
  | .izx | .izy | .izp => 8

/-- The base count the "Encoding" line of an instruction's own rule gives it on a variant (ADC and SBC, whose lines give none, as
the read class; R475 has the same values). -/
def ruleCycles (v : Variant) : Instr → Nat
  | .adc o | .sbc o | .and o | .ora o | .eor o | .lda o | .ldx o | .ldy o | .cmp o | .cpx o | .cpy o | .bit o =>
    match o with
    | .imm _ => 2
    | .mem o => readCount o.mode
  | .lax o | .las o => readCount o.mode
  | .sta o | .stx o | .sty o | .stz o | .sax o | .shy o | .shx o | .sha o | .tas o => storeCount o.mode
  | .asl o | .lsr o | .rol o | .ror o =>
    match o with
    | .acc => 2
    | .mem o => modifyCount o.mode
  | .inc o | .dec o | .slo o | .rla o | .sre o | .rra o | .dcp o | .isc o | .tsb o | .trb o => modifyCount o.mode
  | .rmb _ _ | .smb _ _ | .bbr _ _ _ | .bbs _ _ _ => 5
  | .tax | .tay | .txa | .tya | .tsx | .txs | .inx | .iny | .dex | .dey | .ina | .dea => 2
  | .clc | .sec | .cli | .sei | .clv | .cld | .sed => 2
  | .bpl _ | .bmi _ | .bvc _ | .bvs _ | .bcc _ | .bcs _ | .bne _ | .beq _ | .bra _ => 2
  | .jmp (.abs _) => 3
  | .jmp (.ind _) => if v = .cmos then 6 else 5
  | .jmp (.iax _) => 6
  | .jsr _ | .rts | .rti => 6
  | .brk => 7
  | .pha | .php | .phx | .phy => 3
  | .pla | .plp | .plx | .ply => 4
  | .anc _ _ | .alr _ | .arr _ | .sbx _ | .ane _ | .lxa _ | .usbc _ | .jam _ => 2
  | .nop _ o =>
    match o with
    | .imp | .imm _ => 2
    | .mem o => readCount o.mode
  | .undef op o =>
    match o with
    | .imp => 1
    | .imm _ => 2
    | .mem o => if op = 0x5C#8 then 8 else readCount o.mode

end Sys2Proof.Machine
end

