-- ==== Sys2Proof/Certificates/Slice0/Obligations.lean ====
section
/-! DEFINITION. The statements for the provers. Each docstring names the rules of spec/ it formalises; what is the model's own
choice is said there with its log entry. -/

open Sys2Proof Sys2Proof.Machine

/-! ## Encoding (30_encoding.md) -/

/-- Derived from R110 to R116: a well-formed instruction has an encoding, and whatever bytes follow it, decoding gives the
instruction back and leaves them. -/
def Obligations.DecodeOfEncodeIsTheInstruction : Prop :=
  ∀ (v : Variant) (i : Instr), WellFormed v i = true →
    ∃ bs, encode v i = some bs ∧ ∀ rest, decode v (bs ++ rest) = .ok (i, rest)

/-- Derived from R110 to R117: whatever decodes is a well-formed instruction, and the bytes it was read from are its encoding;
an instruction that is not well-formed has no encoding. -/
def Obligations.EncodeOfDecodeIsTheBytes : Prop :=
  (∀ (v : Variant) (bs rest : List Byte) (i : Instr), decode v bs = .ok (i, rest) →
    WellFormed v i = true ∧ ∃ w, encode v i = some w ∧ bs = w ++ rest) ∧
  ∀ (v : Variant) (i : Instr), WellFormed v i = false → encode v i = none

/-- Derived from R117: every one of the 256 opcode values decodes in every variant; the instruction takes as many bytes as
R111 gives the opcode's mode, 1 to 3, and fewer bytes are no instruction. The lengths are the spec's from general knowledge
(R111). -/
def Obligations.EveryOpcodeDecodes : Prop :=
  ∀ (v : Variant) (op : Byte) (rest : List Byte),
    1 ≤ lengthOf v op ∧ lengthOf v op ≤ 3 ∧
      ((∃ i, decode v (op :: rest) = .ok (i, rest.drop (lengthOf v op - 1))) ↔ lengthOf v op ≤ rest.length + 1)

/-- Derived from R115, R116 and the Encoding lines: words written out from the spec decode to the instructions they stand for.
-/
def Obligations.SpecWordsDecode : Prop :=
  decode .nmos [0xA9#8, 0x42#8] = .ok (.lda (.imm 0x42#8), []) ∧
  decode .nmos [0xC7#8, 0x10#8] = .ok (.dcp (.zp 0x10#8), []) ∧
  decode .cmos [0xC7#8, 0x10#8] = .ok (.smb 4 0x10#8, []) ∧
  decode .m6510 [0x9D#8, 0xF0#8, 0x12#8] = .ok (.sta (.abx 0x12F0#16), []) ∧
  decode .nes2A03 [0x6C#8, 0xFF#8, 0x30#8] = .ok (.jmp (.ind 0x30FF#16), []) ∧
  decode .cmos [0x3F#8, 0x20#8, 0x03#8] = .ok (.bbr 3 0x20#8 0x03#8, [])

/-! ## The bus, the port and the stack (20_memory.md) -/

/-- Derived from R71, R73: a read answers the port at bus addresses 0 and 1 of a 6510, without reaching the bus; every other
read is one bus event at the masked address. Also (R72) the backing array's byte, or 0 when rejected. Nothing else of the core
or its memory changes; that a custom read handler changes neither, and that its answer is a free value, is the model's choice
(log 3). The value of the port at address 0 is the spec's reading (D29). -/
def Obligations.MemReadAnswers : Prop :=
  ∀ (s : State) (a : Word),
    let b := (a &&& s.cfg.addrMask).toNat
    let r := s.memRead a
    sameButReads s r.st ∧
    (s.cfg.variant = .m6510 ∧ b = 0 → r.val = s.portDdr ∧ r.st = s) ∧
    (s.cfg.variant = .m6510 ∧ b = 1 →
      (∀ k, k < 8 → r.val.getLsbD k = if s.portDdr.getLsbD k then s.portLatch.getLsbD k else s.portPins.getLsbD k) ∧
        r.st = s) ∧
    (¬(s.cfg.variant = .m6510 ∧ b < 2) →
      r.st.busLog = s.busLog ++ [.read b r.val] ∧
      (readRoute s.cfg.bus b = .backing → r.val = s.byteAt b ∧ r.st.oracle = s.oracle) ∧
      (readRoute s.cfg.bus b = .rejected → r.val = 0x00#8 ∧ r.st.oracle = s.oracle))

/-- Derived from R71, R72, R74: a write stores the byte at the masked address when the backing array takes it, or in the port
register at bus addresses 0 and 1 of a 6510; a rejected write stores nothing. A write that a custom handler takes leaves every
byte as it was and changes nothing else of the core, which is the model's choice (log 3). In every case nothing else changes.
Off the port the write is one bus event with the byte, whatever takes it; a port write does not reach the bus and calls the
registered callback with the new effective output exactly when that output changed. What the port keeps from the bus is the
spec's choice (D29). -/
def Obligations.MemWriteStores : Prop :=
  ∀ (s : State) (a : Word) (v : Byte),
    let b := (a &&& s.cfg.addrMask).toNat
    let t := s.memWrite a v
    stored s t a v ∧ sameButBus s t ∧ t.oracle = s.oracle ∧
    (¬(s.cfg.variant = .m6510 ∧ b < 2) → t.busLog = s.busLog ++ [.write b v]) ∧
    (s.cfg.variant = .m6510 ∧ b < 2 →
      let before := s.portLatch &&& s.portDdr
      let after := t.portLatch &&& t.portDdr
      t.busLog = s.busLog ++ (if after ≠ before ∧ s.portCallback = true then [.portCallback after] else []))

/-- Derived from R70, R71, R81, R82 and C4: what was written to plain memory is read back, at every address with the same
masked address, and a write to a different masked address does not change what a read of plain memory answers. So a pull is
the inverse of a push where the stack byte is plain memory. -/
def Obligations.ReadAfterWrite : Prop :=
  (∀ (s : State) (a a' : Word) (v : Byte), s.isPlain (s.busAddr a) → s.isPlain (s.busAddr a') →
    ((s.memWrite a v).memRead a').val = if s.busAddr a' = s.busAddr a then v else (s.memRead a').val) ∧
  ∀ (s : State) (v : Byte), s.isPlain (s.busAddr (stackAddr s.sp)) →
    (s.push v).pull.val = v ∧ (s.push v).pull.st.sp = s.sp

/-- Derived from R72: "ranges are scanned in range order, first match wins"; without a match the access is rejected in strict
mode and goes to the backing array otherwise. The case of a matching range without a handler is the model's choice (log 3). -/
def Obligations.BusRangesAreScannedInOrder : Prop :=
  ∀ (m : BusMap) (b : Nat),
    ((∀ r ∈ m.ranges, ¬(r.base ≤ b ∧ b < r.base + r.size)) →
      readRoute m b = (if m.strict then .rejected else .backing) ∧
      writeRoute m b = (if m.strict then .rejected else .backing)) ∧
    ∀ (before after : List BusRange) (r : BusRange), m.ranges = before ++ r :: after →
      (∀ q ∈ before, ¬(q.base ≤ b ∧ b < q.base + q.size)) → r.base ≤ b → b < r.base + r.size →
      readRoute m b = (if r.readHandler then .handler (b - r.base) else .backing) ∧
      writeRoute m b = (if r.writeHandler then .handler (b - r.base) else .backing)

/-- Derived from R81, R82, R83: a push stores at `$0100 + S` and then decrements S modulo 256, a pull increments S modulo 256
and then reads there; the stack address is in page 1. The pull's order is the spec's reading (C4). -/
def Obligations.PushAndPull : Prop :=
  ∀ (s : State) (v : Byte),
    pushed s (s.push v) v ∧ pulled s s.pull.val s.pull.st ∧
    (s.push v).sp.toNat = (s.sp.toNat + 255) % 256 ∧ s.pull.st.sp.toNat = (s.sp.toNat + 1) % 256 ∧
    (stackAddr s.sp).toNat = 0x100 + s.sp.toNat

/-! ## Addressing (40_addressing.md) -/

/-- Derived from R154, R155, R156, R157, R158, R159, R167: effective addresses as numbers, and the page cross; these modes
read nothing. -/
def Obligations.DirectModesComputeTheirAddress : Prop :=
  ∀ (s : State) (z : Byte) (w : Word),
    (resolve (.zp z) s).val.ea.toNat = z.toNat ∧
    (resolve (.zpx z) s).val.ea.toNat = (z.toNat + s.x.toNat) % 256 ∧
    (resolve (.zpy z) s).val.ea.toNat = (z.toNat + s.y.toNat) % 256 ∧
    (resolve (.abs w) s).val.ea = w ∧
    (resolve (.abx w) s).val.ea.toNat = (w.toNat + s.x.toNat) % 65536 ∧
    (resolve (.aby w) s).val.ea.toNat = (w.toNat + s.y.toNat) % 65536 ∧
    (resolve (.abx w) s).val.base = w ∧ (resolve (.aby w) s).val.base = w ∧
    ((resolve (.abx w) s).val.crossed = true ↔ (w.toNat + s.x.toNat) % 65536 / 256 ≠ w.toNat / 256) ∧
    ((resolve (.aby w) s).val.crossed = true ↔ (w.toNat + s.y.toNat) % 65536 / 256 ≠ w.toNat / 256) ∧
    (∀ o, o = .zp z ∨ o = .zpx z ∨ o = .zpy z ∨ o = .abs w ∨ o = .abx w ∨ o = .aby w → (resolve o s).st = s) ∧
    (∀ o, o = .zp z ∨ o = .zpx z ∨ o = .zpy z ∨ o = .abs w ∨ o = .izx z ∨ o = .izp z → (resolve o s).val.crossed = false)

/-- Derived from R161, R162, R164: a zero-page pointer's low byte is read first and its high byte at the next zero-page
address modulo 256; (zp),Y adds Y modulo 2^16 and reports the page cross. The wrap of the pointer is the spec's decision
(D17). -/
def Obligations.IndirectModesFollowThePointer : Prop :=
  ∀ (s : State) (z : Byte),
    (∀ (p : Byte) (o : Addr), (o = .izx z ∧ p = z + s.x) ∨ (o = .izp z ∧ p = z) →
      ∃ l h : Got Byte, l = s.memRead (zext16 p) ∧ h = l.st.memRead (zext16 (p + 1#8)) ∧
        (resolve o s).val.ea.toNat = h.val.toNat * 256 + l.val.toNat ∧ (resolve o s).st = h.st) ∧
    ∃ l h : Got Byte, l = s.memRead (zext16 z) ∧ h = l.st.memRead (zext16 (z + 1#8)) ∧
      (resolve (.izy z) s).val.base.toNat = h.val.toNat * 256 + l.val.toNat ∧
      (resolve (.izy z) s).val.ea.toNat = (h.val.toNat * 256 + l.val.toNat + s.y.toNat) % 65536 ∧
      ((resolve (.izy z) s).val.crossed = true ↔
        (h.val.toNat * 256 + l.val.toNat + s.y.toNat) % 65536 / 256 ≠ h.val.toNat) ∧
      (resolve (.izy z) s).st = h.st

/-- Derived from R269 with R157, R160, R165: JMP loads PC with its target and changes nothing else. The indirect pointer's
high byte is read within the page on NMOS, NES2A03 and M6510, and at the next address on CMOS. The M6510's form is the spec's
decision (D8). -/
def Obligations.JmpGoesToItsTarget : Prop :=
  ∀ (s : State) (w : Word),
    exec (.jmp (.abs w)) s = .next { s with pc := w } ∧
    (∀ (o : Target) (lo hi : Word),
      (o = .ind w ∧ lo = w ∧ (s.cfg.variant ≠ .cmos → hi.toNat = w.toNat / 256 * 256 + (w.toNat + 1) % 256) ∧
          (s.cfg.variant = .cmos → hi.toNat = (w.toNat + 1) % 65536)) ∨
        (o = .iax w ∧ lo.toNat = (w.toNat + s.x.toNat) % 65536 ∧ hi.toNat = (lo.toNat + 1) % 65536) →
      ∃ (l h : Got Byte) (t : State), l = s.memRead lo ∧ h = l.st.memRead hi ∧ exec (.jmp o) s = .next t ∧
        t.pc.toNat = h.val.toNat * 256 + l.val.toNat ∧ sameButReads { s with pc := t.pc } t)

/-! ## The adders (41_arithmetic.md) -/

/-- Derived from R192, R193: binary add and subtract are exact modulo 256; C is the carry out, or no borrow; V is signed
overflow, which is the rules' bit formula; N and Z are the result's; subtracting is adding the complement, in all five
outputs. The formulas are the spec's from general knowledge. -/
def Obligations.BinaryAddersAreExact : Prop :=
  ∀ (a m : Byte) (c : Bool),
    let o := addBinary a m c
    let d := subBinary a m c
    let signedSum := a.toInt + m.toInt + c.toNat
    let signedDiff := a.toInt - m.toInt - (1 - c.toNat)
    (o.r.toNat = (a.toNat + m.toNat + c.toNat) % 256 ∧ o.c = decide (a.toNat + m.toNat + c.toNat > 255) ∧
      o.v = decide (signedSum < -128 ∨ signedSum > 127) ∧ o.v = (~~~(a ^^^ m) &&& (a ^^^ o.r)).getLsbD 7 ∧
      o.n = o.r.getLsbD 7 ∧ o.z = decide (o.r.toNat = 0)) ∧
    ((d.r.toNat : Int) = ((a.toNat : Int) - m.toNat - (1 - c.toNat)) % 256 ∧
      d.c = decide ((a.toNat : Int) - m.toNat - (1 - c.toNat) ≥ 0) ∧
      d.v = decide (signedDiff < -128 ∨ signedDiff > 127) ∧ d.v = ((a ^^^ m) &&& (a ^^^ d.r)).getLsbD 7 ∧
      d.n = d.r.getLsbD 7 ∧ d.z = decide (d.r.toNat = 0)) ∧
    d = addBinary a (~~~m) c

/-- Derived from R194 to R197 (the correction algorithms are the spec's from general knowledge, D23): on valid digits the
decimal adders add, and the decimal subtracters subtract with borrow, two-digit decimal numbers. The decimal carry says
whether the sum reached 100, the literal carry is the binary one; C of a subtract is 1 exactly when there is no borrow. -/
def Obligations.DecimalAddersAddDecimalNumbers : Prop :=
  ∀ (cfg : Config) (a m : Byte) (c : Bool), isBcd a → isBcd m →
    let sum := bcdValue a + bcdValue m + c.toNat
    (∀ o, o = addNmosDecimal cfg a m c ∨ o = addCmosDecimal cfg a m c →
      isBcd o.r ∧ bcdValue o.r = sum % 100 ∧
      (cfg.adcDecimalCarry = .decimal → o.c = decide (sum ≥ 100)) ∧
      (cfg.adcDecimalCarry = .binary → o.c = (addBinary a m c).c)) ∧
    ∀ o, o = subNmosDecimal a m c ∨ o = subCmosDecimal a m c →
      isBcd o.r ∧ (bcdValue o.r : Int) = ((bcdValue a : Int) - bcdValue m - (1 - c.toNat)) % 100 ∧
      o.c = decide (bcdValue a + c.toNat ≥ bcdValue m + 1)

/-- Derived from R194 to R197 and C5, for every operand, valid digits or not: the results are the rules' algorithms, given
here with their exact sums; the add's C is the decimal carry or the binary one, as `ADC_DECIMAL_CARRY` says. Z is the binary
result's on NMOS and the corrected result's on CMOS; N and V of the NMOS add are the binary result's, or those of the signed
sum, as `NMOS_DECIMAL_NV` says, and of the NMOS subtract the binary result's; on CMOS N is the corrected result's and V the
binary result's; C of a subtract is the binary no-borrow. The algorithms are the spec's from general knowledge (D21, D22,
D23). -/
def Obligations.DecimalFlags : Prop :=
  ∀ (cfg : Config) (a m : Byte) (c : Bool),
    let b := addBinary a m c
    let d := subBinary a m c
    let add := addNmosDecimal cfg a m c
    let sub := subNmosDecimal a m c
    let addC := addCmosDecimal cfg a m c
    let subC := subCmosDecimal a m c
    let lowSum := a.toNat % 16 + m.toNat % 16 + c.toNat
    let low := if lowSum ≥ 10 then (lowSum + 6) % 16 + 16 else lowSum
    let sum := a.toNat / 16 * 16 + m.toNat / 16 * 16 + low
    let corrected := if sum ≥ 0xA0 then sum + 0x60 else sum
    let signed : Int := (a &&& 0xF0#8).toInt + (m &&& 0xF0#8).toInt + low
    let lowDiff : Int := (a.toNat % 16 : Int) - (m.toNat % 16 : Int) + c.toNat - 1
    let diff : Int := (a.toNat / 16 * 16 : Int) - (m.toNat / 16 * 16 : Int) +
      (if lowDiff < 0 then (lowDiff - 6) % 16 - 16 else lowDiff)
    let whole : Int := (a.toNat : Int) - m.toNat + c.toNat - 1
    (∀ o, o = add ∨ o = addC → o.r.toNat = corrected % 256 ∧
      (cfg.adcDecimalCarry = .decimal → o.c = decide (corrected ≥ 0x100)) ∧ (cfg.adcDecimalCarry = .binary → o.c = b.c)) ∧
    (cfg.nmosDecimalNV = .binary → add.n = b.n ∧ add.v = b.v) ∧
    (cfg.nmosDecimalNV = .silicon → add.n = decide (signed % 256 ≥ 128) ∧ add.v = decide (signed < -128 ∨ signed > 127)) ∧
    add.z = b.z ∧ addC.n = decide (addC.r.toNat ≥ 128) ∧ addC.v = b.v ∧ addC.z = decide (addC.r.toNat = 0) ∧
    (sub.r.toNat : Int) = (if diff < 0 then diff - 0x60 else diff) % 256 ∧
    sub.n = d.n ∧ sub.v = d.v ∧ sub.z = d.z ∧ sub.c = d.c ∧
    (subC.r.toNat : Int) =
      (whole - (if whole < 0 then 0x60 else 0) - (if lowDiff < 0 then 6 else 0)) % 256 ∧
    subC.n = decide (subC.r.toNat ≥ 128) ∧ subC.v = d.v ∧ subC.z = decide (subC.r.toNat = 0) ∧ subC.c = d.c

/-- Derived from R191, R198, R199, R331, R478: ADC, SBC and USBC complete; A and N, V, Z, C are what the adder that the
variant and D select gives; CMOS charges one more cycle when D is set; USBC is SBC with its immediate; nothing else changes.
The M6510's row is the spec's decision (D21). -/
def Obligations.AdcSbcUsbcUseTheSelectedAdder : Prop :=
  ∀ (s : State) (o : Src) (i : Instr) (out : AluOut),
    let m := (operand o s).val
    let c := getFlag s.p .c
    let d := getFlag s.p .d
    let extra := if s.cfg.variant = .cmos ∧ d = true then 1 else 0
    let sum := if d = false ∨ s.cfg.variant = .nes2A03 then addBinary s.a m c
      else if s.cfg.variant = .cmos then addCmosDecimal s.cfg s.a m c else addNmosDecimal s.cfg s.a m c
    let diff := if d = false ∨ s.cfg.variant = .nes2A03 then subBinary s.a m c
      else if s.cfg.variant = .cmos then subCmosDecimal s.a m c else subNmosDecimal s.a m c
    ((i = .adc o ∧ out = sum) ∨ (i = .sbc o ∧ out = diff) ∨ (∃ b, o = .imm b ∧ i = .usbc b ∧ out = diff)) →
    ∃ t q, exec i s = .next t ∧ sameButReads { s with a := out.r, p := q, clockticks := s.clockticks + extra } t ∧
      writesFlags s.p q [(.n, out.n), (.v, out.v), (.z, out.z), (.c, out.c)]

/-- Derived from R191 and R310: on NES2A03 the D flag has no effect on ADC, SBC, RRA, ISC, USBC and ARR: run with D set, each
does what it does with D clear and leaves D set. -/
def Obligations.Nes2A03IgnoresDecimalMode : Prop :=
  ∀ (s : State) (i : Instr), s.cfg.variant = .nes2A03 →
    ((∃ o, i = .adc o ∨ i = .sbc o) ∨ (∃ o, i = .rra o ∨ i = .isc o) ∨ (∃ m, i = .usbc m ∨ i = .arr m)) →
    ∃ t u, exec i { s with p := setFlag s.p .d false } = .next t ∧ exec i { s with p := setFlag s.p .d true } = .next u ∧
      u = { t with p := setFlag t.p .d true }

/-! ## Logic, loads, stores, transfers, increments (42_logic_load_store.md) -/

/-- Derived from R210, R211, R212 and R190: AND, ORA, EOR complete; A is the bitwise result, N and Z follow it, nothing else
changes. The operators are the spec's from general knowledge. -/
def Obligations.LogicWritesA : Prop :=
  ∀ (s : State) (o : Src),
    let m := (operand o s).val
    (∃ t q, exec (.and o) s = .next t ∧ sameButReads { s with a := s.a &&& m, p := q } t ∧
      writesFlags s.p q (nz (s.a &&& m))) ∧
    (∃ t q, exec (.ora o) s = .next t ∧ sameButReads { s with a := s.a ||| m, p := q } t ∧
      writesFlags s.p q (nz (s.a ||| m))) ∧
    (∃ t q, exec (.eor o) s = .next t ∧ sameButReads { s with a := s.a ^^^ m, p := q } t ∧
      writesFlags s.p q (nz (s.a ^^^ m)))

/-- Derived from R213, R214, R215, R317, R326 and R190: LDA, LDX, LDY, LAX and LAS complete; the registers each names take the
operand (ANDed with S in LAS), N and Z follow it, nothing else changes. -/
def Obligations.LoadsWriteTheirRegisters : Prop :=
  ∀ (s : State) (o : Src) (a : Addr),
    let m := (operand o s).val
    let b := (operand (.mem a) s).val
    (∃ t q, exec (.lda o) s = .next t ∧ sameButReads { s with a := m, p := q } t ∧ writesFlags s.p q (nz m)) ∧
    (∃ t q, exec (.ldx o) s = .next t ∧ sameButReads { s with x := m, p := q } t ∧ writesFlags s.p q (nz m)) ∧
    (∃ t q, exec (.ldy o) s = .next t ∧ sameButReads { s with y := m, p := q } t ∧ writesFlags s.p q (nz m)) ∧
    (∃ t q, exec (.lax a) s = .next t ∧ sameButReads { s with a := b, x := b, p := q } t ∧ writesFlags s.p q (nz b)) ∧
    (∃ t q, exec (.las a) s = .next t ∧
      sameButReads { s with a := b &&& s.sp, x := b &&& s.sp, sp := b &&& s.sp, p := q } t ∧
      writesFlags s.p q (nz (b &&& s.sp)))

/-- Derived from R216, R217, R218, R316, R343: STA, STX, STY, SAX and STZ complete; they store A, X, Y, A AND X, and 0 at the
effective address, and change no register, no flag and no other byte. -/
def Obligations.StoresWriteMemory : Prop :=
  ∀ (s : State) (o : Addr),
    let ea := (resolve o s).val.ea
    (∃ t, exec (.sta o) s = .next t ∧ sameButBus s t ∧ stored s t ea s.a) ∧
    (∃ t, exec (.stx o) s = .next t ∧ sameButBus s t ∧ stored s t ea s.x) ∧
    (∃ t, exec (.sty o) s = .next t ∧ sameButBus s t ∧ stored s t ea s.y) ∧
    (∃ t, exec (.sax o) s = .next t ∧ sameButBus s t ∧ stored s t ea (s.a &&& s.x)) ∧
    (∃ t, exec (.stz o) s = .next t ∧ sameButBus s t ∧ stored s t ea 0x00#8)

/-- Derived from R311, R327, R328, R329, R330: SHY, SHX, SHA and TAS complete; the stored value is ANDed with the high byte of
the unindexed base plus 1; TAS also writes S; no flag and nothing else changes. The composite on a page cross is the spec's
decision (D26). -/
def Obligations.HighByteStores : Prop :=
  ∀ (s : State) (o : Addr),
    let ea := (resolve o s).val.ea
    let h : Byte := BitVec.ofNat 8 ((resolve o s).val.base.toNat / 256 + 1)
    (∃ t, exec (.shy o) s = .next t ∧ sameButBus s t ∧ stored s t ea (s.y &&& h)) ∧
    (∃ t, exec (.shx o) s = .next t ∧ sameButBus s t ∧ stored s t ea (s.x &&& h)) ∧
    (∃ t, exec (.sha o) s = .next t ∧ sameButBus s t ∧ stored s t ea (s.a &&& s.x &&& h)) ∧
    (∃ t, exec (.tas o) s = .next t ∧ sameButBus { s with sp := s.a &&& s.x } t ∧ stored s t ea (s.a &&& s.x &&& h))

/-- Derived from R219, R220, R221, R222, R223, R224: the transfers complete; the destination takes the source and N and Z
follow it, but TXS sets no flag; nothing else changes. -/
def Obligations.TransfersCopyRegisters : Prop :=
  ∀ s : State,
    (∃ q, exec .tax s = .next { s with x := s.a, p := q } ∧ writesFlags s.p q (nz s.a)) ∧
    (∃ q, exec .tay s = .next { s with y := s.a, p := q } ∧ writesFlags s.p q (nz s.a)) ∧
    (∃ q, exec .txa s = .next { s with a := s.x, p := q } ∧ writesFlags s.p q (nz s.x)) ∧
    (∃ q, exec .tya s = .next { s with a := s.y, p := q } ∧ writesFlags s.p q (nz s.y)) ∧
    (∃ q, exec .tsx s = .next { s with x := s.sp, p := q } ∧ writesFlags s.p q (nz s.sp)) ∧
    exec .txs s = .next { s with sp := s.x }

/-- Derived from R225 to R230, R353, R354: INC, DEC, INX, INY, DEX, DEY, INA and DEA complete; the byte at the effective
address, or the register, takes its value plus or minus 1 modulo 256, N and Z follow it, nothing else changes, C included. -/
def Obligations.IncrementsAndDecrements : Prop :=
  ∀ (s : State) (o : Addr),
    let ea := (resolve o s).val.ea
    let m := (operand (.mem o) s).val
    let up (r : Byte) : Byte := BitVec.ofNat 8 (r.toNat + 1)
    let down (r : Byte) : Byte := BitVec.ofNat 8 (r.toNat + 255)
    (∃ t q, exec (.inc o) s = .next t ∧ sameButBus { s with p := q } t ∧ stored s t ea (up m) ∧
      writesFlags s.p q (nz (up m))) ∧
    (∃ t q, exec (.dec o) s = .next t ∧ sameButBus { s with p := q } t ∧ stored s t ea (down m) ∧
      writesFlags s.p q (nz (down m))) ∧
    (∃ q, exec .inx s = .next { s with x := up s.x, p := q } ∧ writesFlags s.p q (nz (up s.x))) ∧
    (∃ q, exec .iny s = .next { s with y := up s.y, p := q } ∧ writesFlags s.p q (nz (up s.y))) ∧
    (∃ q, exec .dex s = .next { s with x := down s.x, p := q } ∧ writesFlags s.p q (nz (down s.x))) ∧
    (∃ q, exec .dey s = .next { s with y := down s.y, p := q } ∧ writesFlags s.p q (nz (down s.y))) ∧
    (∃ q, exec .ina s = .next { s with a := up s.a, p := q } ∧ writesFlags s.p q (nz (up s.a))) ∧
    (∃ q, exec .dea s = .next { s with a := down s.a, p := q } ∧ writesFlags s.p q (nz (down s.a)))

/-! ## Shifts, compares, BIT (43_shift_compare_bit.md) -/

/-- Derived from R240, R241, R242, R243: the shifts and rotates complete. As numbers: ASL doubles, LSR halves, ROL doubles and
adds the old C, ROR halves and adds 128 times the old C; C is the bit shifted out, N and Z follow the result, which goes to A
or, by one write, to the byte it came from; nothing else changes. -/
def Obligations.ShiftsAndRotates : Prop :=
  ∀ (s : State) (f : Place → Instr) (result : Byte → Nat) (out : Byte → Bool),
    let c := (getFlag s.p .c).toNat
    ((f = .asl ∧ result = (fun m => 2 * m.toNat) ∧ out = (fun m => m.getLsbD 7)) ∨
      (f = .lsr ∧ result = (fun m => m.toNat / 2) ∧ out = (fun m => m.getLsbD 0)) ∨
      (f = .rol ∧ result = (fun m => 2 * m.toNat + c) ∧ out = (fun m => m.getLsbD 7)) ∨
      (f = .ror ∧ result = (fun m => m.toNat / 2 + 128 * c) ∧ out = (fun m => m.getLsbD 0))) →
    (let r : Byte := BitVec.ofNat 8 (result s.a)
      ∃ q, exec (f .acc) s = .next { s with a := r, p := q } ∧ writesFlags s.p q ((.c, out s.a) :: nz r)) ∧
    ∀ o : Addr,
      let m := (operand (.mem o) s).val
      let r : Byte := BitVec.ofNat 8 (result m)
      ∃ t q, exec (f (.mem o)) s = .next t ∧ sameButBus { s with p := q } t ∧ stored s t (resolve o s).val.ea r ∧
        writesFlags s.p q ((.c, out m) :: nz r)

/-- R244, in R245, R246, R247: CMP, CPX, CPY complete; C is 1 exactly when the register is at least the operand, unsigned; N
and Z follow the difference modulo 256; nothing else changes. -/
def Obligations.ComparesSetFlags : Prop :=
  ∀ (s : State) (o : Src),
    let m := (operand o s).val
    let difference (r : Byte) : Byte := BitVec.ofNat 8 (r.toNat + 256 - m.toNat)
    let w (r : Byte) : List (Flag × Bool) := (.c, decide (r.toNat ≥ m.toNat)) :: nz (difference r)
    (∃ t q, exec (.cmp o) s = .next t ∧ sameButReads { s with p := q } t ∧ writesFlags s.p q (w s.a)) ∧
    (∃ t q, exec (.cpx o) s = .next t ∧ sameButReads { s with p := q } t ∧ writesFlags s.p q (w s.x)) ∧
    (∃ t q, exec (.cpy o) s = .next t ∧ sameButReads { s with p := q } t ∧ writesFlags s.p q (w s.y))

/-- Derived from R248, R341, R342: BIT, TSB and TRB complete. Z is 1 exactly when A AND the operand is 0; BIT of memory copies
bits 7 and 6 to N and V, BIT immediate does not; TSB writes the operand OR A, TRB the operand AND NOT A; nothing else changes.
-/
def Obligations.BitTests : Prop :=
  ∀ (s : State) (o : Addr) (b : Byte),
    let ea := (resolve o s).val.ea
    let m := (operand (.mem o) s).val
    (∃ q, exec (.bit (.imm b)) s = .next { s with p := q } ∧ writesFlags s.p q [(.z, decide (s.a &&& b = 0#8))]) ∧
    (∃ t q, exec (.bit (.mem o)) s = .next t ∧ sameButReads { s with p := q } t ∧
      writesFlags s.p q [(.z, decide (s.a &&& m = 0#8)), (.n, m.getLsbD 7), (.v, m.getLsbD 6)]) ∧
    (∃ t q, exec (.tsb o) s = .next t ∧ sameButBus { s with p := q } t ∧ stored s t ea (m ||| s.a) ∧
      writesFlags s.p q [(.z, decide (s.a &&& m = 0#8))]) ∧
    (∃ t q, exec (.trb o) s = .next t ∧ sameButBus { s with p := q } t ∧ stored s t ea (m &&& ~~~s.a) ∧
      writesFlags s.p q [(.z, decide (s.a &&& m = 0#8))])

/-! ## Branches, subroutines (44_branch_jump.md) -/

/-- Derived from R260 to R268, R344, R163 and R477: the relative branches complete. PC, which is the next instruction's
address, moves by the signed offset modulo 2^16 exactly when the condition holds, for 1 cycle more, 2 when the page changes;
not taken, nothing changes. The conditions are the spec's from general knowledge. -/
def Obligations.BranchesFollowTheirCondition : Prop :=
  ∀ (s : State) (rr : Byte) (i : Instr) (cond : Bool),
    ((i = .bpl rr ∧ cond = !getFlag s.p .n) ∨ (i = .bmi rr ∧ cond = getFlag s.p .n) ∨
      (i = .bvc rr ∧ cond = !getFlag s.p .v) ∨ (i = .bvs rr ∧ cond = getFlag s.p .v) ∨
      (i = .bcc rr ∧ cond = !getFlag s.p .c) ∨ (i = .bcs rr ∧ cond = getFlag s.p .c) ∨
      (i = .bne rr ∧ cond = !getFlag s.p .z) ∨ (i = .beq rr ∧ cond = getFlag s.p .z) ∨
      (i = .bra rr ∧ cond = true)) →
    ∃ target : Word, (target.toNat : Int) = ((s.pc.toNat : Int) + rr.toInt) % 65536 ∧
      (cond = true → exec i s = .next { s with
        pc := target
        clockticks := s.clockticks + if target.toNat / 256 = s.pc.toNat / 256 then 1 else 2 }) ∧
      (cond = false → exec i s = .next s)

/-- Derived from R270, R271: JSR and RTS complete. JSR pushes the high and then the low byte of the next instruction's address
minus 1 and loads PC with the target; RTS pulls low and then high byte and loads PC with the word plus 1; nothing else
changes. -/
def Obligations.SubroutineCallAndReturn : Prop :=
  ∀ (s : State) (w : Word),
    (∃ u1 u2, pushed s u1 (hiByte (s.pc - 1#16)) ∧ pushed u1 u2 (loByte (s.pc - 1#16)) ∧
      exec (.jsr w) s = .next { u2 with pc := w }) ∧
    (∃ l u1 h u2, pulled s l u1 ∧ pulled u1 h u2 ∧
      exec .rts s = .next { u2 with pc := BitVec.ofNat 16 (h.toNat * 256 + l.toNat + 1) })

/-- Derived from R270, R271: RTS after JSR returns to the instruction after the JSR with S restored, where the two stack bytes
are different bytes of plain memory. -/
def Obligations.RtsReturnsFromJsr : Prop :=
  ∀ (s : State) (w : Word),
    s.isPlain (s.busAddr (stackAddr s.sp)) → s.isPlain (s.busAddr (stackAddr (s.sp - 1#8))) →
    s.busAddr (stackAddr s.sp) ≠ s.busAddr (stackAddr (s.sp - 1#8)) →
    ∃ t u, exec (.jsr w) s = .next t ∧ t.pc = w ∧ exec .rts t = .next u ∧ u.pc = s.pc ∧ u.sp = s.sp

/-! ## Stack, flags, BRK, RTI (45_stack_flags_interrupt.md) -/

/-- Derived from R281, R282, R283, R345 to R348: PHA, PHP, PHX, PHY, PLA, PLX and PLY complete. A push pushes its byte and
changes nothing else; PHP pushes P with Break and Unused set and leaves the live P alone; a pull writes its register with the
pulled byte, N and Z follow it, and nothing else changes. -/
def Obligations.PushAndPullInstructions : Prop :=
  ∀ s : State,
    (∃ t, exec .pha s = .next t ∧ pushed s t s.a) ∧
    (∃ t, exec .phx s = .next t ∧ pushed s t s.x) ∧
    (∃ t, exec .phy s = .next t ∧ pushed s t s.y) ∧
    (∃ t pp, exec .php s = .next t ∧ pushed s t pp ∧ writesFlags s.p pp [(.b, true), (.u, true)]) ∧
    ∃ v u, pulled s v u ∧
      (∃ q, exec .pla s = .next { u with a := v, p := q } ∧ writesFlags s.p q (nz v)) ∧
      (∃ q, exec .plx s = .next { u with x := v, p := q } ∧ writesFlags s.p q (nz v)) ∧
      (∃ q, exec .ply s = .next { u with y := v, p := q } ∧ writesFlags s.p q (nz v))

/-- Derived from R280, R284, R285: PLP and RTI complete. P is the pulled byte with Unused set; RTI then pulls PC, low byte
first, without adding 1; inhibit is 2 when I went from 1 to 0 and unchanged otherwise; nothing else changes. RTI arming the
deferral is the spec's rule, not silicon's. -/
def Obligations.PlpAndRtiRestoreP : Prop :=
  ∀ s : State, ∃ v u q inhibit,
    pulled s v u ∧ writesFlags v q [(.u, true)] ∧
    inhibit = (if getFlag s.p .i = true ∧ getFlag q .i = false then 2 else s.inhibit) ∧
    exec .plp s = .next { u with p := q, inhibit := inhibit } ∧
    ∃ l u1 h u2, pulled { u with p := q } l u1 ∧ pulled u1 h u2 ∧
      exec .rti s = .next { u2 with pc := BitVec.ofNat 16 (h.toNat * 256 + l.toNat), inhibit := inhibit }

/-- Derived from R286: BRK completes by entering the handler at the vector $FFFE: it pushes the address two past its own
opcode (PC plus 1) and P with Break and Unused set, sets I, and clears D when `BRK_CLEARS_D`; no other flag and nothing else
changes. `BRK_CLEARS_D` is a parameter of the spec (D27). -/
def Obligations.BrkEntersItsHandler : Prop :=
  ∀ s : State, ∃ u pp q,
    entered { s with pc := s.pc + 1#16 } u 0xFFFE#16 pp ∧ writesFlags s.p pp [(.b, true), (.u, true)] ∧
    exec .brk s = .next { u with p := q } ∧
    writesFlags s.p q ((.i, true) :: if s.cfg.brkClearsD then [(.d, false)] else [])

/-- Derived from R285, R286 and the source's §8 (W7): RTI in the handler of a BRK returns to the instruction after the BRK's
signature byte with A, X, Y, S as they were and P as it was but for Break and Unused, where the three stack bytes are
different bytes of plain memory. -/
def Obligations.RtiReturnsFromBrk : Prop :=
  ∀ s : State,
    let b0 := s.busAddr (stackAddr s.sp)
    let b1 := s.busAddr (stackAddr (s.sp - 1#8))
    let b2 := s.busAddr (stackAddr (s.sp - 2#8))
    s.isPlain b0 → s.isPlain b1 → s.isPlain b2 → b0 ≠ b1 → b0 ≠ b2 → b1 ≠ b2 →
    ∃ t u, exec .brk s = .next t ∧ exec .rti t = .next u ∧ u.pc = s.pc + 1#16 ∧ u.sp = s.sp ∧
      u.a = s.a ∧ u.x = s.x ∧ u.y = s.y ∧ writesFlags s.p u.p [(.b, true), (.u, true)]

/-- Derived from R287, R288, R289, R290, R291, R292, R293: the flag instructions complete; each writes its one flag and
nothing else, but CLI sets inhibit to 2 when I was 1. -/
def Obligations.FlagInstructions : Prop :=
  ∀ s : State,
    (∃ q, exec .clc s = .next { s with p := q } ∧ writesFlags s.p q [(.c, false)]) ∧
    (∃ q, exec .sec s = .next { s with p := q } ∧ writesFlags s.p q [(.c, true)]) ∧
    (∃ q, exec .sei s = .next { s with p := q } ∧ writesFlags s.p q [(.i, true)]) ∧
    (∃ q, exec .clv s = .next { s with p := q } ∧ writesFlags s.p q [(.v, false)]) ∧
    (∃ q, exec .cld s = .next { s with p := q } ∧ writesFlags s.p q [(.d, false)]) ∧
    (∃ q, exec .sed s = .next { s with p := q } ∧ writesFlags s.p q [(.d, true)]) ∧
    (∃ q, exec .cli s = .next { s with p := q, inhibit := if getFlag s.p .i = true then 2 else s.inhibit } ∧
      writesFlags s.p q [(.i, false)])

/-! ## Undocumented opcodes (46_undocumented.md) -/

/-- Derived from R312, R313, R314, R318: SLO, RLA, SRE and DCP complete. The shifted, rotated or decremented byte is written
back; A is combined with it (compared with it in DCP), C is the bit shifted out (the compare's in DCP), N and Z follow A (the
difference in DCP); nothing else changes. -/
def Obligations.ShiftAndCombineComposites : Prop :=
  ∀ (s : State) (o : Addr),
    let ea := (resolve o s).val.ea
    let m := (operand (.mem o) s).val
    let left : Byte := BitVec.ofNat 8 (2 * m.toNat)
    let leftC : Byte := BitVec.ofNat 8 (2 * m.toNat + (getFlag s.p .c).toNat)
    let right : Byte := BitVec.ofNat 8 (m.toNat / 2)
    let down : Byte := BitVec.ofNat 8 (m.toNat + 255)
    (∃ t q, exec (.slo o) s = .next t ∧ sameButBus { s with a := s.a ||| left, p := q } t ∧ stored s t ea left ∧
      writesFlags s.p q ((.c, m.getLsbD 7) :: nz (s.a ||| left))) ∧
    (∃ t q, exec (.rla o) s = .next t ∧ sameButBus { s with a := s.a &&& leftC, p := q } t ∧ stored s t ea leftC ∧
      writesFlags s.p q ((.c, m.getLsbD 7) :: nz (s.a &&& leftC))) ∧
    (∃ t q, exec (.sre o) s = .next t ∧ sameButBus { s with a := s.a ^^^ right, p := q } t ∧ stored s t ea right ∧
      writesFlags s.p q ((.c, m.getLsbD 0) :: nz (s.a ^^^ right))) ∧
    (∃ t q, exec (.dcp o) s = .next t ∧ sameButBus { s with p := q } t ∧ stored s t ea down ∧
      writesFlags s.p q ((.c, decide (s.a.toNat ≥ down.toNat)) :: nz (s.a - down)))

/-- Derived from R315, R319: RRA and ISC complete. RRA writes the rotated byte back and adds it to A with the carry of the
rotate; ISC writes the incremented byte back and subtracts it; the adder is the one R191 selects; nothing else changes. -/
def Obligations.RotateAddAndIncrementSubtract : Prop :=
  ∀ (s : State) (o : Addr),
    let ea := (resolve o s).val.ea
    let m := (operand (.mem o) s).val
    let d := getFlag s.p .d
    let rotated : Byte := BitVec.ofNat 8 (m.toNat / 2 + 128 * (getFlag s.p .c).toNat)
    let up : Byte := BitVec.ofNat 8 (m.toNat + 1)
    let sum := aluAdd s.cfg d s.a rotated (m.getLsbD 0)
    let diff := aluSub s.cfg d s.a up (getFlag s.p .c)
    (∃ t q, exec (.rra o) s = .next t ∧ sameButBus { s with a := sum.r, p := q } t ∧ stored s t ea rotated ∧
      writesFlags s.p q [(.n, sum.n), (.v, sum.v), (.z, sum.z), (.c, sum.c)]) ∧
    (∃ t q, exec (.isc o) s = .next t ∧ sameButBus { s with a := diff.r, p := q } t ∧ stored s t ea up ∧
      writesFlags s.p q [(.n, diff.n), (.v, diff.v), (.z, diff.z), (.c, diff.c)])

/-- Derived from R320, R321, R323, R324, R325: ANC, ALR, SBX, ANE and LXA complete with the results and flags of their rules,
for every `MAGIC`; nothing else changes. `MAGIC` is a parameter of the spec (D25). -/
def Obligations.ImmediateComposites : Prop :=
  ∀ (s : State) (op m : Byte),
    let t := s.a &&& m
    let half : Byte := BitVec.ofNat 8 (t.toNat / 2)
    let both := s.a &&& s.x
    let less : Byte := BitVec.ofNat 8 (both.toNat + 256 - m.toNat)
    let ane := (s.a ||| s.cfg.magic) &&& s.x &&& m
    let lxa := (s.a ||| s.cfg.magic) &&& m
    (∃ q, exec (.anc op m) s = .next { s with a := t, p := q } ∧ writesFlags s.p q ((.c, t.getLsbD 7) :: nz t)) ∧
    (∃ q, exec (.alr m) s = .next { s with a := half, p := q } ∧ writesFlags s.p q ((.c, t.getLsbD 0) :: nz half)) ∧
    (∃ q, exec (.sbx m) s = .next { s with x := less, p := q } ∧
      writesFlags s.p q ((.c, decide (both.toNat ≥ m.toNat)) :: nz less)) ∧
    (∃ q, exec (.ane m) s = .next { s with a := ane, p := q } ∧ writesFlags s.p q (nz ane)) ∧
    (∃ q, exec (.lxa m) s = .next { s with a := lxa, x := lxa, p := q } ∧ writesFlags s.p q (nz lxa))

/-- Derived from R322: ARR completes. `r` is A AND the operand, halved, with the old C at bit 7. The decimal form (D set, NMOS
or M6510, `ARR_DECIMAL = silicon`) takes N from the old C, Z from r, V from bit 6 of t xor r, corrects each digit and takes C
from the high digit's correction; the binary form takes A = r, C from bit 6 and V from bits 6 xor 5. Nothing else changes. The
decimal form is the spec's decision (D24). -/
def Obligations.ArrRotatesWithItsOwnFlags : Prop :=
  ∀ (s : State) (m : Byte),
    let t := s.a &&& m
    let c := getFlag s.p .c
    let r : Byte := BitVec.ofNat 8 (t.toNat / 2 + 128 * c.toNat)
    let isDecimal : Prop := getFlag s.p .d = true ∧ (s.cfg.variant = .nmos ∨ s.cfg.variant = .m6510) ∧
      s.cfg.arrDecimal = .silicon
    (¬isDecimal → ∃ q, exec (.arr m) s = .next { s with a := r, p := q } ∧
      writesFlags s.p q ((.c, r.getLsbD 6) :: (.v, (r.getLsbD 6).xor (r.getLsbD 5)) :: nz r)) ∧
    (isDecimal →
      let low := if t.toNat % 16 + t.toNat % 2 > 5 then (r.toNat % 16 + 6) % 16 else r.toNat % 16
      let carry := decide (t.toNat / 16 * 16 + t.toNat / 16 % 2 * 16 > 0x50)
      let high := r.toNat / 16 * 16 + if carry = true then 0x60 else 0
      ∃ q, exec (.arr m) s = .next { s with a := BitVec.ofNat 8 (high + low), p := q } ∧
        writesFlags s.p q [(.n, c), (.z, decide (r = 0#8)), (.v, (t.getLsbD 6).xor (r.getLsbD 6)), (.c, carry)])

/-! ## 65C02 bit instructions, NOPs, JAM (47_cmos.md, 48_nop.md) -/

/-- Derived from R349 to R352 and R166: RMB, SMB, BBR and BBS complete. RMB and SMB write the zero-page byte back with bit `b`
cleared or set and every other bit as read. BBR and BBS read the byte and branch when the bit is 0 or 1, by the signed offset
from the address after the 3-byte instruction, for 1 cycle more, 2 when the page changes. No flag and nothing else changes. -/
def Obligations.ZeroPageBitInstructions : Prop :=
  ∀ (s : State) (b : Fin 8) (z rr : Byte) (i : Instr) (bit : Bool),
    let m := (s.memRead (zext16 z)).val
    (((i = .rmb b z ∧ bit = false) ∨ (i = .smb b z ∧ bit = true)) →
      ∃ t v, exec i s = .next t ∧ sameButBus s t ∧ stored s t (zext16 z) v ∧
        ∀ k, k < 8 → v.getLsbD k = if k = b.val then bit else m.getLsbD k) ∧
    (((i = .bbr b z rr ∧ bit = false) ∨ (i = .bbs b z rr ∧ bit = true)) →
      ∃ (u : State) (target : Word), sameButReads s u ∧ (target.toNat : Int) = ((s.pc.toNat : Int) + rr.toInt) % 65536 ∧
        (m.getLsbD b.val = bit → exec i s = .next { u with
          pc := target
          clockticks := s.clockticks + if target.toNat / 256 = s.pc.toNat / 256 then 1 else 2 }) ∧
        (m.getLsbD b.val ≠ bit → exec i s = .next u))

/-- Derived from R370, R371, R372, R373: NOP, UNDEF and, under the `nop` policy, JAM complete and change nothing; under the
`halt` policy JAM sets `halted` and nothing else. The bytes they consume and their cycles are the step's. The spec's decisions
D5, D6 and D20. -/
def Obligations.NopsAndJam : Prop :=
  ∀ (s : State) (op : Byte) (o : Pad),
    exec (.nop op o) s = .next s ∧ exec (.undef op o) s = .next s ∧
    (s.cfg.jamPolicy = .nop → exec (.jam op) s = .next s) ∧
    (s.cfg.jamPolicy = .halt → exec (.jam op) s = .next { s with halted := true })

/-- Derived from R79, R80, R81, R82, R168, R270, R271, R285, R404, R408: every instruction, in every form, completes, and its
bus events after its fetch are exactly those `instrEvents` names, in that order, each with its address and byte, whatever
takes the access. Beyond the resolver's pointer reads, an instruction that reads makes one read of its effective address, one
that stores one write of its byte, one that modifies one read and then one write of the new byte at the same address; a push
is one write, a pull one read, BRK three writes and the two vector reads. A register, immediate, branch, NOP or UNDEF form
makes none: that an immediate is read once, by the fetch, is log 9. A port access does not reach the bus; a port write calls
the callback when the effective output changes. The operand is the byte at the effective address, or the immediate. The single
accesses are the spec's decision (D19), the event log is the model's own (log 8). -/
def Obligations.InstructionsMakeExactlyTheirAccesses : Prop :=
  (∀ (s : State) (i : Instr), ∃ t, exec i s = .next t ∧ t.busLog = s.busLog ++ instrEvents i s) ∧
  ∀ (s : State) (o : Addr) (c : Byte),
    (operand (.mem o) s).val = ((resolve o s).st.memRead (resolve o s).val.ea).val ∧
    (operand (.imm c) s).val = c ∧ (operand (.imm c) s).st = s

/-! ## Whole-machine rules over all instructions -/

/-- Derived from R35: every instruction completes, and one that R35 does not name as a writer of a flag leaves that flag. The
list is the spec's own, assembled from its family rules. -/
def Obligations.OnlyTheNamedInstructionsWriteAFlag : Prop :=
  ∀ (s : State) (i : Instr), ∃ t, exec i s = .next t ∧
    ∀ f, mayWriteFlag s.cfg f i = false → getFlag t.p f = getFlag s.p f

/-- Derived from R39, R40, R46, R280, R420 and D34: no instruction changes the configuration, PPC, the interrupt latches and
mode, the port's pins and callback, the running total, `has_reset` or the profiling counters; only CLI, PLP and RTI change
inhibit, only JAM changes `halted`. -/
def Obligations.InstructionsLeaveTheControlState : Prop :=
  ∀ (s : State) (i : Instr), ∃ t, exec i s = .next t ∧
    t.cfg = s.cfg ∧ t.ppc = s.ppc ∧ t.ppcWritten = s.ppcWritten ∧ t.irqPending = s.irqPending ∧ t.nmiPending = s.nmiPending ∧
    t.irqMode = s.irqMode ∧ t.portPins = s.portPins ∧ t.portCallback = s.portCallback ∧
    t.clocktickstotal = s.clocktickstotal ∧ t.hasReset = s.hasReset ∧ t.profile = s.profile ∧
    (i ≠ .cli → i ≠ .plp → i ≠ .rti → t.inhibit = s.inhibit) ∧ ((∀ op, i ≠ .jam op) → t.halted = s.halted)

/-! ## The step (60_exceptions.md, 70_reset_and_hazards.md) -/

/-- Derived from R450 (with R71 for what a read answers): what `reset()` leaves, on any state. PC is the word at the masked
reset vector, low byte first; those are its only bus accesses; the port is re-initialised on M6510; `irq_mode`, PPC, the
callback registration, the profiling counters, memory and the configuration are unchanged. The spec's decisions D12 and D33
are in it. -/
def Obligations.ResetLeavesTheSpecifiedState : Prop :=
  ∀ s : State,
    let t := s.hostReset
    let lo := s.cfg.addrMask &&& 0xFFFC#16
    let hi := s.cfg.addrMask &&& 0xFFFD#16
    t.a = 0x00#8 ∧ t.x = 0x00#8 ∧ t.y = 0x00#8 ∧ t.sp = 0xFF#8 ∧ t.p = 0x26#8 ∧
    t.irqPending = false ∧ t.nmiPending = false ∧ t.inhibit = 0 ∧ t.halted = false ∧ t.clocktickstotal = 0 ∧
    t.clockticks = 6 ∧ t.hasReset = true ∧
    (s.cfg.variant = .m6510 → t.portDdr = 0x00#8 ∧ t.portLatch = 0x00#8 ∧ t.portPins = 0xFF#8) ∧
    (s.cfg.variant ≠ .m6510 → t.portDdr = s.portDdr ∧ t.portLatch = s.portLatch ∧ t.portPins = s.portPins) ∧
    t.irqMode = s.irqMode ∧ t.ppc = s.ppc ∧ t.portCallback = s.portCallback ∧ t.profile = s.profile ∧ t.mem = s.mem ∧
    t.cfg = s.cfg ∧
    ∃ l h : Got Byte, l = s.resetPort.memRead lo ∧ h = l.st.memRead hi ∧ t.pc = wordOf h.val l.val ∧
      t.busLog = (if s.isPort (s.busAddr lo) then [] else [.read (s.busAddr lo) l.val]) ++
        (if s.isPort (s.busAddr hi) then [] else [.read (s.busAddr hi) h.val])

/-- Derived from R36, R46, R53, R480: the invariant holds right after reset. It rests on the model's reset configuration and
memory (log 1, 2). -/
def Obligations.ResetStateMeetsTheInvariant : Prop := Inv State.reset

/-- Derived from R36, R46, R54, R480 and the canonical form of memory (log 2): every step keeps the invariant, whatever
variant, configuration, memory and registers. -/
def Obligations.StepKeepsTheInvariant : Prop :=
  ∀ s t : State, Inv s → step s = .next t → Inv t

/-- R40: no step, no run and no host call changes the configuration, the variant in it. -/
def Obligations.ConfigurationNeverChanges : Prop :=
  ∀ s : State,
    (∀ t, step s = .next t → t.cfg = s.cfg) ∧
    (∀ n d t, runFor n s = .next (d, t) → t.cfg = s.cfg) ∧
    s.hostReset.cfg = s.cfg ∧ s.assertIrq.cfg = s.cfg ∧ s.assertNmi.cfg = s.cfg ∧ s.clearPendingInterrupt.cfg = s.cfg ∧
    (∀ m, (s.setIrqMode m).cfg = s.cfg) ∧ (∀ r v, (s.setReg r v).cfg = s.cfg) ∧ (∀ v, (s.setPc v).cfg = s.cfg) ∧
    (∀ z, (s.getTotal z).2.cfg = s.cfg) ∧ (∀ v, (s.setPortPins v).cfg = s.cfg) ∧
    (∀ b, (s.setPortCallback b).cfg = s.cfg) ∧ s.resetProfile.cfg = s.cfg

/-- Derived from R400, R410 and R87: after a reset every step runs to completion: no step faults, none is refused. -/
def Obligations.EveryStepCompletesAfterReset : Prop :=
  ∀ s : State, s.hasReset = true → ∃ t, step s = .next t ∧ t.hasReset = true

/-- Derived from R52: construction leaves `has_reset` false and reset sets it; while it is false a step, a run and every
register read of the host are refused. The refusal is the spec's decision (D31). -/
def Obligations.NothingRunsBeforeReset : Prop :=
  (∀ (cfg : Config) (mem : Memory), (State.construct cfg mem).hasReset = false) ∧ (∀ s : State, s.hostReset.hasReset = true) ∧
  ∀ s : State, s.hasReset = false →
    step s = .refused .notReset ∧ (∀ n, runFor n s = .refused .notReset) ∧
    (∀ r, s.getReg r = .error .notReset) ∧ s.getPc = .error .notReset ∧ s.getPpc = .error .notReset

/-- Derived from R400 steps 5 to 8, R114, R475, R476, R480: with no interrupt to take and no halt, a step fetches, runs the
decoded instruction, and then charges its base count and page-cross cycle, accounts them and counts the deferral down. The
page cross (R150, R167) is the resolver's answer for the instruction's memory operand, in the state after the fetch, and false
without one; that the step computes it there is log 10. -/
def Obligations.StepRunsTheDecodedInstruction : Prop :=
  ∀ (s : State) (i : Instr), s.hasReset = true → s.halted = false → s.nmiPending = false → s.irqRecognised = false →
    let f := ({ s with clockticks := 0, busLog := [] } : State).fetchInstr
    (∃ rest, decode s.cfg.variant [f.op, f.b1, f.b2] = .ok (i, rest)) → WellFormed s.cfg.variant i = true →
    let crossed := ((memOperand i).map fun o => (resolve o f.st).val.crossed).getD false
    f.crossed = crossed ∧
    ∃ t, exec i f.st = .next t ∧
      let cycles := t.clockticks + baseCycles s.cfg f.op + if crossed = true ∧ pagePenalty s.cfg f.op = true then 1 else 0
      let total := s.clocktickstotal + cycles
      step s = .next { t with
        clockticks := cycles
        clocktickstotal := if overCeiling s.cfg.cycleCeiling total then 0 else total
        inhibit := t.inhibit - 1 }

/-- Derived from R86, R111, R150, R39, R431: fetching advances PC by exactly the opcode's length and sets PPC to the opcode's
address plus 1; where the bytes are plain memory it reads exactly those bytes, in order, counts the opcode where counters are
present, and changes nothing else. -/
def Obligations.FetchReadsTheInstructionBytes : Prop :=
  ∀ s : State,
    let f := s.fetchInstr
    let len := lengthOf s.cfg.variant f.op
    let at' (k : Nat) : Nat := s.busAddr (s.pc + BitVec.ofNat 16 k)
    f.st.pc = s.pc + BitVec.ofNat 16 len ∧ f.st.ppc = s.pc + 1#16 ∧
    ((∀ k, k < 3 → s.isPlain (at' k)) →
      f.op = s.byteAt (at' 0) ∧ f.b1 = (if len ≥ 2 then s.byteAt (at' 1) else 0#8) ∧
      f.b2 = (if len ≥ 3 then s.byteAt (at' 2) else 0#8) ∧
      f.st = { s with
        pc := f.st.pc
        ppc := f.st.ppc
        ppcWritten := true
        profile := if s.cfg.profiling then Cells.set 0 s.profile f.op.toNat (Cells.get 0 s.profile f.op.toNat + 1) else s.profile
        busLog := s.busLog ++ ((List.range len).map fun k => .read (at' k) (s.byteAt (at' k))) })

/-- Derived from R54: while halted a step returns 0 cycles and changes nothing (the step's own event log, the model's, is
empty; log 8), no interrupt is taken, and `run_for` returns; reset clears it. The halted state is the spec's decision (D6). -/
def Obligations.HaltedCoreDoesNothing : Prop :=
  ∀ s : State, s.hasReset = true → s.halted = true →
    step s = .next { s with clockticks := 0, busLog := [] } ∧
    (∀ n : Int, 0 < n → runFor n s = .next (0, { s with clockticks := 0, busLog := [] })) ∧ s.hostReset.halted = false

/-- Derived from R405, R406: `assert_nmi` sets the latch, a second one before service is lost. A pending NMI is taken before
anything else, whatever I and inhibit are: the latch clears, PC and P (Break 0, Unused 1) are pushed, I is set, PC comes from
$FFFA, the step costs 7 cycles and counts the deferral down; D, PPC and a pending IRQ stay as they are. Every detail of the
NMI is the spec's choice (D10). -/
def Obligations.NmiIsTakenFirst : Prop :=
  ∀ s : State, s.assertNmi = { s with nmiPending := true } ∧ s.assertNmi.assertNmi = s.assertNmi ∧
    (s.hasReset = true → s.halted = false → s.nmiPending = true →
      ∃ u pp, entered { s with nmiPending := false, clockticks := 0, busLog := [] } u 0xFFFA#16 pp ∧
        writesFlags s.p pp [(.b, false), (.u, true)] ∧
        step s = .next { u with
          clockticks := 7
          inhibit := s.inhibit - 1
          clocktickstotal := if overCeiling s.cfg.cycleCeiling (s.clocktickstotal + 7) then 0 else s.clocktickstotal + 7 })

/-- Derived from R403, R404, R405: without an NMI, an IRQ is taken exactly when it is pending, inhibit is 0 and I is 0, at the
vector $FFFE, for 7 cycles; pulse mode clears the latch, hold mode keeps it. Otherwise, and so whenever no IRQ is pending, the
instruction at PC runs and the latch stays as it is. The pushed P and the order are the spec's resolution (C6, D13). -/
def Obligations.IrqIsTakenExactlyWhenRecognised : Prop :=
  ∀ s : State, s.hasReset = true → s.halted = false → s.nmiPending = false →
    (s.irqPending = true ∧ s.inhibit = 0 ∧ getFlag s.p .i = false →
      ∃ u pp, entered { s with clockticks := 0, busLog := [] } u 0xFFFE#16 pp ∧
        writesFlags s.p pp [(.b, false), (.u, true)] ∧
        step s = .next { u with
          irqPending := decide (s.irqMode = .hold)
          clockticks := 7
          inhibit := 0
          clocktickstotal := if overCeiling s.cfg.cycleCeiling (s.clocktickstotal + 7) then 0 else s.clocktickstotal + 7 }) ∧
    (¬(s.irqPending = true ∧ s.inhibit = 0 ∧ getFlag s.p .i = false) →
      step s = runInstr { s with clockticks := 0, busLog := [] } ∧ ∀ t, step s = .next t → t.irqPending = s.irqPending)

/-- Derived from R280, R284, R285, R289, R454: only CLI, PLP and RTI clear I, and after a step that cleared it inhibit is 1,
so the next step takes no IRQ: without an NMI it runs one instruction, whatever IRQ is pending. -/
def Obligations.OneInstructionRunsAfterIClears : Prop :=
  ∀ s t : State, step s = .next t → getFlag s.p .i = true → getFlag t.p .i = false →
    s.beginStep.fetchInstr.instr ∈ [Instr.cli, .plp, .rti] ∧ t.inhibit = 1 ∧
    (t.nmiPending = false → t.halted = false → step t.assertIrq = runInstr t.assertIrq.beginStep)

/-- Derived from R39: a step that runs an instruction leaves PPC at the address of its opcode plus 1 modulo 2^16; a step that
takes an interrupt or is halted leaves PPC alone. The spec's resolution of C1. -/
def Obligations.PpcIsTheOpcodeAddressPlusOne : Prop :=
  ∀ s t : State, step s = .next t →
    t.ppc = if s.halted = true ∨ s.nmiPending = true ∨ s.irqRecognised = true then s.ppc else s.pc + 1#16

/-- Derived from R480: every step that is not halted adds its cycles to the running total, which goes to 0 when it exceeds the
ceiling; reset does not account its 6. That the total goes to 0 is the spec's resolution (D9, D40). -/
def Obligations.TotalAccountsEveryStep : Prop :=
  ∀ s : State, s.hostReset.clocktickstotal = 0 ∧
    ∀ t, step s = .next t → s.halted = false →
      (s.cfg.cycleCeiling = none → t.clocktickstotal = s.clocktickstotal + t.clockticks) ∧
      (∀ c, s.cfg.cycleCeiling = some c →
        t.clocktickstotal =
          if s.clocktickstotal + t.clockticks > c then 0 else s.clocktickstotal + t.clockticks)

/-- Derived from R474 to R479: with the default base counts, every instruction's opcode has the base count that the Encoding
line of its rule gives it on the variant (`ruleCycles`, by operand class and mode), the page-cross penalty is taken by exactly
the opcodes R475 marks, and every step that is not halted costs 1 to 8 cycles. The base counts are the spec's from general
knowledge (D7). -/
def Obligations.PagePenaltiesAndStepCosts : Prop :=
  (∀ (cfg : Config) (i : Instr) (op : Byte), cfg.cycleOverrides = [] → opcodeOf cfg.variant i = some op →
    baseCycles cfg op = ruleCycles cfg.variant i) ∧
  (∀ (cfg : Config) (op : Byte), cfg.cycleOverrides = [] →
    (pagePenalty cfg op = true ↔ op ∈ (if cfg.variant = .cmos then
      [0x11#8, 0x19#8, 0x1D#8, 0x31#8, 0x39#8, 0x3C#8, 0x3D#8, 0x51#8, 0x59#8, 0x5D#8, 0x71#8, 0x79#8, 0x7D#8, 0xB1#8, 0xB9#8,
        0xBC#8, 0xBD#8, 0xBE#8, 0xD1#8, 0xD9#8, 0xDD#8, 0xF1#8, 0xF9#8, 0xFD#8]
    else
      [0x11#8, 0x19#8, 0x1C#8, 0x1D#8, 0x31#8, 0x39#8, 0x3C#8, 0x3D#8, 0x51#8, 0x59#8, 0x5C#8, 0x5D#8, 0x71#8, 0x79#8, 0x7C#8,
        0x7D#8, 0xB1#8, 0xB3#8, 0xB9#8, 0xBB#8, 0xBC#8, 0xBD#8, 0xBE#8, 0xBF#8, 0xD1#8, 0xD9#8, 0xDC#8, 0xDD#8, 0xF1#8, 0xF9#8,
        0xFC#8, 0xFD#8]))) ∧
  ∀ s t : State, s.cfg.cycleOverrides = [] → s.halted = false → step s = .next t → 1 ≤ t.clockticks ∧ t.clockticks ≤ 8

/-- Derived from R401: after reset `run_for(n)` returns: 0 and no step for `n <= 0`; else it runs a step, returns 0 if that
took 0 cycles, and otherwise goes on with the budget less those cycles and adds them. So its result reaches `n` and overshoots
it by at most the cycles of the last step minus 1, unless a step of 0 cycles ended it early. The cases `n <= 0` and 0 cycles
are the spec's decisions (D36, D6). -/
def Obligations.RunForReachesItsBudget : Prop :=
  ∀ (n : Int) (s : State), s.hasReset = true →
    (n ≤ 0 → runFor n s = .next (0, s)) ∧
    (0 < n → ∃ t, step s = .next t ∧
      (t.clockticks = 0 → runFor n s = .next (0, t)) ∧
      (0 < t.clockticks → ∃ d u, runFor (n - t.clockticks) t = .next (d, u) ∧ runFor n s = .next (t.clockticks + d, u))) ∧
    ∃ d t, runFor n s = .next (d, t) ∧
      (0 < n → (n ≤ (d : Int) ∧ (d : Int) ≤ n + t.clockticks - 1) ∨ ((d : Int) < n ∧ t.clockticks = 0))

/-- Derived from R420 to R425, R430 and R431: each host call as the whole state it leaves and the value it answers. A register
or PC set is read back verbatim and nothing else changes; asserting, clearing and the IRQ mode touch the latches and the mode
alone; the total reads as it was and is zeroed on request; PPC is read where a fetch has written it and refused before (I2);
the pins and the callback's registration are written alone, and the pins show on the input lines of the 6510's port; the
counters all go to 0; the disassembler's length is that of the opcode read at the address, and the read leaves the core alone.
R425 gives the port's two calls to the M6510; that they act alike on the other variants, where nothing reads the port, is the
model's choice (log 13); of the disassembler only the length is modelled (log 17). The spec's decisions D11, D29 and D32 are
in it. -/
def Obligations.HostCallsReadBack : Prop :=
  ∀ (s : State) (r : RegId) (v : Byte) (w : Word),
    (s.hasReset = true → s.getReg r = .ok (s.register r) ∧ s.getPc = .ok s.pc ∧
      (∀ r', (s.setReg r v).getReg r' = .ok (if r' = r then v else s.register r')) ∧ (s.setPc w).getPc = .ok w ∧
      (s.ppcWritten = true → s.getPpc = .ok s.ppc) ∧ (s.ppcWritten = false → s.getPpc = .error .ppcNotWritten)) ∧
    s.setReg .a v = { s with a := v } ∧ s.setReg .x v = { s with x := v } ∧ s.setReg .y v = { s with y := v } ∧
    s.setReg .p v = { s with p := v } ∧ s.setReg .s v = { s with sp := v } ∧ s.setPc w = { s with pc := w } ∧
    s.assertIrq = { s with irqPending := true } ∧ s.assertNmi = { s with nmiPending := true } ∧
    s.clearPendingInterrupt = { s with irqPending := false, nmiPending := false } ∧
    (∀ mode, s.setIrqMode mode = { s with irqMode := mode }) ∧
    s.getTotal true = (s.clocktickstotal, { s with clocktickstotal := 0 }) ∧ s.getTotal false = (s.clocktickstotal, s) ∧
    s.setPortPins v = { s with portPins := v } ∧ (∀ on, s.setPortCallback on = { s with portCallback := on }) ∧
    (s.cfg.variant = .m6510 → s.busAddr w = 1 → ∀ k, k < 8 →
      ((s.setPortPins v).memRead w).val.getLsbD k = if s.portDdr.getLsbD k then s.portLatch.getLsbD k else v.getLsbD k) ∧
    s.resetProfile = { s with profile := [] } ∧ (∀ op, s.resetProfile.profileCount op = 0) ∧
    (s.disassembledLength w).1 = lengthOf s.cfg.variant (s.memRead w).val ∧
    (s.disassembledLength w).2 = (s.memRead w).st ∧ sameButReads s (s.disassembledLength w).2
end

