-- ==== Sys2Proof/Laws/Memory.lean ====
section
/-! SUPPORT. Sparse data in canonical form: a read after a write, and that every write keeps the form (log 2). -/

namespace Sys2Proof.Machine

variable {α : Type} {d : α}

@[simp] theorem Cells.get_nil (d : α) (a : Nat) : Cells.get d [] a = d := rfl

/-! ## Reads after writes -/

theorem Cells.get_erase_self (m : Cells α) (a : Nat) : Cells.get d (Cells.erase m a) a = d := by
  induction m with
  | nil => rfl
  | cons c m ih => by_cases h : c.1 = a <;> simp [Cells.erase, Cells.get, h, ih]

theorem Cells.get_erase_of_ne (m : Cells α) {a b : Nat} (h : b ≠ a) : Cells.get d (Cells.erase m a) b = Cells.get d m b := by
  induction m with
  | nil => rfl
  | cons c m ih =>
    by_cases hc : c.1 = a
    · simp [Cells.erase, Cells.get, hc, h.symm, ih]
    · by_cases hb : c.1 = b <;> simp [Cells.erase, Cells.get, hc, hb, h, ih]

theorem Cells.get_insert_self {m : Cells α} {a : Nat} (h : ∀ c ∈ m, c.1 ≠ a) (v : α) :
    Cells.get d (Cells.insert m a v) a = v := by
  induction m with
  | nil => simp [Cells.insert, Cells.get]
  | cons c m ih =>
    by_cases hlt : a < c.1
    · simp [Cells.insert, Cells.get, hlt]
    · simpa [Cells.insert, Cells.get, hlt, h c (by simp)] using ih fun e he => h e (by simp [he])

theorem Cells.get_insert_of_ne (m : Cells α) {a b : Nat} (h : b ≠ a) (v : α) :
    Cells.get d (Cells.insert m a v) b = Cells.get d m b := by
  induction m with
  | nil => simp [Cells.insert, Cells.get, h.symm]
  | cons c m ih =>
    by_cases hlt : a < c.1
    · simp [Cells.insert, Cells.get, hlt, h.symm]
    · simp [Cells.insert, Cells.get, hlt, ih]

theorem Cells.ne_of_mem_erase {m : Cells α} {a : Nat} : ∀ c ∈ Cells.erase m a, c.1 ≠ a := by
  induction m with
  | nil => simp [Cells.erase]
  | cons c m ih => by_cases h : c.1 = a <;> simpa [Cells.erase, h] using ih

theorem Cells.mem_of_mem_erase {m : Cells α} {a : Nat} {c : Nat × α} (h : c ∈ Cells.erase m a) : c ∈ m := by
  induction m with
  | nil => simp [Cells.erase] at h
  | cons e m ih =>
    by_cases he : e.1 = a
    · exact List.mem_cons_of_mem _ (ih (by simpa [Cells.erase, he] using h))
    · simp only [Cells.erase, he, if_false, List.mem_cons] at h ⊢
      exact h.imp id ih

theorem Cells.mem_insert {m : Cells α} {a : Nat} {v : α} {c : Nat × α} (h : c ∈ Cells.insert m a v) : c = (a, v) ∨ c ∈ m := by
  induction m with
  | nil => simpa [Cells.insert] using h
  | cons e m ih =>
    by_cases hlt : a < e.1
    · simpa [Cells.insert, hlt] using h
    · simp only [Cells.insert, hlt, if_false, List.mem_cons] at h ⊢
      rcases h with h | h
      · exact .inr (.inl h)
      · exact (ih h).imp id .inr

variable [DecidableEq α]

/-- What was written is read, in every list. -/
theorem Cells.get_set_self (m : Cells α) (a : Nat) (v : α) : Cells.get d (Cells.set d m a v) a = v := by
  by_cases hv : v = d
  · simpa [Cells.set, hv] using Cells.get_erase_self m a
  · simpa [Cells.set, hv] using Cells.get_insert_self Cells.ne_of_mem_erase v

/-- A write leaves every other key as it was. -/
theorem Cells.get_set_of_ne (m : Cells α) {a b : Nat} (h : b ≠ a) (v : α) :
    Cells.get d (Cells.set d m a v) b = Cells.get d m b := by
  by_cases hv : v = d
  · simpa [Cells.set, hv] using Cells.get_erase_of_ne m h
  · simpa [Cells.set, hv, Cells.get_insert_of_ne _ h] using Cells.get_erase_of_ne m h

/-- A write lists no key but the one written and those listed before. -/
theorem Cells.mem_set {m : Cells α} {a : Nat} {v : α} {c : Nat × α} (h : c ∈ Cells.set d m a v) : c.1 = a ∨ c ∈ m := by
  by_cases hv : v = d
  · exact .inr (Cells.mem_of_mem_erase (by simpa [Cells.set, hv] using h))
  · rcases Cells.mem_insert (by simpa [Cells.set, hv] using h) with rfl | h
    · exact .inl rfl
    · exact .inr (Cells.mem_of_mem_erase h)

/-! ## The canonical form -/

theorem Cells.wfFrom_cons {lo : Nat} {c : Nat × α} {m : Cells α} :
    Cells.wfFrom d lo (c :: m) = true ↔ lo ≤ c.1 ∧ c.2 ≠ d ∧ Cells.wfFrom d (c.1 + 1) m = true := by
  simp [Cells.wfFrom, and_assoc]

/-- A list canonical from a bound is canonical from every lower bound. -/
theorem Cells.wfFrom_mono {lo lo' : Nat} (h : lo' ≤ lo) {m : Cells α} (hm : Cells.wfFrom d lo m = true) :
    Cells.wfFrom d lo' m = true := by
  cases m with
  | nil => rfl
  | cons c m =>
    rw [Cells.wfFrom_cons] at hm ⊢
    exact ⟨le_trans h hm.1, hm.2⟩

theorem Cells.wfFrom_erase {lo : Nat} {m : Cells α} (hm : Cells.wfFrom d lo m = true) (a : Nat) :
    Cells.wfFrom d lo (Cells.erase m a) = true := by
  induction m generalizing lo with
  | nil => rfl
  | cons c m ih =>
    obtain ⟨h1, h2, h3⟩ := Cells.wfFrom_cons.mp hm
    by_cases h : c.1 = a
    · simpa [Cells.erase, h] using Cells.wfFrom_mono (by omega) (ih h3)
    · simpa [Cells.erase, h] using Cells.wfFrom_cons.mpr ⟨h1, h2, ih h3⟩

theorem Cells.wfFrom_insert {lo a : Nat} (ha : lo ≤ a) {v : α} (hv : v ≠ d) {m : Cells α}
    (hm : Cells.wfFrom d lo m = true) (hne : ∀ c ∈ m, c.1 ≠ a) : Cells.wfFrom d lo (Cells.insert m a v) = true := by
  induction m generalizing lo with
  | nil => simp [Cells.insert, Cells.wfFrom, ha, hv]
  | cons c m ih =>
    obtain ⟨h1, h2, h3⟩ := Cells.wfFrom_cons.mp hm
    have hc := hne c (by simp)
    by_cases hlt : a < c.1
    · simp [Cells.insert, hlt, Cells.wfFrom_cons, ha, hv, h2, h3]
    · simpa [Cells.insert, hlt, Cells.wfFrom_cons, h1, h2] using
        ih (by omega) h3 fun e he => hne e (by simp [he])

/-- A write keeps the canonical form. -/
theorem Cells.wf_set {m : Cells α} (hm : Cells.wf d m = true) (a : Nat) (v : α) : Cells.wf d (Cells.set d m a v) = true := by
  by_cases hv : v = d
  · simpa [Cells.set, Cells.wf, hv] using Cells.wfFrom_erase hm a
  · simpa [Cells.set, Cells.wf, hv] using
      Cells.wfFrom_insert (Nat.zero_le a) hv (Cells.wfFrom_erase hm a) Cells.ne_of_mem_erase

/-! ## The backing array -/

theorem Memory.wf_write {m : Memory} (hm : m.wf = true) (a : Nat) (v : Byte) : (m.write a v).wf = true := Cells.wf_set hm a v

@[simp] theorem Memory.read_write_self (m : Memory) (a : Nat) (v : Byte) : (m.write a v).read a = v := Cells.get_set_self m a v

theorem Memory.read_write_of_ne (m : Memory) {a b : Nat} (h : b ≠ a) (v : Byte) : (m.write a v).read b = m.read b :=
  Cells.get_set_of_ne m h v

/-- Memory right after reset is in canonical form. -/
theorem reset_mem_wf : State.reset.mem.wf = true := rfl

end Sys2Proof.Machine
end

