-- ==== Sys2Proof/Laws/State.lean ====
section
/-! SUPPORT. What each update of State leaves in each field: one lemma per field per update, so that no later proof unfolds a
record update. The first group is true by computation; the second are updates with a case distinction; the third are the bus
and operand operations, which touch only the fields named in their definitions. -/

namespace Sys2Proof.Machine

variable (s : State)

/-! ### logEvent -/

@[simp] theorem State.logEvent_cfg (e : BusEvent) : (s.logEvent e).cfg = s.cfg := rfl
@[simp] theorem State.logEvent_a (e : BusEvent) : (s.logEvent e).a = s.a := rfl
@[simp] theorem State.logEvent_x (e : BusEvent) : (s.logEvent e).x = s.x := rfl
@[simp] theorem State.logEvent_y (e : BusEvent) : (s.logEvent e).y = s.y := rfl
@[simp] theorem State.logEvent_sp (e : BusEvent) : (s.logEvent e).sp = s.sp := rfl
@[simp] theorem State.logEvent_p (e : BusEvent) : (s.logEvent e).p = s.p := rfl
@[simp] theorem State.logEvent_pc (e : BusEvent) : (s.logEvent e).pc = s.pc := rfl
@[simp] theorem State.logEvent_ppc (e : BusEvent) : (s.logEvent e).ppc = s.ppc := rfl
@[simp] theorem State.logEvent_ppcWritten (e : BusEvent) : (s.logEvent e).ppcWritten = s.ppcWritten := rfl
@[simp] theorem State.logEvent_clockticks (e : BusEvent) : (s.logEvent e).clockticks = s.clockticks := rfl
@[simp] theorem State.logEvent_clocktickstotal (e : BusEvent) : (s.logEvent e).clocktickstotal = s.clocktickstotal := rfl
@[simp] theorem State.logEvent_irqPending (e : BusEvent) : (s.logEvent e).irqPending = s.irqPending := rfl
@[simp] theorem State.logEvent_irqMode (e : BusEvent) : (s.logEvent e).irqMode = s.irqMode := rfl
@[simp] theorem State.logEvent_inhibit (e : BusEvent) : (s.logEvent e).inhibit = s.inhibit := rfl
@[simp] theorem State.logEvent_nmiPending (e : BusEvent) : (s.logEvent e).nmiPending = s.nmiPending := rfl
@[simp] theorem State.logEvent_portDdr (e : BusEvent) : (s.logEvent e).portDdr = s.portDdr := rfl
@[simp] theorem State.logEvent_portLatch (e : BusEvent) : (s.logEvent e).portLatch = s.portLatch := rfl
@[simp] theorem State.logEvent_portPins (e : BusEvent) : (s.logEvent e).portPins = s.portPins := rfl
@[simp] theorem State.logEvent_portCallback (e : BusEvent) : (s.logEvent e).portCallback = s.portCallback := rfl
@[simp] theorem State.logEvent_hasReset (e : BusEvent) : (s.logEvent e).hasReset = s.hasReset := rfl
@[simp] theorem State.logEvent_halted (e : BusEvent) : (s.logEvent e).halted = s.halted := rfl
@[simp] theorem State.logEvent_mem (e : BusEvent) : (s.logEvent e).mem = s.mem := rfl
@[simp] theorem State.logEvent_profile (e : BusEvent) : (s.logEvent e).profile = s.profile := rfl
@[simp] theorem State.logEvent_oracle (e : BusEvent) : (s.logEvent e).oracle = s.oracle := rfl
@[simp] theorem State.logEvent_busLog (e : BusEvent) : (s.logEvent e).busLog = s.busLog ++ [e] := rfl

/-! ### setP -/

@[simp] theorem State.setP_cfg (q : Byte) : (s.setP q).cfg = s.cfg := rfl
@[simp] theorem State.setP_a (q : Byte) : (s.setP q).a = s.a := rfl
@[simp] theorem State.setP_x (q : Byte) : (s.setP q).x = s.x := rfl
@[simp] theorem State.setP_y (q : Byte) : (s.setP q).y = s.y := rfl
@[simp] theorem State.setP_sp (q : Byte) : (s.setP q).sp = s.sp := rfl
@[simp] theorem State.setP_p (q : Byte) : (s.setP q).p = q := rfl
@[simp] theorem State.setP_pc (q : Byte) : (s.setP q).pc = s.pc := rfl
@[simp] theorem State.setP_ppc (q : Byte) : (s.setP q).ppc = s.ppc := rfl
@[simp] theorem State.setP_ppcWritten (q : Byte) : (s.setP q).ppcWritten = s.ppcWritten := rfl
@[simp] theorem State.setP_clockticks (q : Byte) : (s.setP q).clockticks = s.clockticks := rfl
@[simp] theorem State.setP_clocktickstotal (q : Byte) : (s.setP q).clocktickstotal = s.clocktickstotal := rfl
@[simp] theorem State.setP_irqPending (q : Byte) : (s.setP q).irqPending = s.irqPending := rfl
@[simp] theorem State.setP_irqMode (q : Byte) : (s.setP q).irqMode = s.irqMode := rfl
@[simp] theorem State.setP_inhibit (q : Byte) : (s.setP q).inhibit = s.inhibit := rfl
@[simp] theorem State.setP_nmiPending (q : Byte) : (s.setP q).nmiPending = s.nmiPending := rfl
@[simp] theorem State.setP_portDdr (q : Byte) : (s.setP q).portDdr = s.portDdr := rfl
@[simp] theorem State.setP_portLatch (q : Byte) : (s.setP q).portLatch = s.portLatch := rfl
@[simp] theorem State.setP_portPins (q : Byte) : (s.setP q).portPins = s.portPins := rfl
@[simp] theorem State.setP_portCallback (q : Byte) : (s.setP q).portCallback = s.portCallback := rfl
@[simp] theorem State.setP_hasReset (q : Byte) : (s.setP q).hasReset = s.hasReset := rfl
@[simp] theorem State.setP_halted (q : Byte) : (s.setP q).halted = s.halted := rfl
@[simp] theorem State.setP_mem (q : Byte) : (s.setP q).mem = s.mem := rfl
@[simp] theorem State.setP_profile (q : Byte) : (s.setP q).profile = s.profile := rfl
@[simp] theorem State.setP_oracle (q : Byte) : (s.setP q).oracle = s.oracle := rfl
@[simp] theorem State.setP_busLog (q : Byte) : (s.setP q).busLog = s.busLog := rfl

/-! ### loadA -/

@[simp] theorem State.loadA_cfg (v : Byte) : (s.loadA v).cfg = s.cfg := rfl
@[simp] theorem State.loadA_a (v : Byte) : (s.loadA v).a = v := rfl
@[simp] theorem State.loadA_x (v : Byte) : (s.loadA v).x = s.x := rfl
@[simp] theorem State.loadA_y (v : Byte) : (s.loadA v).y = s.y := rfl
@[simp] theorem State.loadA_sp (v : Byte) : (s.loadA v).sp = s.sp := rfl
@[simp] theorem State.loadA_p (v : Byte) : (s.loadA v).p = setNZ s.p v := rfl
@[simp] theorem State.loadA_pc (v : Byte) : (s.loadA v).pc = s.pc := rfl
@[simp] theorem State.loadA_ppc (v : Byte) : (s.loadA v).ppc = s.ppc := rfl
@[simp] theorem State.loadA_ppcWritten (v : Byte) : (s.loadA v).ppcWritten = s.ppcWritten := rfl
@[simp] theorem State.loadA_clockticks (v : Byte) : (s.loadA v).clockticks = s.clockticks := rfl
@[simp] theorem State.loadA_clocktickstotal (v : Byte) : (s.loadA v).clocktickstotal = s.clocktickstotal := rfl
@[simp] theorem State.loadA_irqPending (v : Byte) : (s.loadA v).irqPending = s.irqPending := rfl
@[simp] theorem State.loadA_irqMode (v : Byte) : (s.loadA v).irqMode = s.irqMode := rfl
@[simp] theorem State.loadA_inhibit (v : Byte) : (s.loadA v).inhibit = s.inhibit := rfl
@[simp] theorem State.loadA_nmiPending (v : Byte) : (s.loadA v).nmiPending = s.nmiPending := rfl
@[simp] theorem State.loadA_portDdr (v : Byte) : (s.loadA v).portDdr = s.portDdr := rfl
@[simp] theorem State.loadA_portLatch (v : Byte) : (s.loadA v).portLatch = s.portLatch := rfl
@[simp] theorem State.loadA_portPins (v : Byte) : (s.loadA v).portPins = s.portPins := rfl
@[simp] theorem State.loadA_portCallback (v : Byte) : (s.loadA v).portCallback = s.portCallback := rfl
@[simp] theorem State.loadA_hasReset (v : Byte) : (s.loadA v).hasReset = s.hasReset := rfl
@[simp] theorem State.loadA_halted (v : Byte) : (s.loadA v).halted = s.halted := rfl
@[simp] theorem State.loadA_mem (v : Byte) : (s.loadA v).mem = s.mem := rfl
@[simp] theorem State.loadA_profile (v : Byte) : (s.loadA v).profile = s.profile := rfl
@[simp] theorem State.loadA_oracle (v : Byte) : (s.loadA v).oracle = s.oracle := rfl
@[simp] theorem State.loadA_busLog (v : Byte) : (s.loadA v).busLog = s.busLog := rfl

/-! ### loadX -/

@[simp] theorem State.loadX_cfg (v : Byte) : (s.loadX v).cfg = s.cfg := rfl
@[simp] theorem State.loadX_a (v : Byte) : (s.loadX v).a = s.a := rfl
@[simp] theorem State.loadX_x (v : Byte) : (s.loadX v).x = v := rfl
@[simp] theorem State.loadX_y (v : Byte) : (s.loadX v).y = s.y := rfl
@[simp] theorem State.loadX_sp (v : Byte) : (s.loadX v).sp = s.sp := rfl
@[simp] theorem State.loadX_p (v : Byte) : (s.loadX v).p = setNZ s.p v := rfl
@[simp] theorem State.loadX_pc (v : Byte) : (s.loadX v).pc = s.pc := rfl
@[simp] theorem State.loadX_ppc (v : Byte) : (s.loadX v).ppc = s.ppc := rfl
@[simp] theorem State.loadX_ppcWritten (v : Byte) : (s.loadX v).ppcWritten = s.ppcWritten := rfl
@[simp] theorem State.loadX_clockticks (v : Byte) : (s.loadX v).clockticks = s.clockticks := rfl
@[simp] theorem State.loadX_clocktickstotal (v : Byte) : (s.loadX v).clocktickstotal = s.clocktickstotal := rfl
@[simp] theorem State.loadX_irqPending (v : Byte) : (s.loadX v).irqPending = s.irqPending := rfl
@[simp] theorem State.loadX_irqMode (v : Byte) : (s.loadX v).irqMode = s.irqMode := rfl
@[simp] theorem State.loadX_inhibit (v : Byte) : (s.loadX v).inhibit = s.inhibit := rfl
@[simp] theorem State.loadX_nmiPending (v : Byte) : (s.loadX v).nmiPending = s.nmiPending := rfl
@[simp] theorem State.loadX_portDdr (v : Byte) : (s.loadX v).portDdr = s.portDdr := rfl
@[simp] theorem State.loadX_portLatch (v : Byte) : (s.loadX v).portLatch = s.portLatch := rfl
@[simp] theorem State.loadX_portPins (v : Byte) : (s.loadX v).portPins = s.portPins := rfl
@[simp] theorem State.loadX_portCallback (v : Byte) : (s.loadX v).portCallback = s.portCallback := rfl
@[simp] theorem State.loadX_hasReset (v : Byte) : (s.loadX v).hasReset = s.hasReset := rfl
@[simp] theorem State.loadX_halted (v : Byte) : (s.loadX v).halted = s.halted := rfl
@[simp] theorem State.loadX_mem (v : Byte) : (s.loadX v).mem = s.mem := rfl
@[simp] theorem State.loadX_profile (v : Byte) : (s.loadX v).profile = s.profile := rfl
@[simp] theorem State.loadX_oracle (v : Byte) : (s.loadX v).oracle = s.oracle := rfl
@[simp] theorem State.loadX_busLog (v : Byte) : (s.loadX v).busLog = s.busLog := rfl

/-! ### loadY -/

@[simp] theorem State.loadY_cfg (v : Byte) : (s.loadY v).cfg = s.cfg := rfl
@[simp] theorem State.loadY_a (v : Byte) : (s.loadY v).a = s.a := rfl
@[simp] theorem State.loadY_x (v : Byte) : (s.loadY v).x = s.x := rfl
@[simp] theorem State.loadY_y (v : Byte) : (s.loadY v).y = v := rfl
@[simp] theorem State.loadY_sp (v : Byte) : (s.loadY v).sp = s.sp := rfl
@[simp] theorem State.loadY_p (v : Byte) : (s.loadY v).p = setNZ s.p v := rfl
@[simp] theorem State.loadY_pc (v : Byte) : (s.loadY v).pc = s.pc := rfl
@[simp] theorem State.loadY_ppc (v : Byte) : (s.loadY v).ppc = s.ppc := rfl
@[simp] theorem State.loadY_ppcWritten (v : Byte) : (s.loadY v).ppcWritten = s.ppcWritten := rfl
@[simp] theorem State.loadY_clockticks (v : Byte) : (s.loadY v).clockticks = s.clockticks := rfl
@[simp] theorem State.loadY_clocktickstotal (v : Byte) : (s.loadY v).clocktickstotal = s.clocktickstotal := rfl
@[simp] theorem State.loadY_irqPending (v : Byte) : (s.loadY v).irqPending = s.irqPending := rfl
@[simp] theorem State.loadY_irqMode (v : Byte) : (s.loadY v).irqMode = s.irqMode := rfl
@[simp] theorem State.loadY_inhibit (v : Byte) : (s.loadY v).inhibit = s.inhibit := rfl
@[simp] theorem State.loadY_nmiPending (v : Byte) : (s.loadY v).nmiPending = s.nmiPending := rfl
@[simp] theorem State.loadY_portDdr (v : Byte) : (s.loadY v).portDdr = s.portDdr := rfl
@[simp] theorem State.loadY_portLatch (v : Byte) : (s.loadY v).portLatch = s.portLatch := rfl
@[simp] theorem State.loadY_portPins (v : Byte) : (s.loadY v).portPins = s.portPins := rfl
@[simp] theorem State.loadY_portCallback (v : Byte) : (s.loadY v).portCallback = s.portCallback := rfl
@[simp] theorem State.loadY_hasReset (v : Byte) : (s.loadY v).hasReset = s.hasReset := rfl
@[simp] theorem State.loadY_halted (v : Byte) : (s.loadY v).halted = s.halted := rfl
@[simp] theorem State.loadY_mem (v : Byte) : (s.loadY v).mem = s.mem := rfl
@[simp] theorem State.loadY_profile (v : Byte) : (s.loadY v).profile = s.profile := rfl
@[simp] theorem State.loadY_oracle (v : Byte) : (s.loadY v).oracle = s.oracle := rfl
@[simp] theorem State.loadY_busLog (v : Byte) : (s.loadY v).busLog = s.busLog := rfl

/-! ### addCycles -/

@[simp] theorem State.addCycles_cfg (n : Nat) : (s.addCycles n).cfg = s.cfg := rfl
@[simp] theorem State.addCycles_a (n : Nat) : (s.addCycles n).a = s.a := rfl
@[simp] theorem State.addCycles_x (n : Nat) : (s.addCycles n).x = s.x := rfl
@[simp] theorem State.addCycles_y (n : Nat) : (s.addCycles n).y = s.y := rfl
@[simp] theorem State.addCycles_sp (n : Nat) : (s.addCycles n).sp = s.sp := rfl
@[simp] theorem State.addCycles_p (n : Nat) : (s.addCycles n).p = s.p := rfl
@[simp] theorem State.addCycles_pc (n : Nat) : (s.addCycles n).pc = s.pc := rfl
@[simp] theorem State.addCycles_ppc (n : Nat) : (s.addCycles n).ppc = s.ppc := rfl
@[simp] theorem State.addCycles_ppcWritten (n : Nat) : (s.addCycles n).ppcWritten = s.ppcWritten := rfl
@[simp] theorem State.addCycles_clockticks (n : Nat) : (s.addCycles n).clockticks = s.clockticks + n := rfl
@[simp] theorem State.addCycles_clocktickstotal (n : Nat) : (s.addCycles n).clocktickstotal = s.clocktickstotal := rfl
@[simp] theorem State.addCycles_irqPending (n : Nat) : (s.addCycles n).irqPending = s.irqPending := rfl
@[simp] theorem State.addCycles_irqMode (n : Nat) : (s.addCycles n).irqMode = s.irqMode := rfl
@[simp] theorem State.addCycles_inhibit (n : Nat) : (s.addCycles n).inhibit = s.inhibit := rfl
@[simp] theorem State.addCycles_nmiPending (n : Nat) : (s.addCycles n).nmiPending = s.nmiPending := rfl
@[simp] theorem State.addCycles_portDdr (n : Nat) : (s.addCycles n).portDdr = s.portDdr := rfl
@[simp] theorem State.addCycles_portLatch (n : Nat) : (s.addCycles n).portLatch = s.portLatch := rfl
@[simp] theorem State.addCycles_portPins (n : Nat) : (s.addCycles n).portPins = s.portPins := rfl
@[simp] theorem State.addCycles_portCallback (n : Nat) : (s.addCycles n).portCallback = s.portCallback := rfl
@[simp] theorem State.addCycles_hasReset (n : Nat) : (s.addCycles n).hasReset = s.hasReset := rfl
@[simp] theorem State.addCycles_halted (n : Nat) : (s.addCycles n).halted = s.halted := rfl
@[simp] theorem State.addCycles_mem (n : Nat) : (s.addCycles n).mem = s.mem := rfl
@[simp] theorem State.addCycles_profile (n : Nat) : (s.addCycles n).profile = s.profile := rfl
@[simp] theorem State.addCycles_oracle (n : Nat) : (s.addCycles n).oracle = s.oracle := rfl
@[simp] theorem State.addCycles_busLog (n : Nat) : (s.addCycles n).busLog = s.busLog := rfl

/-! ### account -/

@[simp] theorem State.account_cfg : (s.account).cfg = s.cfg := rfl
@[simp] theorem State.account_a : (s.account).a = s.a := rfl
@[simp] theorem State.account_x : (s.account).x = s.x := rfl
@[simp] theorem State.account_y : (s.account).y = s.y := rfl
@[simp] theorem State.account_sp : (s.account).sp = s.sp := rfl
@[simp] theorem State.account_p : (s.account).p = s.p := rfl
@[simp] theorem State.account_pc : (s.account).pc = s.pc := rfl
@[simp] theorem State.account_ppc : (s.account).ppc = s.ppc := rfl
@[simp] theorem State.account_ppcWritten : (s.account).ppcWritten = s.ppcWritten := rfl
@[simp] theorem State.account_clockticks : (s.account).clockticks = s.clockticks := rfl
@[simp] theorem State.account_irqPending : (s.account).irqPending = s.irqPending := rfl
@[simp] theorem State.account_irqMode : (s.account).irqMode = s.irqMode := rfl
@[simp] theorem State.account_inhibit : (s.account).inhibit = s.inhibit := rfl
@[simp] theorem State.account_nmiPending : (s.account).nmiPending = s.nmiPending := rfl
@[simp] theorem State.account_portDdr : (s.account).portDdr = s.portDdr := rfl
@[simp] theorem State.account_portLatch : (s.account).portLatch = s.portLatch := rfl
@[simp] theorem State.account_portPins : (s.account).portPins = s.portPins := rfl
@[simp] theorem State.account_portCallback : (s.account).portCallback = s.portCallback := rfl
@[simp] theorem State.account_hasReset : (s.account).hasReset = s.hasReset := rfl
@[simp] theorem State.account_halted : (s.account).halted = s.halted := rfl
@[simp] theorem State.account_mem : (s.account).mem = s.mem := rfl
@[simp] theorem State.account_profile : (s.account).profile = s.profile := rfl
@[simp] theorem State.account_oracle : (s.account).oracle = s.oracle := rfl
@[simp] theorem State.account_busLog : (s.account).busLog = s.busLog := rfl

/-! ### decInhibit -/

@[simp] theorem State.decInhibit_cfg : (s.decInhibit).cfg = s.cfg := rfl
@[simp] theorem State.decInhibit_a : (s.decInhibit).a = s.a := rfl
@[simp] theorem State.decInhibit_x : (s.decInhibit).x = s.x := rfl
@[simp] theorem State.decInhibit_y : (s.decInhibit).y = s.y := rfl
@[simp] theorem State.decInhibit_sp : (s.decInhibit).sp = s.sp := rfl
@[simp] theorem State.decInhibit_p : (s.decInhibit).p = s.p := rfl
@[simp] theorem State.decInhibit_pc : (s.decInhibit).pc = s.pc := rfl
@[simp] theorem State.decInhibit_ppc : (s.decInhibit).ppc = s.ppc := rfl
@[simp] theorem State.decInhibit_ppcWritten : (s.decInhibit).ppcWritten = s.ppcWritten := rfl
@[simp] theorem State.decInhibit_clockticks : (s.decInhibit).clockticks = s.clockticks := rfl
@[simp] theorem State.decInhibit_clocktickstotal : (s.decInhibit).clocktickstotal = s.clocktickstotal := rfl
@[simp] theorem State.decInhibit_irqPending : (s.decInhibit).irqPending = s.irqPending := rfl
@[simp] theorem State.decInhibit_irqMode : (s.decInhibit).irqMode = s.irqMode := rfl
@[simp] theorem State.decInhibit_inhibit : (s.decInhibit).inhibit = s.inhibit - 1 := rfl
@[simp] theorem State.decInhibit_nmiPending : (s.decInhibit).nmiPending = s.nmiPending := rfl
@[simp] theorem State.decInhibit_portDdr : (s.decInhibit).portDdr = s.portDdr := rfl
@[simp] theorem State.decInhibit_portLatch : (s.decInhibit).portLatch = s.portLatch := rfl
@[simp] theorem State.decInhibit_portPins : (s.decInhibit).portPins = s.portPins := rfl
@[simp] theorem State.decInhibit_portCallback : (s.decInhibit).portCallback = s.portCallback := rfl
@[simp] theorem State.decInhibit_hasReset : (s.decInhibit).hasReset = s.hasReset := rfl
@[simp] theorem State.decInhibit_halted : (s.decInhibit).halted = s.halted := rfl
@[simp] theorem State.decInhibit_mem : (s.decInhibit).mem = s.mem := rfl
@[simp] theorem State.decInhibit_profile : (s.decInhibit).profile = s.profile := rfl
@[simp] theorem State.decInhibit_oracle : (s.decInhibit).oracle = s.oracle := rfl
@[simp] theorem State.decInhibit_busLog : (s.decInhibit).busLog = s.busLog := rfl

/-! ### beginStep -/

@[simp] theorem State.beginStep_cfg : (s.beginStep).cfg = s.cfg := rfl
@[simp] theorem State.beginStep_a : (s.beginStep).a = s.a := rfl
@[simp] theorem State.beginStep_x : (s.beginStep).x = s.x := rfl
@[simp] theorem State.beginStep_y : (s.beginStep).y = s.y := rfl
@[simp] theorem State.beginStep_sp : (s.beginStep).sp = s.sp := rfl
@[simp] theorem State.beginStep_p : (s.beginStep).p = s.p := rfl
@[simp] theorem State.beginStep_pc : (s.beginStep).pc = s.pc := rfl
@[simp] theorem State.beginStep_ppc : (s.beginStep).ppc = s.ppc := rfl
@[simp] theorem State.beginStep_ppcWritten : (s.beginStep).ppcWritten = s.ppcWritten := rfl
@[simp] theorem State.beginStep_clockticks : (s.beginStep).clockticks = 0 := rfl
@[simp] theorem State.beginStep_clocktickstotal : (s.beginStep).clocktickstotal = s.clocktickstotal := rfl
@[simp] theorem State.beginStep_irqPending : (s.beginStep).irqPending = s.irqPending := rfl
@[simp] theorem State.beginStep_irqMode : (s.beginStep).irqMode = s.irqMode := rfl
@[simp] theorem State.beginStep_inhibit : (s.beginStep).inhibit = s.inhibit := rfl
@[simp] theorem State.beginStep_nmiPending : (s.beginStep).nmiPending = s.nmiPending := rfl
@[simp] theorem State.beginStep_portDdr : (s.beginStep).portDdr = s.portDdr := rfl
@[simp] theorem State.beginStep_portLatch : (s.beginStep).portLatch = s.portLatch := rfl
@[simp] theorem State.beginStep_portPins : (s.beginStep).portPins = s.portPins := rfl
@[simp] theorem State.beginStep_portCallback : (s.beginStep).portCallback = s.portCallback := rfl
@[simp] theorem State.beginStep_hasReset : (s.beginStep).hasReset = s.hasReset := rfl
@[simp] theorem State.beginStep_halted : (s.beginStep).halted = s.halted := rfl
@[simp] theorem State.beginStep_mem : (s.beginStep).mem = s.mem := rfl
@[simp] theorem State.beginStep_profile : (s.beginStep).profile = s.profile := rfl
@[simp] theorem State.beginStep_oracle : (s.beginStep).oracle = s.oracle := rfl
@[simp] theorem State.beginStep_busLog : (s.beginStep).busLog = [] := rfl

/-! ### recordPpc -/

@[simp] theorem State.recordPpc_cfg : (s.recordPpc).cfg = s.cfg := rfl
@[simp] theorem State.recordPpc_a : (s.recordPpc).a = s.a := rfl
@[simp] theorem State.recordPpc_x : (s.recordPpc).x = s.x := rfl
@[simp] theorem State.recordPpc_y : (s.recordPpc).y = s.y := rfl
@[simp] theorem State.recordPpc_sp : (s.recordPpc).sp = s.sp := rfl
@[simp] theorem State.recordPpc_p : (s.recordPpc).p = s.p := rfl
@[simp] theorem State.recordPpc_pc : (s.recordPpc).pc = s.pc := rfl
@[simp] theorem State.recordPpc_ppc : (s.recordPpc).ppc = s.pc := rfl
@[simp] theorem State.recordPpc_ppcWritten : (s.recordPpc).ppcWritten = true := rfl
@[simp] theorem State.recordPpc_clockticks : (s.recordPpc).clockticks = s.clockticks := rfl
@[simp] theorem State.recordPpc_clocktickstotal : (s.recordPpc).clocktickstotal = s.clocktickstotal := rfl
@[simp] theorem State.recordPpc_irqPending : (s.recordPpc).irqPending = s.irqPending := rfl
@[simp] theorem State.recordPpc_irqMode : (s.recordPpc).irqMode = s.irqMode := rfl
@[simp] theorem State.recordPpc_inhibit : (s.recordPpc).inhibit = s.inhibit := rfl
@[simp] theorem State.recordPpc_nmiPending : (s.recordPpc).nmiPending = s.nmiPending := rfl
@[simp] theorem State.recordPpc_portDdr : (s.recordPpc).portDdr = s.portDdr := rfl
@[simp] theorem State.recordPpc_portLatch : (s.recordPpc).portLatch = s.portLatch := rfl
@[simp] theorem State.recordPpc_portPins : (s.recordPpc).portPins = s.portPins := rfl
@[simp] theorem State.recordPpc_portCallback : (s.recordPpc).portCallback = s.portCallback := rfl
@[simp] theorem State.recordPpc_hasReset : (s.recordPpc).hasReset = s.hasReset := rfl
@[simp] theorem State.recordPpc_halted : (s.recordPpc).halted = s.halted := rfl
@[simp] theorem State.recordPpc_mem : (s.recordPpc).mem = s.mem := rfl
@[simp] theorem State.recordPpc_profile : (s.recordPpc).profile = s.profile := rfl
@[simp] theorem State.recordPpc_oracle : (s.recordPpc).oracle = s.oracle := rfl
@[simp] theorem State.recordPpc_busLog : (s.recordPpc).busLog = s.busLog := rfl

/-! ### armDeferral -/

@[simp] theorem State.armDeferral_cfg (b : Bool) : (s.armDeferral b).cfg = s.cfg := by
  unfold State.armDeferral; split <;> rfl
@[simp] theorem State.armDeferral_a (b : Bool) : (s.armDeferral b).a = s.a := by
  unfold State.armDeferral; split <;> rfl
@[simp] theorem State.armDeferral_x (b : Bool) : (s.armDeferral b).x = s.x := by
  unfold State.armDeferral; split <;> rfl
@[simp] theorem State.armDeferral_y (b : Bool) : (s.armDeferral b).y = s.y := by
  unfold State.armDeferral; split <;> rfl
@[simp] theorem State.armDeferral_sp (b : Bool) : (s.armDeferral b).sp = s.sp := by
  unfold State.armDeferral; split <;> rfl
@[simp] theorem State.armDeferral_p (b : Bool) : (s.armDeferral b).p = s.p := by
  unfold State.armDeferral; split <;> rfl
@[simp] theorem State.armDeferral_pc (b : Bool) : (s.armDeferral b).pc = s.pc := by
  unfold State.armDeferral; split <;> rfl
@[simp] theorem State.armDeferral_ppc (b : Bool) : (s.armDeferral b).ppc = s.ppc := by
  unfold State.armDeferral; split <;> rfl
@[simp] theorem State.armDeferral_ppcWritten (b : Bool) : (s.armDeferral b).ppcWritten = s.ppcWritten := by
  unfold State.armDeferral; split <;> rfl
@[simp] theorem State.armDeferral_clockticks (b : Bool) : (s.armDeferral b).clockticks = s.clockticks := by
  unfold State.armDeferral; split <;> rfl
@[simp] theorem State.armDeferral_clocktickstotal (b : Bool) : (s.armDeferral b).clocktickstotal = s.clocktickstotal := by
  unfold State.armDeferral; split <;> rfl
@[simp] theorem State.armDeferral_irqPending (b : Bool) : (s.armDeferral b).irqPending = s.irqPending := by
  unfold State.armDeferral; split <;> rfl
@[simp] theorem State.armDeferral_irqMode (b : Bool) : (s.armDeferral b).irqMode = s.irqMode := by
  unfold State.armDeferral; split <;> rfl
@[simp] theorem State.armDeferral_nmiPending (b : Bool) : (s.armDeferral b).nmiPending = s.nmiPending := by
  unfold State.armDeferral; split <;> rfl
@[simp] theorem State.armDeferral_portDdr (b : Bool) : (s.armDeferral b).portDdr = s.portDdr := by
  unfold State.armDeferral; split <;> rfl
@[simp] theorem State.armDeferral_portLatch (b : Bool) : (s.armDeferral b).portLatch = s.portLatch := by
  unfold State.armDeferral; split <;> rfl
@[simp] theorem State.armDeferral_portPins (b : Bool) : (s.armDeferral b).portPins = s.portPins := by
  unfold State.armDeferral; split <;> rfl
@[simp] theorem State.armDeferral_portCallback (b : Bool) : (s.armDeferral b).portCallback = s.portCallback := by
  unfold State.armDeferral; split <;> rfl
@[simp] theorem State.armDeferral_hasReset (b : Bool) : (s.armDeferral b).hasReset = s.hasReset := by
  unfold State.armDeferral; split <;> rfl
@[simp] theorem State.armDeferral_halted (b : Bool) : (s.armDeferral b).halted = s.halted := by
  unfold State.armDeferral; split <;> rfl
@[simp] theorem State.armDeferral_mem (b : Bool) : (s.armDeferral b).mem = s.mem := by
  unfold State.armDeferral; split <;> rfl
@[simp] theorem State.armDeferral_profile (b : Bool) : (s.armDeferral b).profile = s.profile := by
  unfold State.armDeferral; split <;> rfl
@[simp] theorem State.armDeferral_oracle (b : Bool) : (s.armDeferral b).oracle = s.oracle := by
  unfold State.armDeferral; split <;> rfl
@[simp] theorem State.armDeferral_busLog (b : Bool) : (s.armDeferral b).busLog = s.busLog := by
  unfold State.armDeferral; split <;> rfl

/-! ### branch -/

@[simp] theorem State.branch_cfg (c : Bool) (w : Word) : (s.branch c w).cfg = s.cfg := by
  unfold State.branch; split <;> rfl
@[simp] theorem State.branch_a (c : Bool) (w : Word) : (s.branch c w).a = s.a := by
  unfold State.branch; split <;> rfl
@[simp] theorem State.branch_x (c : Bool) (w : Word) : (s.branch c w).x = s.x := by
  unfold State.branch; split <;> rfl
@[simp] theorem State.branch_y (c : Bool) (w : Word) : (s.branch c w).y = s.y := by
  unfold State.branch; split <;> rfl
@[simp] theorem State.branch_sp (c : Bool) (w : Word) : (s.branch c w).sp = s.sp := by
  unfold State.branch; split <;> rfl
@[simp] theorem State.branch_p (c : Bool) (w : Word) : (s.branch c w).p = s.p := by
  unfold State.branch; split <;> rfl
@[simp] theorem State.branch_ppc (c : Bool) (w : Word) : (s.branch c w).ppc = s.ppc := by
  unfold State.branch; split <;> rfl
@[simp] theorem State.branch_ppcWritten (c : Bool) (w : Word) : (s.branch c w).ppcWritten = s.ppcWritten := by
  unfold State.branch; split <;> rfl
@[simp] theorem State.branch_clocktickstotal (c : Bool) (w : Word) : (s.branch c w).clocktickstotal = s.clocktickstotal := by
  unfold State.branch; split <;> rfl
@[simp] theorem State.branch_irqPending (c : Bool) (w : Word) : (s.branch c w).irqPending = s.irqPending := by
  unfold State.branch; split <;> rfl
@[simp] theorem State.branch_irqMode (c : Bool) (w : Word) : (s.branch c w).irqMode = s.irqMode := by
  unfold State.branch; split <;> rfl
@[simp] theorem State.branch_inhibit (c : Bool) (w : Word) : (s.branch c w).inhibit = s.inhibit := by
  unfold State.branch; split <;> rfl
@[simp] theorem State.branch_nmiPending (c : Bool) (w : Word) : (s.branch c w).nmiPending = s.nmiPending := by
  unfold State.branch; split <;> rfl
@[simp] theorem State.branch_portDdr (c : Bool) (w : Word) : (s.branch c w).portDdr = s.portDdr := by
  unfold State.branch; split <;> rfl
@[simp] theorem State.branch_portLatch (c : Bool) (w : Word) : (s.branch c w).portLatch = s.portLatch := by
  unfold State.branch; split <;> rfl
@[simp] theorem State.branch_portPins (c : Bool) (w : Word) : (s.branch c w).portPins = s.portPins := by
  unfold State.branch; split <;> rfl
@[simp] theorem State.branch_portCallback (c : Bool) (w : Word) : (s.branch c w).portCallback = s.portCallback := by
  unfold State.branch; split <;> rfl
@[simp] theorem State.branch_hasReset (c : Bool) (w : Word) : (s.branch c w).hasReset = s.hasReset := by
  unfold State.branch; split <;> rfl
@[simp] theorem State.branch_halted (c : Bool) (w : Word) : (s.branch c w).halted = s.halted := by
  unfold State.branch; split <;> rfl
@[simp] theorem State.branch_mem (c : Bool) (w : Word) : (s.branch c w).mem = s.mem := by
  unfold State.branch; split <;> rfl
@[simp] theorem State.branch_profile (c : Bool) (w : Word) : (s.branch c w).profile = s.profile := by
  unfold State.branch; split <;> rfl
@[simp] theorem State.branch_oracle (c : Bool) (w : Word) : (s.branch c w).oracle = s.oracle := by
  unfold State.branch; split <;> rfl
@[simp] theorem State.branch_busLog (c : Bool) (w : Word) : (s.branch c w).busLog = s.busLog := by
  unfold State.branch; split <;> rfl

/-! ### acknowledgeIrq -/

@[simp] theorem State.acknowledgeIrq_cfg : (s.acknowledgeIrq).cfg = s.cfg := by
  unfold State.acknowledgeIrq; split <;> rfl
@[simp] theorem State.acknowledgeIrq_a : (s.acknowledgeIrq).a = s.a := by
  unfold State.acknowledgeIrq; split <;> rfl
@[simp] theorem State.acknowledgeIrq_x : (s.acknowledgeIrq).x = s.x := by
  unfold State.acknowledgeIrq; split <;> rfl
@[simp] theorem State.acknowledgeIrq_y : (s.acknowledgeIrq).y = s.y := by
  unfold State.acknowledgeIrq; split <;> rfl
@[simp] theorem State.acknowledgeIrq_sp : (s.acknowledgeIrq).sp = s.sp := by
  unfold State.acknowledgeIrq; split <;> rfl
@[simp] theorem State.acknowledgeIrq_p : (s.acknowledgeIrq).p = s.p := by
  unfold State.acknowledgeIrq; split <;> rfl
@[simp] theorem State.acknowledgeIrq_pc : (s.acknowledgeIrq).pc = s.pc := by
  unfold State.acknowledgeIrq; split <;> rfl
@[simp] theorem State.acknowledgeIrq_ppc : (s.acknowledgeIrq).ppc = s.ppc := by
  unfold State.acknowledgeIrq; split <;> rfl
@[simp] theorem State.acknowledgeIrq_ppcWritten : (s.acknowledgeIrq).ppcWritten = s.ppcWritten := by
  unfold State.acknowledgeIrq; split <;> rfl
@[simp] theorem State.acknowledgeIrq_clockticks : (s.acknowledgeIrq).clockticks = s.clockticks := by
  unfold State.acknowledgeIrq; split <;> rfl
@[simp] theorem State.acknowledgeIrq_clocktickstotal : (s.acknowledgeIrq).clocktickstotal = s.clocktickstotal := by
  unfold State.acknowledgeIrq; split <;> rfl
@[simp] theorem State.acknowledgeIrq_irqMode : (s.acknowledgeIrq).irqMode = s.irqMode := by
  unfold State.acknowledgeIrq; split <;> rfl
@[simp] theorem State.acknowledgeIrq_inhibit : (s.acknowledgeIrq).inhibit = s.inhibit := by
  unfold State.acknowledgeIrq; split <;> rfl
@[simp] theorem State.acknowledgeIrq_nmiPending : (s.acknowledgeIrq).nmiPending = s.nmiPending := by
  unfold State.acknowledgeIrq; split <;> rfl
@[simp] theorem State.acknowledgeIrq_portDdr : (s.acknowledgeIrq).portDdr = s.portDdr := by
  unfold State.acknowledgeIrq; split <;> rfl
@[simp] theorem State.acknowledgeIrq_portLatch : (s.acknowledgeIrq).portLatch = s.portLatch := by
  unfold State.acknowledgeIrq; split <;> rfl
@[simp] theorem State.acknowledgeIrq_portPins : (s.acknowledgeIrq).portPins = s.portPins := by
  unfold State.acknowledgeIrq; split <;> rfl
@[simp] theorem State.acknowledgeIrq_portCallback : (s.acknowledgeIrq).portCallback = s.portCallback := by
  unfold State.acknowledgeIrq; split <;> rfl
@[simp] theorem State.acknowledgeIrq_hasReset : (s.acknowledgeIrq).hasReset = s.hasReset := by
  unfold State.acknowledgeIrq; split <;> rfl
@[simp] theorem State.acknowledgeIrq_halted : (s.acknowledgeIrq).halted = s.halted := by
  unfold State.acknowledgeIrq; split <;> rfl
@[simp] theorem State.acknowledgeIrq_mem : (s.acknowledgeIrq).mem = s.mem := by
  unfold State.acknowledgeIrq; split <;> rfl
@[simp] theorem State.acknowledgeIrq_profile : (s.acknowledgeIrq).profile = s.profile := by
  unfold State.acknowledgeIrq; split <;> rfl
@[simp] theorem State.acknowledgeIrq_oracle : (s.acknowledgeIrq).oracle = s.oracle := by
  unfold State.acknowledgeIrq; split <;> rfl
@[simp] theorem State.acknowledgeIrq_busLog : (s.acknowledgeIrq).busLog = s.busLog := by
  unfold State.acknowledgeIrq; split <;> rfl

/-! ### countOpcode -/

@[simp] theorem State.countOpcode_cfg (op : Byte) : (s.countOpcode op).cfg = s.cfg := by
  unfold State.countOpcode; split <;> rfl
@[simp] theorem State.countOpcode_a (op : Byte) : (s.countOpcode op).a = s.a := by
  unfold State.countOpcode; split <;> rfl
@[simp] theorem State.countOpcode_x (op : Byte) : (s.countOpcode op).x = s.x := by
  unfold State.countOpcode; split <;> rfl
@[simp] theorem State.countOpcode_y (op : Byte) : (s.countOpcode op).y = s.y := by
  unfold State.countOpcode; split <;> rfl
@[simp] theorem State.countOpcode_sp (op : Byte) : (s.countOpcode op).sp = s.sp := by
  unfold State.countOpcode; split <;> rfl
@[simp] theorem State.countOpcode_p (op : Byte) : (s.countOpcode op).p = s.p := by
  unfold State.countOpcode; split <;> rfl
@[simp] theorem State.countOpcode_pc (op : Byte) : (s.countOpcode op).pc = s.pc := by
  unfold State.countOpcode; split <;> rfl
@[simp] theorem State.countOpcode_ppc (op : Byte) : (s.countOpcode op).ppc = s.ppc := by
  unfold State.countOpcode; split <;> rfl
@[simp] theorem State.countOpcode_ppcWritten (op : Byte) : (s.countOpcode op).ppcWritten = s.ppcWritten := by
  unfold State.countOpcode; split <;> rfl
@[simp] theorem State.countOpcode_clockticks (op : Byte) : (s.countOpcode op).clockticks = s.clockticks := by
  unfold State.countOpcode; split <;> rfl
@[simp] theorem State.countOpcode_clocktickstotal (op : Byte) : (s.countOpcode op).clocktickstotal = s.clocktickstotal := by
  unfold State.countOpcode; split <;> rfl
@[simp] theorem State.countOpcode_irqPending (op : Byte) : (s.countOpcode op).irqPending = s.irqPending := by
  unfold State.countOpcode; split <;> rfl
@[simp] theorem State.countOpcode_irqMode (op : Byte) : (s.countOpcode op).irqMode = s.irqMode := by
  unfold State.countOpcode; split <;> rfl
@[simp] theorem State.countOpcode_inhibit (op : Byte) : (s.countOpcode op).inhibit = s.inhibit := by
  unfold State.countOpcode; split <;> rfl
@[simp] theorem State.countOpcode_nmiPending (op : Byte) : (s.countOpcode op).nmiPending = s.nmiPending := by
  unfold State.countOpcode; split <;> rfl
@[simp] theorem State.countOpcode_portDdr (op : Byte) : (s.countOpcode op).portDdr = s.portDdr := by
  unfold State.countOpcode; split <;> rfl
@[simp] theorem State.countOpcode_portLatch (op : Byte) : (s.countOpcode op).portLatch = s.portLatch := by
  unfold State.countOpcode; split <;> rfl
@[simp] theorem State.countOpcode_portPins (op : Byte) : (s.countOpcode op).portPins = s.portPins := by
  unfold State.countOpcode; split <;> rfl
@[simp] theorem State.countOpcode_portCallback (op : Byte) : (s.countOpcode op).portCallback = s.portCallback := by
  unfold State.countOpcode; split <;> rfl
@[simp] theorem State.countOpcode_hasReset (op : Byte) : (s.countOpcode op).hasReset = s.hasReset := by
  unfold State.countOpcode; split <;> rfl
@[simp] theorem State.countOpcode_halted (op : Byte) : (s.countOpcode op).halted = s.halted := by
  unfold State.countOpcode; split <;> rfl
@[simp] theorem State.countOpcode_mem (op : Byte) : (s.countOpcode op).mem = s.mem := by
  unfold State.countOpcode; split <;> rfl
@[simp] theorem State.countOpcode_oracle (op : Byte) : (s.countOpcode op).oracle = s.oracle := by
  unfold State.countOpcode; split <;> rfl
@[simp] theorem State.countOpcode_busLog (op : Byte) : (s.countOpcode op).busLog = s.busLog := by
  unfold State.countOpcode; split <;> rfl

/-! ### brkClearD -/

@[simp] theorem State.brkClearD_cfg : (s.brkClearD).cfg = s.cfg := by
  unfold State.brkClearD; split <;> rfl
@[simp] theorem State.brkClearD_a : (s.brkClearD).a = s.a := by
  unfold State.brkClearD; split <;> rfl
@[simp] theorem State.brkClearD_x : (s.brkClearD).x = s.x := by
  unfold State.brkClearD; split <;> rfl
@[simp] theorem State.brkClearD_y : (s.brkClearD).y = s.y := by
  unfold State.brkClearD; split <;> rfl
@[simp] theorem State.brkClearD_sp : (s.brkClearD).sp = s.sp := by
  unfold State.brkClearD; split <;> rfl
@[simp] theorem State.brkClearD_pc : (s.brkClearD).pc = s.pc := by
  unfold State.brkClearD; split <;> rfl
@[simp] theorem State.brkClearD_ppc : (s.brkClearD).ppc = s.ppc := by
  unfold State.brkClearD; split <;> rfl
@[simp] theorem State.brkClearD_ppcWritten : (s.brkClearD).ppcWritten = s.ppcWritten := by
  unfold State.brkClearD; split <;> rfl
@[simp] theorem State.brkClearD_clockticks : (s.brkClearD).clockticks = s.clockticks := by
  unfold State.brkClearD; split <;> rfl
@[simp] theorem State.brkClearD_clocktickstotal : (s.brkClearD).clocktickstotal = s.clocktickstotal := by
  unfold State.brkClearD; split <;> rfl
@[simp] theorem State.brkClearD_irqPending : (s.brkClearD).irqPending = s.irqPending := by
  unfold State.brkClearD; split <;> rfl
@[simp] theorem State.brkClearD_irqMode : (s.brkClearD).irqMode = s.irqMode := by
  unfold State.brkClearD; split <;> rfl
@[simp] theorem State.brkClearD_inhibit : (s.brkClearD).inhibit = s.inhibit := by
  unfold State.brkClearD; split <;> rfl
@[simp] theorem State.brkClearD_nmiPending : (s.brkClearD).nmiPending = s.nmiPending := by
  unfold State.brkClearD; split <;> rfl
@[simp] theorem State.brkClearD_portDdr : (s.brkClearD).portDdr = s.portDdr := by
  unfold State.brkClearD; split <;> rfl
@[simp] theorem State.brkClearD_portLatch : (s.brkClearD).portLatch = s.portLatch := by
  unfold State.brkClearD; split <;> rfl
@[simp] theorem State.brkClearD_portPins : (s.brkClearD).portPins = s.portPins := by
  unfold State.brkClearD; split <;> rfl
@[simp] theorem State.brkClearD_portCallback : (s.brkClearD).portCallback = s.portCallback := by
  unfold State.brkClearD; split <;> rfl
@[simp] theorem State.brkClearD_hasReset : (s.brkClearD).hasReset = s.hasReset := by
  unfold State.brkClearD; split <;> rfl
@[simp] theorem State.brkClearD_halted : (s.brkClearD).halted = s.halted := by
  unfold State.brkClearD; split <;> rfl
@[simp] theorem State.brkClearD_mem : (s.brkClearD).mem = s.mem := by
  unfold State.brkClearD; split <;> rfl
@[simp] theorem State.brkClearD_profile : (s.brkClearD).profile = s.profile := by
  unfold State.brkClearD; split <;> rfl
@[simp] theorem State.brkClearD_oracle : (s.brkClearD).oracle = s.oracle := by
  unfold State.brkClearD; split <;> rfl
@[simp] theorem State.brkClearD_busLog : (s.brkClearD).busLog = s.busLog := by
  unfold State.brkClearD; split <;> rfl

/-! ### portStore -/

@[simp] theorem State.portStore_cfg (b : Nat) (v : Byte) : (s.portStore b v).cfg = s.cfg := by
  unfold State.portStore; split <;> rfl
@[simp] theorem State.portStore_a (b : Nat) (v : Byte) : (s.portStore b v).a = s.a := by
  unfold State.portStore; split <;> rfl
@[simp] theorem State.portStore_x (b : Nat) (v : Byte) : (s.portStore b v).x = s.x := by
  unfold State.portStore; split <;> rfl
@[simp] theorem State.portStore_y (b : Nat) (v : Byte) : (s.portStore b v).y = s.y := by
  unfold State.portStore; split <;> rfl
@[simp] theorem State.portStore_sp (b : Nat) (v : Byte) : (s.portStore b v).sp = s.sp := by
  unfold State.portStore; split <;> rfl
@[simp] theorem State.portStore_p (b : Nat) (v : Byte) : (s.portStore b v).p = s.p := by
  unfold State.portStore; split <;> rfl
@[simp] theorem State.portStore_pc (b : Nat) (v : Byte) : (s.portStore b v).pc = s.pc := by
  unfold State.portStore; split <;> rfl
@[simp] theorem State.portStore_ppc (b : Nat) (v : Byte) : (s.portStore b v).ppc = s.ppc := by
  unfold State.portStore; split <;> rfl
@[simp] theorem State.portStore_ppcWritten (b : Nat) (v : Byte) : (s.portStore b v).ppcWritten = s.ppcWritten := by
  unfold State.portStore; split <;> rfl
@[simp] theorem State.portStore_clockticks (b : Nat) (v : Byte) : (s.portStore b v).clockticks = s.clockticks := by
  unfold State.portStore; split <;> rfl
@[simp] theorem State.portStore_clocktickstotal (b : Nat) (v : Byte) : (s.portStore b v).clocktickstotal = s.clocktickstotal := by
  unfold State.portStore; split <;> rfl
@[simp] theorem State.portStore_irqPending (b : Nat) (v : Byte) : (s.portStore b v).irqPending = s.irqPending := by
  unfold State.portStore; split <;> rfl
@[simp] theorem State.portStore_irqMode (b : Nat) (v : Byte) : (s.portStore b v).irqMode = s.irqMode := by
  unfold State.portStore; split <;> rfl
@[simp] theorem State.portStore_inhibit (b : Nat) (v : Byte) : (s.portStore b v).inhibit = s.inhibit := by
  unfold State.portStore; split <;> rfl
@[simp] theorem State.portStore_nmiPending (b : Nat) (v : Byte) : (s.portStore b v).nmiPending = s.nmiPending := by
  unfold State.portStore; split <;> rfl
@[simp] theorem State.portStore_portPins (b : Nat) (v : Byte) : (s.portStore b v).portPins = s.portPins := by
  unfold State.portStore; split <;> rfl
@[simp] theorem State.portStore_portCallback (b : Nat) (v : Byte) : (s.portStore b v).portCallback = s.portCallback := by
  unfold State.portStore; split <;> rfl
@[simp] theorem State.portStore_hasReset (b : Nat) (v : Byte) : (s.portStore b v).hasReset = s.hasReset := by
  unfold State.portStore; split <;> rfl
@[simp] theorem State.portStore_halted (b : Nat) (v : Byte) : (s.portStore b v).halted = s.halted := by
  unfold State.portStore; split <;> rfl
@[simp] theorem State.portStore_mem (b : Nat) (v : Byte) : (s.portStore b v).mem = s.mem := by
  unfold State.portStore; split <;> rfl
@[simp] theorem State.portStore_profile (b : Nat) (v : Byte) : (s.portStore b v).profile = s.profile := by
  unfold State.portStore; split <;> rfl
@[simp] theorem State.portStore_oracle (b : Nat) (v : Byte) : (s.portStore b v).oracle = s.oracle := by
  unfold State.portStore; split <;> rfl
@[simp] theorem State.portStore_busLog (b : Nat) (v : Byte) : (s.portStore b v).busLog = s.busLog := by
  unfold State.portStore; split <;> rfl

/-! ### resetPort -/

@[simp] theorem State.resetPort_cfg : (s.resetPort).cfg = s.cfg := by
  unfold State.resetPort; split <;> rfl
@[simp] theorem State.resetPort_a : (s.resetPort).a = s.a := by
  unfold State.resetPort; split <;> rfl
@[simp] theorem State.resetPort_x : (s.resetPort).x = s.x := by
  unfold State.resetPort; split <;> rfl
@[simp] theorem State.resetPort_y : (s.resetPort).y = s.y := by
  unfold State.resetPort; split <;> rfl
@[simp] theorem State.resetPort_sp : (s.resetPort).sp = s.sp := by
  unfold State.resetPort; split <;> rfl
@[simp] theorem State.resetPort_p : (s.resetPort).p = s.p := by
  unfold State.resetPort; split <;> rfl
@[simp] theorem State.resetPort_pc : (s.resetPort).pc = s.pc := by
  unfold State.resetPort; split <;> rfl
@[simp] theorem State.resetPort_ppc : (s.resetPort).ppc = s.ppc := by
  unfold State.resetPort; split <;> rfl
@[simp] theorem State.resetPort_ppcWritten : (s.resetPort).ppcWritten = s.ppcWritten := by
  unfold State.resetPort; split <;> rfl
@[simp] theorem State.resetPort_clockticks : (s.resetPort).clockticks = s.clockticks := by
  unfold State.resetPort; split <;> rfl
@[simp] theorem State.resetPort_clocktickstotal : (s.resetPort).clocktickstotal = s.clocktickstotal := by
  unfold State.resetPort; split <;> rfl
@[simp] theorem State.resetPort_irqPending : (s.resetPort).irqPending = s.irqPending := by
  unfold State.resetPort; split <;> rfl
@[simp] theorem State.resetPort_irqMode : (s.resetPort).irqMode = s.irqMode := by
  unfold State.resetPort; split <;> rfl
@[simp] theorem State.resetPort_inhibit : (s.resetPort).inhibit = s.inhibit := by
  unfold State.resetPort; split <;> rfl
@[simp] theorem State.resetPort_nmiPending : (s.resetPort).nmiPending = s.nmiPending := by
  unfold State.resetPort; split <;> rfl
@[simp] theorem State.resetPort_portCallback : (s.resetPort).portCallback = s.portCallback := by
  unfold State.resetPort; split <;> rfl
@[simp] theorem State.resetPort_hasReset : (s.resetPort).hasReset = s.hasReset := by
  unfold State.resetPort; split <;> rfl
@[simp] theorem State.resetPort_halted : (s.resetPort).halted = s.halted := by
  unfold State.resetPort; split <;> rfl
@[simp] theorem State.resetPort_mem : (s.resetPort).mem = s.mem := by
  unfold State.resetPort; split <;> rfl
@[simp] theorem State.resetPort_profile : (s.resetPort).profile = s.profile := by
  unfold State.resetPort; split <;> rfl
@[simp] theorem State.resetPort_oracle : (s.resetPort).oracle = s.oracle := by
  unfold State.resetPort; split <;> rfl
@[simp] theorem State.resetPort_busLog : (s.resetPort).busLog = s.busLog := by
  unfold State.resetPort; split <;> rfl

/-! ### State.portWrite -/

@[simp] theorem State.portWrite_cfg (b : Nat) (v : Byte) : (s.portWrite b v).cfg = s.cfg := by
  unfold State.portWrite; dsimp only; split <;> simp
@[simp] theorem State.portWrite_a (b : Nat) (v : Byte) : (s.portWrite b v).a = s.a := by
  unfold State.portWrite; dsimp only; split <;> simp
@[simp] theorem State.portWrite_x (b : Nat) (v : Byte) : (s.portWrite b v).x = s.x := by
  unfold State.portWrite; dsimp only; split <;> simp
@[simp] theorem State.portWrite_y (b : Nat) (v : Byte) : (s.portWrite b v).y = s.y := by
  unfold State.portWrite; dsimp only; split <;> simp
@[simp] theorem State.portWrite_sp (b : Nat) (v : Byte) : (s.portWrite b v).sp = s.sp := by
  unfold State.portWrite; dsimp only; split <;> simp
@[simp] theorem State.portWrite_p (b : Nat) (v : Byte) : (s.portWrite b v).p = s.p := by
  unfold State.portWrite; dsimp only; split <;> simp
@[simp] theorem State.portWrite_pc (b : Nat) (v : Byte) : (s.portWrite b v).pc = s.pc := by
  unfold State.portWrite; dsimp only; split <;> simp
@[simp] theorem State.portWrite_ppc (b : Nat) (v : Byte) : (s.portWrite b v).ppc = s.ppc := by
  unfold State.portWrite; dsimp only; split <;> simp
@[simp] theorem State.portWrite_ppcWritten (b : Nat) (v : Byte) : (s.portWrite b v).ppcWritten = s.ppcWritten := by
  unfold State.portWrite; dsimp only; split <;> simp
@[simp] theorem State.portWrite_clockticks (b : Nat) (v : Byte) : (s.portWrite b v).clockticks = s.clockticks := by
  unfold State.portWrite; dsimp only; split <;> simp
@[simp] theorem State.portWrite_clocktickstotal (b : Nat) (v : Byte) : (s.portWrite b v).clocktickstotal = s.clocktickstotal := by
  unfold State.portWrite; dsimp only; split <;> simp
@[simp] theorem State.portWrite_irqPending (b : Nat) (v : Byte) : (s.portWrite b v).irqPending = s.irqPending := by
  unfold State.portWrite; dsimp only; split <;> simp
@[simp] theorem State.portWrite_irqMode (b : Nat) (v : Byte) : (s.portWrite b v).irqMode = s.irqMode := by
  unfold State.portWrite; dsimp only; split <;> simp
@[simp] theorem State.portWrite_inhibit (b : Nat) (v : Byte) : (s.portWrite b v).inhibit = s.inhibit := by
  unfold State.portWrite; dsimp only; split <;> simp
@[simp] theorem State.portWrite_nmiPending (b : Nat) (v : Byte) : (s.portWrite b v).nmiPending = s.nmiPending := by
  unfold State.portWrite; dsimp only; split <;> simp
@[simp] theorem State.portWrite_portPins (b : Nat) (v : Byte) : (s.portWrite b v).portPins = s.portPins := by
  unfold State.portWrite; dsimp only; split <;> simp
@[simp] theorem State.portWrite_portCallback (b : Nat) (v : Byte) : (s.portWrite b v).portCallback = s.portCallback := by
  unfold State.portWrite; dsimp only; split <;> simp
@[simp] theorem State.portWrite_hasReset (b : Nat) (v : Byte) : (s.portWrite b v).hasReset = s.hasReset := by
  unfold State.portWrite; dsimp only; split <;> simp
@[simp] theorem State.portWrite_halted (b : Nat) (v : Byte) : (s.portWrite b v).halted = s.halted := by
  unfold State.portWrite; dsimp only; split <;> simp
@[simp] theorem State.portWrite_mem (b : Nat) (v : Byte) : (s.portWrite b v).mem = s.mem := by
  unfold State.portWrite; dsimp only; split <;> simp
@[simp] theorem State.portWrite_profile (b : Nat) (v : Byte) : (s.portWrite b v).profile = s.profile := by
  unfold State.portWrite; dsimp only; split <;> simp
@[simp] theorem State.portWrite_oracle (b : Nat) (v : Byte) : (s.portWrite b v).oracle = s.oracle := by
  unfold State.portWrite; dsimp only; split <;> simp

/-! ### State.busRead -/

@[simp] theorem State.busRead_cfg (b : Nat) : ((s.busRead b).st).cfg = s.cfg := by
  unfold State.busRead; split <;> rfl
@[simp] theorem State.busRead_a (b : Nat) : ((s.busRead b).st).a = s.a := by
  unfold State.busRead; split <;> rfl
@[simp] theorem State.busRead_x (b : Nat) : ((s.busRead b).st).x = s.x := by
  unfold State.busRead; split <;> rfl
@[simp] theorem State.busRead_y (b : Nat) : ((s.busRead b).st).y = s.y := by
  unfold State.busRead; split <;> rfl
@[simp] theorem State.busRead_sp (b : Nat) : ((s.busRead b).st).sp = s.sp := by
  unfold State.busRead; split <;> rfl
@[simp] theorem State.busRead_p (b : Nat) : ((s.busRead b).st).p = s.p := by
  unfold State.busRead; split <;> rfl
@[simp] theorem State.busRead_pc (b : Nat) : ((s.busRead b).st).pc = s.pc := by
  unfold State.busRead; split <;> rfl
@[simp] theorem State.busRead_ppc (b : Nat) : ((s.busRead b).st).ppc = s.ppc := by
  unfold State.busRead; split <;> rfl
@[simp] theorem State.busRead_ppcWritten (b : Nat) : ((s.busRead b).st).ppcWritten = s.ppcWritten := by
  unfold State.busRead; split <;> rfl
@[simp] theorem State.busRead_clockticks (b : Nat) : ((s.busRead b).st).clockticks = s.clockticks := by
  unfold State.busRead; split <;> rfl
@[simp] theorem State.busRead_clocktickstotal (b : Nat) : ((s.busRead b).st).clocktickstotal = s.clocktickstotal := by
  unfold State.busRead; split <;> rfl
@[simp] theorem State.busRead_irqPending (b : Nat) : ((s.busRead b).st).irqPending = s.irqPending := by
  unfold State.busRead; split <;> rfl
@[simp] theorem State.busRead_irqMode (b : Nat) : ((s.busRead b).st).irqMode = s.irqMode := by
  unfold State.busRead; split <;> rfl
@[simp] theorem State.busRead_inhibit (b : Nat) : ((s.busRead b).st).inhibit = s.inhibit := by
  unfold State.busRead; split <;> rfl
@[simp] theorem State.busRead_nmiPending (b : Nat) : ((s.busRead b).st).nmiPending = s.nmiPending := by
  unfold State.busRead; split <;> rfl
@[simp] theorem State.busRead_portDdr (b : Nat) : ((s.busRead b).st).portDdr = s.portDdr := by
  unfold State.busRead; split <;> rfl
@[simp] theorem State.busRead_portLatch (b : Nat) : ((s.busRead b).st).portLatch = s.portLatch := by
  unfold State.busRead; split <;> rfl
@[simp] theorem State.busRead_portPins (b : Nat) : ((s.busRead b).st).portPins = s.portPins := by
  unfold State.busRead; split <;> rfl
@[simp] theorem State.busRead_portCallback (b : Nat) : ((s.busRead b).st).portCallback = s.portCallback := by
  unfold State.busRead; split <;> rfl
@[simp] theorem State.busRead_hasReset (b : Nat) : ((s.busRead b).st).hasReset = s.hasReset := by
  unfold State.busRead; split <;> rfl
@[simp] theorem State.busRead_halted (b : Nat) : ((s.busRead b).st).halted = s.halted := by
  unfold State.busRead; split <;> rfl
@[simp] theorem State.busRead_mem (b : Nat) : ((s.busRead b).st).mem = s.mem := by
  unfold State.busRead; split <;> rfl
@[simp] theorem State.busRead_profile (b : Nat) : ((s.busRead b).st).profile = s.profile := by
  unfold State.busRead; split <;> rfl

/-! ### State.busWrite -/

@[simp] theorem State.busWrite_cfg (b : Nat) (v : Byte) : (s.busWrite b v).cfg = s.cfg := by
  unfold State.busWrite; split <;> rfl
@[simp] theorem State.busWrite_a (b : Nat) (v : Byte) : (s.busWrite b v).a = s.a := by
  unfold State.busWrite; split <;> rfl
@[simp] theorem State.busWrite_x (b : Nat) (v : Byte) : (s.busWrite b v).x = s.x := by
  unfold State.busWrite; split <;> rfl
@[simp] theorem State.busWrite_y (b : Nat) (v : Byte) : (s.busWrite b v).y = s.y := by
  unfold State.busWrite; split <;> rfl
@[simp] theorem State.busWrite_sp (b : Nat) (v : Byte) : (s.busWrite b v).sp = s.sp := by
  unfold State.busWrite; split <;> rfl
@[simp] theorem State.busWrite_p (b : Nat) (v : Byte) : (s.busWrite b v).p = s.p := by
  unfold State.busWrite; split <;> rfl
@[simp] theorem State.busWrite_pc (b : Nat) (v : Byte) : (s.busWrite b v).pc = s.pc := by
  unfold State.busWrite; split <;> rfl
@[simp] theorem State.busWrite_ppc (b : Nat) (v : Byte) : (s.busWrite b v).ppc = s.ppc := by
  unfold State.busWrite; split <;> rfl
@[simp] theorem State.busWrite_ppcWritten (b : Nat) (v : Byte) : (s.busWrite b v).ppcWritten = s.ppcWritten := by
  unfold State.busWrite; split <;> rfl
@[simp] theorem State.busWrite_clockticks (b : Nat) (v : Byte) : (s.busWrite b v).clockticks = s.clockticks := by
  unfold State.busWrite; split <;> rfl
@[simp] theorem State.busWrite_clocktickstotal (b : Nat) (v : Byte) : (s.busWrite b v).clocktickstotal = s.clocktickstotal := by
  unfold State.busWrite; split <;> rfl
@[simp] theorem State.busWrite_irqPending (b : Nat) (v : Byte) : (s.busWrite b v).irqPending = s.irqPending := by
  unfold State.busWrite; split <;> rfl
@[simp] theorem State.busWrite_irqMode (b : Nat) (v : Byte) : (s.busWrite b v).irqMode = s.irqMode := by
  unfold State.busWrite; split <;> rfl
@[simp] theorem State.busWrite_inhibit (b : Nat) (v : Byte) : (s.busWrite b v).inhibit = s.inhibit := by
  unfold State.busWrite; split <;> rfl
@[simp] theorem State.busWrite_nmiPending (b : Nat) (v : Byte) : (s.busWrite b v).nmiPending = s.nmiPending := by
  unfold State.busWrite; split <;> rfl
@[simp] theorem State.busWrite_portDdr (b : Nat) (v : Byte) : (s.busWrite b v).portDdr = s.portDdr := by
  unfold State.busWrite; split <;> rfl
@[simp] theorem State.busWrite_portLatch (b : Nat) (v : Byte) : (s.busWrite b v).portLatch = s.portLatch := by
  unfold State.busWrite; split <;> rfl
@[simp] theorem State.busWrite_portPins (b : Nat) (v : Byte) : (s.busWrite b v).portPins = s.portPins := by
  unfold State.busWrite; split <;> rfl
@[simp] theorem State.busWrite_portCallback (b : Nat) (v : Byte) : (s.busWrite b v).portCallback = s.portCallback := by
  unfold State.busWrite; split <;> rfl
@[simp] theorem State.busWrite_hasReset (b : Nat) (v : Byte) : (s.busWrite b v).hasReset = s.hasReset := by
  unfold State.busWrite; split <;> rfl
@[simp] theorem State.busWrite_halted (b : Nat) (v : Byte) : (s.busWrite b v).halted = s.halted := by
  unfold State.busWrite; split <;> rfl
@[simp] theorem State.busWrite_profile (b : Nat) (v : Byte) : (s.busWrite b v).profile = s.profile := by
  unfold State.busWrite; split <;> rfl
@[simp] theorem State.busWrite_oracle (b : Nat) (v : Byte) : (s.busWrite b v).oracle = s.oracle := by
  unfold State.busWrite; split <;> rfl

/-! ### State.memRead -/

@[simp] theorem State.memRead_cfg (a : Word) : ((s.memRead a).st).cfg = s.cfg := by
  unfold State.memRead; dsimp only; split <;> simp
@[simp] theorem State.memRead_a (a : Word) : ((s.memRead a).st).a = s.a := by
  unfold State.memRead; dsimp only; split <;> simp
@[simp] theorem State.memRead_x (a : Word) : ((s.memRead a).st).x = s.x := by
  unfold State.memRead; dsimp only; split <;> simp
@[simp] theorem State.memRead_y (a : Word) : ((s.memRead a).st).y = s.y := by
  unfold State.memRead; dsimp only; split <;> simp
@[simp] theorem State.memRead_sp (a : Word) : ((s.memRead a).st).sp = s.sp := by
  unfold State.memRead; dsimp only; split <;> simp
@[simp] theorem State.memRead_p (a : Word) : ((s.memRead a).st).p = s.p := by
  unfold State.memRead; dsimp only; split <;> simp
@[simp] theorem State.memRead_pc (a : Word) : ((s.memRead a).st).pc = s.pc := by
  unfold State.memRead; dsimp only; split <;> simp
@[simp] theorem State.memRead_ppc (a : Word) : ((s.memRead a).st).ppc = s.ppc := by
  unfold State.memRead; dsimp only; split <;> simp
@[simp] theorem State.memRead_ppcWritten (a : Word) : ((s.memRead a).st).ppcWritten = s.ppcWritten := by
  unfold State.memRead; dsimp only; split <;> simp
@[simp] theorem State.memRead_clockticks (a : Word) : ((s.memRead a).st).clockticks = s.clockticks := by
  unfold State.memRead; dsimp only; split <;> simp
@[simp] theorem State.memRead_clocktickstotal (a : Word) : ((s.memRead a).st).clocktickstotal = s.clocktickstotal := by
  unfold State.memRead; dsimp only; split <;> simp
@[simp] theorem State.memRead_irqPending (a : Word) : ((s.memRead a).st).irqPending = s.irqPending := by
  unfold State.memRead; dsimp only; split <;> simp
@[simp] theorem State.memRead_irqMode (a : Word) : ((s.memRead a).st).irqMode = s.irqMode := by
  unfold State.memRead; dsimp only; split <;> simp
@[simp] theorem State.memRead_inhibit (a : Word) : ((s.memRead a).st).inhibit = s.inhibit := by
  unfold State.memRead; dsimp only; split <;> simp
@[simp] theorem State.memRead_nmiPending (a : Word) : ((s.memRead a).st).nmiPending = s.nmiPending := by
  unfold State.memRead; dsimp only; split <;> simp
@[simp] theorem State.memRead_portDdr (a : Word) : ((s.memRead a).st).portDdr = s.portDdr := by
  unfold State.memRead; dsimp only; split <;> simp
@[simp] theorem State.memRead_portLatch (a : Word) : ((s.memRead a).st).portLatch = s.portLatch := by
  unfold State.memRead; dsimp only; split <;> simp
@[simp] theorem State.memRead_portPins (a : Word) : ((s.memRead a).st).portPins = s.portPins := by
  unfold State.memRead; dsimp only; split <;> simp
@[simp] theorem State.memRead_portCallback (a : Word) : ((s.memRead a).st).portCallback = s.portCallback := by
  unfold State.memRead; dsimp only; split <;> simp
@[simp] theorem State.memRead_hasReset (a : Word) : ((s.memRead a).st).hasReset = s.hasReset := by
  unfold State.memRead; dsimp only; split <;> simp
@[simp] theorem State.memRead_halted (a : Word) : ((s.memRead a).st).halted = s.halted := by
  unfold State.memRead; dsimp only; split <;> simp
@[simp] theorem State.memRead_mem (a : Word) : ((s.memRead a).st).mem = s.mem := by
  unfold State.memRead; dsimp only; split <;> simp
@[simp] theorem State.memRead_profile (a : Word) : ((s.memRead a).st).profile = s.profile := by
  unfold State.memRead; dsimp only; split <;> simp

/-! ### State.memWrite -/

@[simp] theorem State.memWrite_cfg (a : Word) (v : Byte) : (s.memWrite a v).cfg = s.cfg := by
  unfold State.memWrite; dsimp only; split <;> simp
@[simp] theorem State.memWrite_a (a : Word) (v : Byte) : (s.memWrite a v).a = s.a := by
  unfold State.memWrite; dsimp only; split <;> simp
@[simp] theorem State.memWrite_x (a : Word) (v : Byte) : (s.memWrite a v).x = s.x := by
  unfold State.memWrite; dsimp only; split <;> simp
@[simp] theorem State.memWrite_y (a : Word) (v : Byte) : (s.memWrite a v).y = s.y := by
  unfold State.memWrite; dsimp only; split <;> simp
@[simp] theorem State.memWrite_sp (a : Word) (v : Byte) : (s.memWrite a v).sp = s.sp := by
  unfold State.memWrite; dsimp only; split <;> simp
@[simp] theorem State.memWrite_p (a : Word) (v : Byte) : (s.memWrite a v).p = s.p := by
  unfold State.memWrite; dsimp only; split <;> simp
@[simp] theorem State.memWrite_pc (a : Word) (v : Byte) : (s.memWrite a v).pc = s.pc := by
  unfold State.memWrite; dsimp only; split <;> simp
@[simp] theorem State.memWrite_ppc (a : Word) (v : Byte) : (s.memWrite a v).ppc = s.ppc := by
  unfold State.memWrite; dsimp only; split <;> simp
@[simp] theorem State.memWrite_ppcWritten (a : Word) (v : Byte) : (s.memWrite a v).ppcWritten = s.ppcWritten := by
  unfold State.memWrite; dsimp only; split <;> simp
@[simp] theorem State.memWrite_clockticks (a : Word) (v : Byte) : (s.memWrite a v).clockticks = s.clockticks := by
  unfold State.memWrite; dsimp only; split <;> simp
@[simp] theorem State.memWrite_clocktickstotal (a : Word) (v : Byte) : (s.memWrite a v).clocktickstotal = s.clocktickstotal := by
  unfold State.memWrite; dsimp only; split <;> simp
@[simp] theorem State.memWrite_irqPending (a : Word) (v : Byte) : (s.memWrite a v).irqPending = s.irqPending := by
  unfold State.memWrite; dsimp only; split <;> simp
@[simp] theorem State.memWrite_irqMode (a : Word) (v : Byte) : (s.memWrite a v).irqMode = s.irqMode := by
  unfold State.memWrite; dsimp only; split <;> simp
@[simp] theorem State.memWrite_inhibit (a : Word) (v : Byte) : (s.memWrite a v).inhibit = s.inhibit := by
  unfold State.memWrite; dsimp only; split <;> simp
@[simp] theorem State.memWrite_nmiPending (a : Word) (v : Byte) : (s.memWrite a v).nmiPending = s.nmiPending := by
  unfold State.memWrite; dsimp only; split <;> simp
@[simp] theorem State.memWrite_portPins (a : Word) (v : Byte) : (s.memWrite a v).portPins = s.portPins := by
  unfold State.memWrite; dsimp only; split <;> simp
@[simp] theorem State.memWrite_portCallback (a : Word) (v : Byte) : (s.memWrite a v).portCallback = s.portCallback := by
  unfold State.memWrite; dsimp only; split <;> simp
@[simp] theorem State.memWrite_hasReset (a : Word) (v : Byte) : (s.memWrite a v).hasReset = s.hasReset := by
  unfold State.memWrite; dsimp only; split <;> simp
@[simp] theorem State.memWrite_halted (a : Word) (v : Byte) : (s.memWrite a v).halted = s.halted := by
  unfold State.memWrite; dsimp only; split <;> simp
@[simp] theorem State.memWrite_profile (a : Word) (v : Byte) : (s.memWrite a v).profile = s.profile := by
  unfold State.memWrite; dsimp only; split <;> simp
@[simp] theorem State.memWrite_oracle (a : Word) (v : Byte) : (s.memWrite a v).oracle = s.oracle := by
  unfold State.memWrite; dsimp only; split <;> simp

/-! ### State.read16 -/

@[simp] theorem State.read16_cfg (l h : Word) : ((s.read16 l h).st).cfg = s.cfg := by
  simp [State.read16]
@[simp] theorem State.read16_a (l h : Word) : ((s.read16 l h).st).a = s.a := by
  simp [State.read16]
@[simp] theorem State.read16_x (l h : Word) : ((s.read16 l h).st).x = s.x := by
  simp [State.read16]
@[simp] theorem State.read16_y (l h : Word) : ((s.read16 l h).st).y = s.y := by
  simp [State.read16]
@[simp] theorem State.read16_sp (l h : Word) : ((s.read16 l h).st).sp = s.sp := by
  simp [State.read16]
@[simp] theorem State.read16_p (l h : Word) : ((s.read16 l h).st).p = s.p := by
  simp [State.read16]
@[simp] theorem State.read16_pc (l h : Word) : ((s.read16 l h).st).pc = s.pc := by
  simp [State.read16]
@[simp] theorem State.read16_ppc (l h : Word) : ((s.read16 l h).st).ppc = s.ppc := by
  simp [State.read16]
@[simp] theorem State.read16_ppcWritten (l h : Word) : ((s.read16 l h).st).ppcWritten = s.ppcWritten := by
  simp [State.read16]
@[simp] theorem State.read16_clockticks (l h : Word) : ((s.read16 l h).st).clockticks = s.clockticks := by
  simp [State.read16]
@[simp] theorem State.read16_clocktickstotal (l h : Word) : ((s.read16 l h).st).clocktickstotal = s.clocktickstotal := by
  simp [State.read16]
@[simp] theorem State.read16_irqPending (l h : Word) : ((s.read16 l h).st).irqPending = s.irqPending := by
  simp [State.read16]
@[simp] theorem State.read16_irqMode (l h : Word) : ((s.read16 l h).st).irqMode = s.irqMode := by
  simp [State.read16]
@[simp] theorem State.read16_inhibit (l h : Word) : ((s.read16 l h).st).inhibit = s.inhibit := by
  simp [State.read16]
@[simp] theorem State.read16_nmiPending (l h : Word) : ((s.read16 l h).st).nmiPending = s.nmiPending := by
  simp [State.read16]
@[simp] theorem State.read16_portDdr (l h : Word) : ((s.read16 l h).st).portDdr = s.portDdr := by
  simp [State.read16]
@[simp] theorem State.read16_portLatch (l h : Word) : ((s.read16 l h).st).portLatch = s.portLatch := by
  simp [State.read16]
@[simp] theorem State.read16_portPins (l h : Word) : ((s.read16 l h).st).portPins = s.portPins := by
  simp [State.read16]
@[simp] theorem State.read16_portCallback (l h : Word) : ((s.read16 l h).st).portCallback = s.portCallback := by
  simp [State.read16]
@[simp] theorem State.read16_hasReset (l h : Word) : ((s.read16 l h).st).hasReset = s.hasReset := by
  simp [State.read16]
@[simp] theorem State.read16_halted (l h : Word) : ((s.read16 l h).st).halted = s.halted := by
  simp [State.read16]
@[simp] theorem State.read16_mem (l h : Word) : ((s.read16 l h).st).mem = s.mem := by
  simp [State.read16]
@[simp] theorem State.read16_profile (l h : Word) : ((s.read16 l h).st).profile = s.profile := by
  simp [State.read16]

/-! ### State.push -/

@[simp] theorem State.push_cfg (v : Byte) : (s.push v).cfg = s.cfg := by
  simp [State.push]
@[simp] theorem State.push_a (v : Byte) : (s.push v).a = s.a := by
  simp [State.push]
@[simp] theorem State.push_x (v : Byte) : (s.push v).x = s.x := by
  simp [State.push]
@[simp] theorem State.push_y (v : Byte) : (s.push v).y = s.y := by
  simp [State.push]
@[simp] theorem State.push_p (v : Byte) : (s.push v).p = s.p := by
  simp [State.push]
@[simp] theorem State.push_pc (v : Byte) : (s.push v).pc = s.pc := by
  simp [State.push]
@[simp] theorem State.push_ppc (v : Byte) : (s.push v).ppc = s.ppc := by
  simp [State.push]
@[simp] theorem State.push_ppcWritten (v : Byte) : (s.push v).ppcWritten = s.ppcWritten := by
  simp [State.push]
@[simp] theorem State.push_clockticks (v : Byte) : (s.push v).clockticks = s.clockticks := by
  simp [State.push]
@[simp] theorem State.push_clocktickstotal (v : Byte) : (s.push v).clocktickstotal = s.clocktickstotal := by
  simp [State.push]
@[simp] theorem State.push_irqPending (v : Byte) : (s.push v).irqPending = s.irqPending := by
  simp [State.push]
@[simp] theorem State.push_irqMode (v : Byte) : (s.push v).irqMode = s.irqMode := by
  simp [State.push]
@[simp] theorem State.push_inhibit (v : Byte) : (s.push v).inhibit = s.inhibit := by
  simp [State.push]
@[simp] theorem State.push_nmiPending (v : Byte) : (s.push v).nmiPending = s.nmiPending := by
  simp [State.push]
@[simp] theorem State.push_portPins (v : Byte) : (s.push v).portPins = s.portPins := by
  simp [State.push]
@[simp] theorem State.push_portCallback (v : Byte) : (s.push v).portCallback = s.portCallback := by
  simp [State.push]
@[simp] theorem State.push_hasReset (v : Byte) : (s.push v).hasReset = s.hasReset := by
  simp [State.push]
@[simp] theorem State.push_halted (v : Byte) : (s.push v).halted = s.halted := by
  simp [State.push]
@[simp] theorem State.push_profile (v : Byte) : (s.push v).profile = s.profile := by
  simp [State.push]
@[simp] theorem State.push_oracle (v : Byte) : (s.push v).oracle = s.oracle := by
  simp [State.push]

/-! ### State.pull -/

@[simp] theorem State.pull_cfg : (s.pull.st).cfg = s.cfg := by
  simp [State.pull]
@[simp] theorem State.pull_a : (s.pull.st).a = s.a := by
  simp [State.pull]
@[simp] theorem State.pull_x : (s.pull.st).x = s.x := by
  simp [State.pull]
@[simp] theorem State.pull_y : (s.pull.st).y = s.y := by
  simp [State.pull]
@[simp] theorem State.pull_p : (s.pull.st).p = s.p := by
  simp [State.pull]
@[simp] theorem State.pull_pc : (s.pull.st).pc = s.pc := by
  simp [State.pull]
@[simp] theorem State.pull_ppc : (s.pull.st).ppc = s.ppc := by
  simp [State.pull]
@[simp] theorem State.pull_ppcWritten : (s.pull.st).ppcWritten = s.ppcWritten := by
  simp [State.pull]
@[simp] theorem State.pull_clockticks : (s.pull.st).clockticks = s.clockticks := by
  simp [State.pull]
@[simp] theorem State.pull_clocktickstotal : (s.pull.st).clocktickstotal = s.clocktickstotal := by
  simp [State.pull]
@[simp] theorem State.pull_irqPending : (s.pull.st).irqPending = s.irqPending := by
  simp [State.pull]
@[simp] theorem State.pull_irqMode : (s.pull.st).irqMode = s.irqMode := by
  simp [State.pull]
@[simp] theorem State.pull_inhibit : (s.pull.st).inhibit = s.inhibit := by
  simp [State.pull]
@[simp] theorem State.pull_nmiPending : (s.pull.st).nmiPending = s.nmiPending := by
  simp [State.pull]
@[simp] theorem State.pull_portDdr : (s.pull.st).portDdr = s.portDdr := by
  simp [State.pull]
@[simp] theorem State.pull_portLatch : (s.pull.st).portLatch = s.portLatch := by
  simp [State.pull]
@[simp] theorem State.pull_portPins : (s.pull.st).portPins = s.portPins := by
  simp [State.pull]
@[simp] theorem State.pull_portCallback : (s.pull.st).portCallback = s.portCallback := by
  simp [State.pull]
@[simp] theorem State.pull_hasReset : (s.pull.st).hasReset = s.hasReset := by
  simp [State.pull]
@[simp] theorem State.pull_halted : (s.pull.st).halted = s.halted := by
  simp [State.pull]
@[simp] theorem State.pull_mem : (s.pull.st).mem = s.mem := by
  simp [State.pull]
@[simp] theorem State.pull_profile : (s.pull.st).profile = s.profile := by
  simp [State.pull]

/-! ### State.pullWord -/

@[simp] theorem State.pullWord_cfg : (s.pullWord.st).cfg = s.cfg := by
  simp [State.pullWord]
@[simp] theorem State.pullWord_a : (s.pullWord.st).a = s.a := by
  simp [State.pullWord]
@[simp] theorem State.pullWord_x : (s.pullWord.st).x = s.x := by
  simp [State.pullWord]
@[simp] theorem State.pullWord_y : (s.pullWord.st).y = s.y := by
  simp [State.pullWord]
@[simp] theorem State.pullWord_p : (s.pullWord.st).p = s.p := by
  simp [State.pullWord]
@[simp] theorem State.pullWord_pc : (s.pullWord.st).pc = s.pc := by
  simp [State.pullWord]
@[simp] theorem State.pullWord_ppc : (s.pullWord.st).ppc = s.ppc := by
  simp [State.pullWord]
@[simp] theorem State.pullWord_ppcWritten : (s.pullWord.st).ppcWritten = s.ppcWritten := by
  simp [State.pullWord]
@[simp] theorem State.pullWord_clockticks : (s.pullWord.st).clockticks = s.clockticks := by
  simp [State.pullWord]
@[simp] theorem State.pullWord_clocktickstotal : (s.pullWord.st).clocktickstotal = s.clocktickstotal := by
  simp [State.pullWord]
@[simp] theorem State.pullWord_irqPending : (s.pullWord.st).irqPending = s.irqPending := by
  simp [State.pullWord]
@[simp] theorem State.pullWord_irqMode : (s.pullWord.st).irqMode = s.irqMode := by
  simp [State.pullWord]
@[simp] theorem State.pullWord_inhibit : (s.pullWord.st).inhibit = s.inhibit := by
  simp [State.pullWord]
@[simp] theorem State.pullWord_nmiPending : (s.pullWord.st).nmiPending = s.nmiPending := by
  simp [State.pullWord]
@[simp] theorem State.pullWord_portDdr : (s.pullWord.st).portDdr = s.portDdr := by
  simp [State.pullWord]
@[simp] theorem State.pullWord_portLatch : (s.pullWord.st).portLatch = s.portLatch := by
  simp [State.pullWord]
@[simp] theorem State.pullWord_portPins : (s.pullWord.st).portPins = s.portPins := by
  simp [State.pullWord]
@[simp] theorem State.pullWord_portCallback : (s.pullWord.st).portCallback = s.portCallback := by
  simp [State.pullWord]
@[simp] theorem State.pullWord_hasReset : (s.pullWord.st).hasReset = s.hasReset := by
  simp [State.pullWord]
@[simp] theorem State.pullWord_halted : (s.pullWord.st).halted = s.halted := by
  simp [State.pullWord]
@[simp] theorem State.pullWord_mem : (s.pullWord.st).mem = s.mem := by
  simp [State.pullWord]
@[simp] theorem State.pullWord_profile : (s.pullWord.st).profile = s.profile := by
  simp [State.pullWord]

/-! ### State.pullP -/

@[simp] theorem State.pullP_cfg : (s.pullP).cfg = s.cfg := by
  simp [State.pullP]
@[simp] theorem State.pullP_a : (s.pullP).a = s.a := by
  simp [State.pullP]
@[simp] theorem State.pullP_x : (s.pullP).x = s.x := by
  simp [State.pullP]
@[simp] theorem State.pullP_y : (s.pullP).y = s.y := by
  simp [State.pullP]
@[simp] theorem State.pullP_pc : (s.pullP).pc = s.pc := by
  simp [State.pullP]
@[simp] theorem State.pullP_ppc : (s.pullP).ppc = s.ppc := by
  simp [State.pullP]
@[simp] theorem State.pullP_ppcWritten : (s.pullP).ppcWritten = s.ppcWritten := by
  simp [State.pullP]
@[simp] theorem State.pullP_clockticks : (s.pullP).clockticks = s.clockticks := by
  simp [State.pullP]
@[simp] theorem State.pullP_clocktickstotal : (s.pullP).clocktickstotal = s.clocktickstotal := by
  simp [State.pullP]
@[simp] theorem State.pullP_irqPending : (s.pullP).irqPending = s.irqPending := by
  simp [State.pullP]
@[simp] theorem State.pullP_irqMode : (s.pullP).irqMode = s.irqMode := by
  simp [State.pullP]
@[simp] theorem State.pullP_inhibit : (s.pullP).inhibit = s.inhibit := by
  simp [State.pullP]
@[simp] theorem State.pullP_nmiPending : (s.pullP).nmiPending = s.nmiPending := by
  simp [State.pullP]
@[simp] theorem State.pullP_portDdr : (s.pullP).portDdr = s.portDdr := by
  simp [State.pullP]
@[simp] theorem State.pullP_portLatch : (s.pullP).portLatch = s.portLatch := by
  simp [State.pullP]
@[simp] theorem State.pullP_portPins : (s.pullP).portPins = s.portPins := by
  simp [State.pullP]
@[simp] theorem State.pullP_portCallback : (s.pullP).portCallback = s.portCallback := by
  simp [State.pullP]
@[simp] theorem State.pullP_hasReset : (s.pullP).hasReset = s.hasReset := by
  simp [State.pullP]
@[simp] theorem State.pullP_halted : (s.pullP).halted = s.halted := by
  simp [State.pullP]
@[simp] theorem State.pullP_mem : (s.pullP).mem = s.mem := by
  simp [State.pullP]
@[simp] theorem State.pullP_profile : (s.pullP).profile = s.profile := by
  simp [State.pullP]

/-! ### State.fetchByte -/

@[simp] theorem State.fetchByte_cfg : (s.fetchByte.st).cfg = s.cfg := by
  simp [State.fetchByte]
@[simp] theorem State.fetchByte_a : (s.fetchByte.st).a = s.a := by
  simp [State.fetchByte]
@[simp] theorem State.fetchByte_x : (s.fetchByte.st).x = s.x := by
  simp [State.fetchByte]
@[simp] theorem State.fetchByte_y : (s.fetchByte.st).y = s.y := by
  simp [State.fetchByte]
@[simp] theorem State.fetchByte_sp : (s.fetchByte.st).sp = s.sp := by
  simp [State.fetchByte]
@[simp] theorem State.fetchByte_p : (s.fetchByte.st).p = s.p := by
  simp [State.fetchByte]
@[simp] theorem State.fetchByte_ppc : (s.fetchByte.st).ppc = s.ppc := by
  simp [State.fetchByte]
@[simp] theorem State.fetchByte_ppcWritten : (s.fetchByte.st).ppcWritten = s.ppcWritten := by
  simp [State.fetchByte]
@[simp] theorem State.fetchByte_clockticks : (s.fetchByte.st).clockticks = s.clockticks := by
  simp [State.fetchByte]
@[simp] theorem State.fetchByte_clocktickstotal : (s.fetchByte.st).clocktickstotal = s.clocktickstotal := by
  simp [State.fetchByte]
@[simp] theorem State.fetchByte_irqPending : (s.fetchByte.st).irqPending = s.irqPending := by
  simp [State.fetchByte]
@[simp] theorem State.fetchByte_irqMode : (s.fetchByte.st).irqMode = s.irqMode := by
  simp [State.fetchByte]
@[simp] theorem State.fetchByte_inhibit : (s.fetchByte.st).inhibit = s.inhibit := by
  simp [State.fetchByte]
@[simp] theorem State.fetchByte_nmiPending : (s.fetchByte.st).nmiPending = s.nmiPending := by
  simp [State.fetchByte]
@[simp] theorem State.fetchByte_portDdr : (s.fetchByte.st).portDdr = s.portDdr := by
  simp [State.fetchByte]
@[simp] theorem State.fetchByte_portLatch : (s.fetchByte.st).portLatch = s.portLatch := by
  simp [State.fetchByte]
@[simp] theorem State.fetchByte_portPins : (s.fetchByte.st).portPins = s.portPins := by
  simp [State.fetchByte]
@[simp] theorem State.fetchByte_portCallback : (s.fetchByte.st).portCallback = s.portCallback := by
  simp [State.fetchByte]
@[simp] theorem State.fetchByte_hasReset : (s.fetchByte.st).hasReset = s.hasReset := by
  simp [State.fetchByte]
@[simp] theorem State.fetchByte_halted : (s.fetchByte.st).halted = s.halted := by
  simp [State.fetchByte]
@[simp] theorem State.fetchByte_mem : (s.fetchByte.st).mem = s.mem := by
  simp [State.fetchByte]
@[simp] theorem State.fetchByte_profile : (s.fetchByte.st).profile = s.profile := by
  simp [State.fetchByte]

/-! ### State.jumpVector -/

@[simp] theorem State.jumpVector_cfg (w : Word) : (s.jumpVector w).cfg = s.cfg := by
  simp [State.jumpVector]
@[simp] theorem State.jumpVector_a (w : Word) : (s.jumpVector w).a = s.a := by
  simp [State.jumpVector]
@[simp] theorem State.jumpVector_x (w : Word) : (s.jumpVector w).x = s.x := by
  simp [State.jumpVector]
@[simp] theorem State.jumpVector_y (w : Word) : (s.jumpVector w).y = s.y := by
  simp [State.jumpVector]
@[simp] theorem State.jumpVector_sp (w : Word) : (s.jumpVector w).sp = s.sp := by
  simp [State.jumpVector]
@[simp] theorem State.jumpVector_p (w : Word) : (s.jumpVector w).p = s.p := by
  simp [State.jumpVector]
@[simp] theorem State.jumpVector_ppc (w : Word) : (s.jumpVector w).ppc = s.ppc := by
  simp [State.jumpVector]
@[simp] theorem State.jumpVector_ppcWritten (w : Word) : (s.jumpVector w).ppcWritten = s.ppcWritten := by
  simp [State.jumpVector]
@[simp] theorem State.jumpVector_clockticks (w : Word) : (s.jumpVector w).clockticks = s.clockticks := by
  simp [State.jumpVector]
@[simp] theorem State.jumpVector_clocktickstotal (w : Word) : (s.jumpVector w).clocktickstotal = s.clocktickstotal := by
  simp [State.jumpVector]
@[simp] theorem State.jumpVector_irqPending (w : Word) : (s.jumpVector w).irqPending = s.irqPending := by
  simp [State.jumpVector]
@[simp] theorem State.jumpVector_irqMode (w : Word) : (s.jumpVector w).irqMode = s.irqMode := by
  simp [State.jumpVector]
@[simp] theorem State.jumpVector_inhibit (w : Word) : (s.jumpVector w).inhibit = s.inhibit := by
  simp [State.jumpVector]
@[simp] theorem State.jumpVector_nmiPending (w : Word) : (s.jumpVector w).nmiPending = s.nmiPending := by
  simp [State.jumpVector]
@[simp] theorem State.jumpVector_portDdr (w : Word) : (s.jumpVector w).portDdr = s.portDdr := by
  simp [State.jumpVector]
@[simp] theorem State.jumpVector_portLatch (w : Word) : (s.jumpVector w).portLatch = s.portLatch := by
  simp [State.jumpVector]
@[simp] theorem State.jumpVector_portPins (w : Word) : (s.jumpVector w).portPins = s.portPins := by
  simp [State.jumpVector]
@[simp] theorem State.jumpVector_portCallback (w : Word) : (s.jumpVector w).portCallback = s.portCallback := by
  simp [State.jumpVector]
@[simp] theorem State.jumpVector_hasReset (w : Word) : (s.jumpVector w).hasReset = s.hasReset := by
  simp [State.jumpVector]
@[simp] theorem State.jumpVector_halted (w : Word) : (s.jumpVector w).halted = s.halted := by
  simp [State.jumpVector]
@[simp] theorem State.jumpVector_mem (w : Word) : (s.jumpVector w).mem = s.mem := by
  simp [State.jumpVector]
@[simp] theorem State.jumpVector_profile (w : Word) : (s.jumpVector w).profile = s.profile := by
  simp [State.jumpVector]

/-! ### State.enterHandler -/

@[simp] theorem State.enterHandler_cfg (w : Word) (q : Byte) : (s.enterHandler w q).cfg = s.cfg := by
  simp [State.enterHandler]
@[simp] theorem State.enterHandler_a (w : Word) (q : Byte) : (s.enterHandler w q).a = s.a := by
  simp [State.enterHandler]
@[simp] theorem State.enterHandler_x (w : Word) (q : Byte) : (s.enterHandler w q).x = s.x := by
  simp [State.enterHandler]
@[simp] theorem State.enterHandler_y (w : Word) (q : Byte) : (s.enterHandler w q).y = s.y := by
  simp [State.enterHandler]
@[simp] theorem State.enterHandler_ppc (w : Word) (q : Byte) : (s.enterHandler w q).ppc = s.ppc := by
  simp [State.enterHandler]
@[simp] theorem State.enterHandler_ppcWritten (w : Word) (q : Byte) : (s.enterHandler w q).ppcWritten = s.ppcWritten := by
  simp [State.enterHandler]
@[simp] theorem State.enterHandler_clockticks (w : Word) (q : Byte) : (s.enterHandler w q).clockticks = s.clockticks := by
  simp [State.enterHandler]
@[simp] theorem State.enterHandler_clocktickstotal (w : Word) (q : Byte) : (s.enterHandler w q).clocktickstotal = s.clocktickstotal := by
  simp [State.enterHandler]
@[simp] theorem State.enterHandler_irqPending (w : Word) (q : Byte) : (s.enterHandler w q).irqPending = s.irqPending := by
  simp [State.enterHandler]
@[simp] theorem State.enterHandler_irqMode (w : Word) (q : Byte) : (s.enterHandler w q).irqMode = s.irqMode := by
  simp [State.enterHandler]
@[simp] theorem State.enterHandler_inhibit (w : Word) (q : Byte) : (s.enterHandler w q).inhibit = s.inhibit := by
  simp [State.enterHandler]
@[simp] theorem State.enterHandler_nmiPending (w : Word) (q : Byte) : (s.enterHandler w q).nmiPending = s.nmiPending := by
  simp [State.enterHandler]
@[simp] theorem State.enterHandler_portPins (w : Word) (q : Byte) : (s.enterHandler w q).portPins = s.portPins := by
  simp [State.enterHandler]
@[simp] theorem State.enterHandler_portCallback (w : Word) (q : Byte) : (s.enterHandler w q).portCallback = s.portCallback := by
  simp [State.enterHandler]
@[simp] theorem State.enterHandler_hasReset (w : Word) (q : Byte) : (s.enterHandler w q).hasReset = s.hasReset := by
  simp [State.enterHandler]
@[simp] theorem State.enterHandler_halted (w : Word) (q : Byte) : (s.enterHandler w q).halted = s.halted := by
  simp [State.enterHandler]
@[simp] theorem State.enterHandler_profile (w : Word) (q : Byte) : (s.enterHandler w q).profile = s.profile := by
  simp [State.enterHandler]

/-! ### State.service -/

@[simp] theorem State.service_cfg (w : Word) : (s.service w).cfg = s.cfg := by
  simp [State.service]
@[simp] theorem State.service_a (w : Word) : (s.service w).a = s.a := by
  simp [State.service]
@[simp] theorem State.service_x (w : Word) : (s.service w).x = s.x := by
  simp [State.service]
@[simp] theorem State.service_y (w : Word) : (s.service w).y = s.y := by
  simp [State.service]
@[simp] theorem State.service_ppc (w : Word) : (s.service w).ppc = s.ppc := by
  simp [State.service]
@[simp] theorem State.service_ppcWritten (w : Word) : (s.service w).ppcWritten = s.ppcWritten := by
  simp [State.service]
@[simp] theorem State.service_clockticks (w : Word) : (s.service w).clockticks = s.clockticks := by
  simp [State.service]
@[simp] theorem State.service_clocktickstotal (w : Word) : (s.service w).clocktickstotal = s.clocktickstotal := by
  simp [State.service]
@[simp] theorem State.service_irqPending (w : Word) : (s.service w).irqPending = s.irqPending := by
  simp [State.service]
@[simp] theorem State.service_irqMode (w : Word) : (s.service w).irqMode = s.irqMode := by
  simp [State.service]
@[simp] theorem State.service_inhibit (w : Word) : (s.service w).inhibit = s.inhibit := by
  simp [State.service]
@[simp] theorem State.service_nmiPending (w : Word) : (s.service w).nmiPending = s.nmiPending := by
  simp [State.service]
@[simp] theorem State.service_portPins (w : Word) : (s.service w).portPins = s.portPins := by
  simp [State.service]
@[simp] theorem State.service_portCallback (w : Word) : (s.service w).portCallback = s.portCallback := by
  simp [State.service]
@[simp] theorem State.service_hasReset (w : Word) : (s.service w).hasReset = s.hasReset := by
  simp [State.service]
@[simp] theorem State.service_halted (w : Word) : (s.service w).halted = s.halted := by
  simp [State.service]
@[simp] theorem State.service_profile (w : Word) : (s.service w).profile = s.profile := by
  simp [State.service]

/-! ### State.returnFromHandler -/

@[simp] theorem State.returnFromHandler_cfg : (s.returnFromHandler).cfg = s.cfg := by
  simp [State.returnFromHandler]
@[simp] theorem State.returnFromHandler_a : (s.returnFromHandler).a = s.a := by
  simp [State.returnFromHandler]
@[simp] theorem State.returnFromHandler_x : (s.returnFromHandler).x = s.x := by
  simp [State.returnFromHandler]
@[simp] theorem State.returnFromHandler_y : (s.returnFromHandler).y = s.y := by
  simp [State.returnFromHandler]
@[simp] theorem State.returnFromHandler_ppc : (s.returnFromHandler).ppc = s.ppc := by
  simp [State.returnFromHandler]
@[simp] theorem State.returnFromHandler_ppcWritten : (s.returnFromHandler).ppcWritten = s.ppcWritten := by
  simp [State.returnFromHandler]
@[simp] theorem State.returnFromHandler_clockticks : (s.returnFromHandler).clockticks = s.clockticks := by
  simp [State.returnFromHandler]
@[simp] theorem State.returnFromHandler_clocktickstotal : (s.returnFromHandler).clocktickstotal = s.clocktickstotal := by
  simp [State.returnFromHandler]
@[simp] theorem State.returnFromHandler_irqPending : (s.returnFromHandler).irqPending = s.irqPending := by
  simp [State.returnFromHandler]
@[simp] theorem State.returnFromHandler_irqMode : (s.returnFromHandler).irqMode = s.irqMode := by
  simp [State.returnFromHandler]
@[simp] theorem State.returnFromHandler_nmiPending : (s.returnFromHandler).nmiPending = s.nmiPending := by
  simp [State.returnFromHandler]
@[simp] theorem State.returnFromHandler_portDdr : (s.returnFromHandler).portDdr = s.portDdr := by
  simp [State.returnFromHandler]
@[simp] theorem State.returnFromHandler_portLatch : (s.returnFromHandler).portLatch = s.portLatch := by
  simp [State.returnFromHandler]
@[simp] theorem State.returnFromHandler_portPins : (s.returnFromHandler).portPins = s.portPins := by
  simp [State.returnFromHandler]
@[simp] theorem State.returnFromHandler_portCallback : (s.returnFromHandler).portCallback = s.portCallback := by
  simp [State.returnFromHandler]
@[simp] theorem State.returnFromHandler_hasReset : (s.returnFromHandler).hasReset = s.hasReset := by
  simp [State.returnFromHandler]
@[simp] theorem State.returnFromHandler_halted : (s.returnFromHandler).halted = s.halted := by
  simp [State.returnFromHandler]
@[simp] theorem State.returnFromHandler_mem : (s.returnFromHandler).mem = s.mem := by
  simp [State.returnFromHandler]
@[simp] theorem State.returnFromHandler_profile : (s.returnFromHandler).profile = s.profile := by
  simp [State.returnFromHandler]

/-! ### State.softwareInterrupt -/

@[simp] theorem State.softwareInterrupt_cfg : (s.softwareInterrupt).cfg = s.cfg := by
  simp [State.softwareInterrupt]
@[simp] theorem State.softwareInterrupt_a : (s.softwareInterrupt).a = s.a := by
  simp [State.softwareInterrupt]
@[simp] theorem State.softwareInterrupt_x : (s.softwareInterrupt).x = s.x := by
  simp [State.softwareInterrupt]
@[simp] theorem State.softwareInterrupt_y : (s.softwareInterrupt).y = s.y := by
  simp [State.softwareInterrupt]
@[simp] theorem State.softwareInterrupt_ppc : (s.softwareInterrupt).ppc = s.ppc := by
  simp [State.softwareInterrupt]
@[simp] theorem State.softwareInterrupt_ppcWritten : (s.softwareInterrupt).ppcWritten = s.ppcWritten := by
  simp [State.softwareInterrupt]
@[simp] theorem State.softwareInterrupt_clockticks : (s.softwareInterrupt).clockticks = s.clockticks := by
  simp [State.softwareInterrupt]
@[simp] theorem State.softwareInterrupt_clocktickstotal : (s.softwareInterrupt).clocktickstotal = s.clocktickstotal := by
  simp [State.softwareInterrupt]
@[simp] theorem State.softwareInterrupt_irqPending : (s.softwareInterrupt).irqPending = s.irqPending := by
  simp [State.softwareInterrupt]
@[simp] theorem State.softwareInterrupt_irqMode : (s.softwareInterrupt).irqMode = s.irqMode := by
  simp [State.softwareInterrupt]
@[simp] theorem State.softwareInterrupt_inhibit : (s.softwareInterrupt).inhibit = s.inhibit := by
  simp [State.softwareInterrupt]
@[simp] theorem State.softwareInterrupt_nmiPending : (s.softwareInterrupt).nmiPending = s.nmiPending := by
  simp [State.softwareInterrupt]
@[simp] theorem State.softwareInterrupt_portPins : (s.softwareInterrupt).portPins = s.portPins := by
  simp [State.softwareInterrupt]
@[simp] theorem State.softwareInterrupt_portCallback : (s.softwareInterrupt).portCallback = s.portCallback := by
  simp [State.softwareInterrupt]
@[simp] theorem State.softwareInterrupt_hasReset : (s.softwareInterrupt).hasReset = s.hasReset := by
  simp [State.softwareInterrupt]
@[simp] theorem State.softwareInterrupt_halted : (s.softwareInterrupt).halted = s.halted := by
  simp [State.softwareInterrupt]
@[simp] theorem State.softwareInterrupt_profile : (s.softwareInterrupt).profile = s.profile := by
  simp [State.softwareInterrupt]

/-! ### State.readZeroPagePointer -/

@[simp] theorem State.readZeroPagePointer_cfg (z : Byte) : ((s.readZeroPagePointer z).st).cfg = s.cfg := by
  simp [State.readZeroPagePointer]
@[simp] theorem State.readZeroPagePointer_a (z : Byte) : ((s.readZeroPagePointer z).st).a = s.a := by
  simp [State.readZeroPagePointer]
@[simp] theorem State.readZeroPagePointer_x (z : Byte) : ((s.readZeroPagePointer z).st).x = s.x := by
  simp [State.readZeroPagePointer]
@[simp] theorem State.readZeroPagePointer_y (z : Byte) : ((s.readZeroPagePointer z).st).y = s.y := by
  simp [State.readZeroPagePointer]
@[simp] theorem State.readZeroPagePointer_sp (z : Byte) : ((s.readZeroPagePointer z).st).sp = s.sp := by
  simp [State.readZeroPagePointer]
@[simp] theorem State.readZeroPagePointer_p (z : Byte) : ((s.readZeroPagePointer z).st).p = s.p := by
  simp [State.readZeroPagePointer]
@[simp] theorem State.readZeroPagePointer_pc (z : Byte) : ((s.readZeroPagePointer z).st).pc = s.pc := by
  simp [State.readZeroPagePointer]
@[simp] theorem State.readZeroPagePointer_ppc (z : Byte) : ((s.readZeroPagePointer z).st).ppc = s.ppc := by
  simp [State.readZeroPagePointer]
@[simp] theorem State.readZeroPagePointer_ppcWritten (z : Byte) : ((s.readZeroPagePointer z).st).ppcWritten = s.ppcWritten := by
  simp [State.readZeroPagePointer]
@[simp] theorem State.readZeroPagePointer_clockticks (z : Byte) : ((s.readZeroPagePointer z).st).clockticks = s.clockticks := by
  simp [State.readZeroPagePointer]
@[simp] theorem State.readZeroPagePointer_clocktickstotal (z : Byte) : ((s.readZeroPagePointer z).st).clocktickstotal = s.clocktickstotal := by
  simp [State.readZeroPagePointer]
@[simp] theorem State.readZeroPagePointer_irqPending (z : Byte) : ((s.readZeroPagePointer z).st).irqPending = s.irqPending := by
  simp [State.readZeroPagePointer]
@[simp] theorem State.readZeroPagePointer_irqMode (z : Byte) : ((s.readZeroPagePointer z).st).irqMode = s.irqMode := by
  simp [State.readZeroPagePointer]
@[simp] theorem State.readZeroPagePointer_inhibit (z : Byte) : ((s.readZeroPagePointer z).st).inhibit = s.inhibit := by
  simp [State.readZeroPagePointer]
@[simp] theorem State.readZeroPagePointer_nmiPending (z : Byte) : ((s.readZeroPagePointer z).st).nmiPending = s.nmiPending := by
  simp [State.readZeroPagePointer]
@[simp] theorem State.readZeroPagePointer_portDdr (z : Byte) : ((s.readZeroPagePointer z).st).portDdr = s.portDdr := by
  simp [State.readZeroPagePointer]
@[simp] theorem State.readZeroPagePointer_portLatch (z : Byte) : ((s.readZeroPagePointer z).st).portLatch = s.portLatch := by
  simp [State.readZeroPagePointer]
@[simp] theorem State.readZeroPagePointer_portPins (z : Byte) : ((s.readZeroPagePointer z).st).portPins = s.portPins := by
  simp [State.readZeroPagePointer]
@[simp] theorem State.readZeroPagePointer_portCallback (z : Byte) : ((s.readZeroPagePointer z).st).portCallback = s.portCallback := by
  simp [State.readZeroPagePointer]
@[simp] theorem State.readZeroPagePointer_hasReset (z : Byte) : ((s.readZeroPagePointer z).st).hasReset = s.hasReset := by
  simp [State.readZeroPagePointer]
@[simp] theorem State.readZeroPagePointer_halted (z : Byte) : ((s.readZeroPagePointer z).st).halted = s.halted := by
  simp [State.readZeroPagePointer]
@[simp] theorem State.readZeroPagePointer_mem (z : Byte) : ((s.readZeroPagePointer z).st).mem = s.mem := by
  simp [State.readZeroPagePointer]
@[simp] theorem State.readZeroPagePointer_profile (z : Byte) : ((s.readZeroPagePointer z).st).profile = s.profile := by
  simp [State.readZeroPagePointer]

/-! ### resolve -/

@[simp] theorem resolve_cfg (o : Addr) : ((resolve o s).st).cfg = s.cfg := by
  cases o <;> simp [resolve]
@[simp] theorem resolve_a (o : Addr) : ((resolve o s).st).a = s.a := by
  cases o <;> simp [resolve]
@[simp] theorem resolve_x (o : Addr) : ((resolve o s).st).x = s.x := by
  cases o <;> simp [resolve]
@[simp] theorem resolve_y (o : Addr) : ((resolve o s).st).y = s.y := by
  cases o <;> simp [resolve]
@[simp] theorem resolve_sp (o : Addr) : ((resolve o s).st).sp = s.sp := by
  cases o <;> simp [resolve]
@[simp] theorem resolve_p (o : Addr) : ((resolve o s).st).p = s.p := by
  cases o <;> simp [resolve]
@[simp] theorem resolve_pc (o : Addr) : ((resolve o s).st).pc = s.pc := by
  cases o <;> simp [resolve]
@[simp] theorem resolve_ppc (o : Addr) : ((resolve o s).st).ppc = s.ppc := by
  cases o <;> simp [resolve]
@[simp] theorem resolve_ppcWritten (o : Addr) : ((resolve o s).st).ppcWritten = s.ppcWritten := by
  cases o <;> simp [resolve]
@[simp] theorem resolve_clockticks (o : Addr) : ((resolve o s).st).clockticks = s.clockticks := by
  cases o <;> simp [resolve]
@[simp] theorem resolve_clocktickstotal (o : Addr) : ((resolve o s).st).clocktickstotal = s.clocktickstotal := by
  cases o <;> simp [resolve]
@[simp] theorem resolve_irqPending (o : Addr) : ((resolve o s).st).irqPending = s.irqPending := by
  cases o <;> simp [resolve]
@[simp] theorem resolve_irqMode (o : Addr) : ((resolve o s).st).irqMode = s.irqMode := by
  cases o <;> simp [resolve]
@[simp] theorem resolve_inhibit (o : Addr) : ((resolve o s).st).inhibit = s.inhibit := by
  cases o <;> simp [resolve]
@[simp] theorem resolve_nmiPending (o : Addr) : ((resolve o s).st).nmiPending = s.nmiPending := by
  cases o <;> simp [resolve]
@[simp] theorem resolve_portDdr (o : Addr) : ((resolve o s).st).portDdr = s.portDdr := by
  cases o <;> simp [resolve]
@[simp] theorem resolve_portLatch (o : Addr) : ((resolve o s).st).portLatch = s.portLatch := by
  cases o <;> simp [resolve]
@[simp] theorem resolve_portPins (o : Addr) : ((resolve o s).st).portPins = s.portPins := by
  cases o <;> simp [resolve]
@[simp] theorem resolve_portCallback (o : Addr) : ((resolve o s).st).portCallback = s.portCallback := by
  cases o <;> simp [resolve]
@[simp] theorem resolve_hasReset (o : Addr) : ((resolve o s).st).hasReset = s.hasReset := by
  cases o <;> simp [resolve]
@[simp] theorem resolve_halted (o : Addr) : ((resolve o s).st).halted = s.halted := by
  cases o <;> simp [resolve]
@[simp] theorem resolve_mem (o : Addr) : ((resolve o s).st).mem = s.mem := by
  cases o <;> simp [resolve]
@[simp] theorem resolve_profile (o : Addr) : ((resolve o s).st).profile = s.profile := by
  cases o <;> simp [resolve]

/-! ### resolveTarget -/

@[simp] theorem resolveTarget_cfg (o : Target) : ((resolveTarget o s).st).cfg = s.cfg := by
  cases o <;> simp [resolveTarget]
@[simp] theorem resolveTarget_a (o : Target) : ((resolveTarget o s).st).a = s.a := by
  cases o <;> simp [resolveTarget]
@[simp] theorem resolveTarget_x (o : Target) : ((resolveTarget o s).st).x = s.x := by
  cases o <;> simp [resolveTarget]
@[simp] theorem resolveTarget_y (o : Target) : ((resolveTarget o s).st).y = s.y := by
  cases o <;> simp [resolveTarget]
@[simp] theorem resolveTarget_sp (o : Target) : ((resolveTarget o s).st).sp = s.sp := by
  cases o <;> simp [resolveTarget]
@[simp] theorem resolveTarget_p (o : Target) : ((resolveTarget o s).st).p = s.p := by
  cases o <;> simp [resolveTarget]
@[simp] theorem resolveTarget_pc (o : Target) : ((resolveTarget o s).st).pc = s.pc := by
  cases o <;> simp [resolveTarget]
@[simp] theorem resolveTarget_ppc (o : Target) : ((resolveTarget o s).st).ppc = s.ppc := by
  cases o <;> simp [resolveTarget]
@[simp] theorem resolveTarget_ppcWritten (o : Target) : ((resolveTarget o s).st).ppcWritten = s.ppcWritten := by
  cases o <;> simp [resolveTarget]
@[simp] theorem resolveTarget_clockticks (o : Target) : ((resolveTarget o s).st).clockticks = s.clockticks := by
  cases o <;> simp [resolveTarget]
@[simp] theorem resolveTarget_clocktickstotal (o : Target) : ((resolveTarget o s).st).clocktickstotal = s.clocktickstotal := by
  cases o <;> simp [resolveTarget]
@[simp] theorem resolveTarget_irqPending (o : Target) : ((resolveTarget o s).st).irqPending = s.irqPending := by
  cases o <;> simp [resolveTarget]
@[simp] theorem resolveTarget_irqMode (o : Target) : ((resolveTarget o s).st).irqMode = s.irqMode := by
  cases o <;> simp [resolveTarget]
@[simp] theorem resolveTarget_inhibit (o : Target) : ((resolveTarget o s).st).inhibit = s.inhibit := by
  cases o <;> simp [resolveTarget]
@[simp] theorem resolveTarget_nmiPending (o : Target) : ((resolveTarget o s).st).nmiPending = s.nmiPending := by
  cases o <;> simp [resolveTarget]
@[simp] theorem resolveTarget_portDdr (o : Target) : ((resolveTarget o s).st).portDdr = s.portDdr := by
  cases o <;> simp [resolveTarget]
@[simp] theorem resolveTarget_portLatch (o : Target) : ((resolveTarget o s).st).portLatch = s.portLatch := by
  cases o <;> simp [resolveTarget]
@[simp] theorem resolveTarget_portPins (o : Target) : ((resolveTarget o s).st).portPins = s.portPins := by
  cases o <;> simp [resolveTarget]
@[simp] theorem resolveTarget_portCallback (o : Target) : ((resolveTarget o s).st).portCallback = s.portCallback := by
  cases o <;> simp [resolveTarget]
@[simp] theorem resolveTarget_hasReset (o : Target) : ((resolveTarget o s).st).hasReset = s.hasReset := by
  cases o <;> simp [resolveTarget]
@[simp] theorem resolveTarget_halted (o : Target) : ((resolveTarget o s).st).halted = s.halted := by
  cases o <;> simp [resolveTarget]
@[simp] theorem resolveTarget_mem (o : Target) : ((resolveTarget o s).st).mem = s.mem := by
  cases o <;> simp [resolveTarget]
@[simp] theorem resolveTarget_profile (o : Target) : ((resolveTarget o s).st).profile = s.profile := by
  cases o <;> simp [resolveTarget]

/-! ### operandAt -/

@[simp] theorem operandAt_cfg (o : Addr) : ((operandAt o s).st).cfg = s.cfg := by
  simp [operandAt]
@[simp] theorem operandAt_a (o : Addr) : ((operandAt o s).st).a = s.a := by
  simp [operandAt]
@[simp] theorem operandAt_x (o : Addr) : ((operandAt o s).st).x = s.x := by
  simp [operandAt]
@[simp] theorem operandAt_y (o : Addr) : ((operandAt o s).st).y = s.y := by
  simp [operandAt]
@[simp] theorem operandAt_sp (o : Addr) : ((operandAt o s).st).sp = s.sp := by
  simp [operandAt]
@[simp] theorem operandAt_p (o : Addr) : ((operandAt o s).st).p = s.p := by
  simp [operandAt]
@[simp] theorem operandAt_pc (o : Addr) : ((operandAt o s).st).pc = s.pc := by
  simp [operandAt]
@[simp] theorem operandAt_ppc (o : Addr) : ((operandAt o s).st).ppc = s.ppc := by
  simp [operandAt]
@[simp] theorem operandAt_ppcWritten (o : Addr) : ((operandAt o s).st).ppcWritten = s.ppcWritten := by
  simp [operandAt]
@[simp] theorem operandAt_clockticks (o : Addr) : ((operandAt o s).st).clockticks = s.clockticks := by
  simp [operandAt]
@[simp] theorem operandAt_clocktickstotal (o : Addr) : ((operandAt o s).st).clocktickstotal = s.clocktickstotal := by
  simp [operandAt]
@[simp] theorem operandAt_irqPending (o : Addr) : ((operandAt o s).st).irqPending = s.irqPending := by
  simp [operandAt]
@[simp] theorem operandAt_irqMode (o : Addr) : ((operandAt o s).st).irqMode = s.irqMode := by
  simp [operandAt]
@[simp] theorem operandAt_inhibit (o : Addr) : ((operandAt o s).st).inhibit = s.inhibit := by
  simp [operandAt]
@[simp] theorem operandAt_nmiPending (o : Addr) : ((operandAt o s).st).nmiPending = s.nmiPending := by
  simp [operandAt]
@[simp] theorem operandAt_portDdr (o : Addr) : ((operandAt o s).st).portDdr = s.portDdr := by
  simp [operandAt]
@[simp] theorem operandAt_portLatch (o : Addr) : ((operandAt o s).st).portLatch = s.portLatch := by
  simp [operandAt]
@[simp] theorem operandAt_portPins (o : Addr) : ((operandAt o s).st).portPins = s.portPins := by
  simp [operandAt]
@[simp] theorem operandAt_portCallback (o : Addr) : ((operandAt o s).st).portCallback = s.portCallback := by
  simp [operandAt]
@[simp] theorem operandAt_hasReset (o : Addr) : ((operandAt o s).st).hasReset = s.hasReset := by
  simp [operandAt]
@[simp] theorem operandAt_halted (o : Addr) : ((operandAt o s).st).halted = s.halted := by
  simp [operandAt]
@[simp] theorem operandAt_mem (o : Addr) : ((operandAt o s).st).mem = s.mem := by
  simp [operandAt]
@[simp] theorem operandAt_profile (o : Addr) : ((operandAt o s).st).profile = s.profile := by
  simp [operandAt]

/-! ### operand -/

@[simp] theorem operand_cfg (o : Src) : ((operand o s).st).cfg = s.cfg := by
  cases o <;> simp [operand]
@[simp] theorem operand_a (o : Src) : ((operand o s).st).a = s.a := by
  cases o <;> simp [operand]
@[simp] theorem operand_x (o : Src) : ((operand o s).st).x = s.x := by
  cases o <;> simp [operand]
@[simp] theorem operand_y (o : Src) : ((operand o s).st).y = s.y := by
  cases o <;> simp [operand]
@[simp] theorem operand_sp (o : Src) : ((operand o s).st).sp = s.sp := by
  cases o <;> simp [operand]
@[simp] theorem operand_p (o : Src) : ((operand o s).st).p = s.p := by
  cases o <;> simp [operand]
@[simp] theorem operand_pc (o : Src) : ((operand o s).st).pc = s.pc := by
  cases o <;> simp [operand]
@[simp] theorem operand_ppc (o : Src) : ((operand o s).st).ppc = s.ppc := by
  cases o <;> simp [operand]
@[simp] theorem operand_ppcWritten (o : Src) : ((operand o s).st).ppcWritten = s.ppcWritten := by
  cases o <;> simp [operand]
@[simp] theorem operand_clockticks (o : Src) : ((operand o s).st).clockticks = s.clockticks := by
  cases o <;> simp [operand]
@[simp] theorem operand_clocktickstotal (o : Src) : ((operand o s).st).clocktickstotal = s.clocktickstotal := by
  cases o <;> simp [operand]
@[simp] theorem operand_irqPending (o : Src) : ((operand o s).st).irqPending = s.irqPending := by
  cases o <;> simp [operand]
@[simp] theorem operand_irqMode (o : Src) : ((operand o s).st).irqMode = s.irqMode := by
  cases o <;> simp [operand]
@[simp] theorem operand_inhibit (o : Src) : ((operand o s).st).inhibit = s.inhibit := by
  cases o <;> simp [operand]
@[simp] theorem operand_nmiPending (o : Src) : ((operand o s).st).nmiPending = s.nmiPending := by
  cases o <;> simp [operand]
@[simp] theorem operand_portDdr (o : Src) : ((operand o s).st).portDdr = s.portDdr := by
  cases o <;> simp [operand]
@[simp] theorem operand_portLatch (o : Src) : ((operand o s).st).portLatch = s.portLatch := by
  cases o <;> simp [operand]
@[simp] theorem operand_portPins (o : Src) : ((operand o s).st).portPins = s.portPins := by
  cases o <;> simp [operand]
@[simp] theorem operand_portCallback (o : Src) : ((operand o s).st).portCallback = s.portCallback := by
  cases o <;> simp [operand]
@[simp] theorem operand_hasReset (o : Src) : ((operand o s).st).hasReset = s.hasReset := by
  cases o <;> simp [operand]
@[simp] theorem operand_halted (o : Src) : ((operand o s).st).halted = s.halted := by
  cases o <;> simp [operand]
@[simp] theorem operand_mem (o : Src) : ((operand o s).st).mem = s.mem := by
  cases o <;> simp [operand]
@[simp] theorem operand_profile (o : Src) : ((operand o s).st).profile = s.profile := by
  cases o <;> simp [operand]

/-! ### storeWith -/

@[simp] theorem storeWith_cfg (o : Addr) (f : Ea → State → Byte) : (storeWith o f s).cfg = s.cfg := by
  simp [storeWith]
@[simp] theorem storeWith_a (o : Addr) (f : Ea → State → Byte) : (storeWith o f s).a = s.a := by
  simp [storeWith]
@[simp] theorem storeWith_x (o : Addr) (f : Ea → State → Byte) : (storeWith o f s).x = s.x := by
  simp [storeWith]
@[simp] theorem storeWith_y (o : Addr) (f : Ea → State → Byte) : (storeWith o f s).y = s.y := by
  simp [storeWith]
@[simp] theorem storeWith_sp (o : Addr) (f : Ea → State → Byte) : (storeWith o f s).sp = s.sp := by
  simp [storeWith]
@[simp] theorem storeWith_p (o : Addr) (f : Ea → State → Byte) : (storeWith o f s).p = s.p := by
  simp [storeWith]
@[simp] theorem storeWith_pc (o : Addr) (f : Ea → State → Byte) : (storeWith o f s).pc = s.pc := by
  simp [storeWith]
@[simp] theorem storeWith_ppc (o : Addr) (f : Ea → State → Byte) : (storeWith o f s).ppc = s.ppc := by
  simp [storeWith]
@[simp] theorem storeWith_ppcWritten (o : Addr) (f : Ea → State → Byte) : (storeWith o f s).ppcWritten = s.ppcWritten := by
  simp [storeWith]
@[simp] theorem storeWith_clockticks (o : Addr) (f : Ea → State → Byte) : (storeWith o f s).clockticks = s.clockticks := by
  simp [storeWith]
@[simp] theorem storeWith_clocktickstotal (o : Addr) (f : Ea → State → Byte) : (storeWith o f s).clocktickstotal = s.clocktickstotal := by
  simp [storeWith]
@[simp] theorem storeWith_irqPending (o : Addr) (f : Ea → State → Byte) : (storeWith o f s).irqPending = s.irqPending := by
  simp [storeWith]
@[simp] theorem storeWith_irqMode (o : Addr) (f : Ea → State → Byte) : (storeWith o f s).irqMode = s.irqMode := by
  simp [storeWith]
@[simp] theorem storeWith_inhibit (o : Addr) (f : Ea → State → Byte) : (storeWith o f s).inhibit = s.inhibit := by
  simp [storeWith]
@[simp] theorem storeWith_nmiPending (o : Addr) (f : Ea → State → Byte) : (storeWith o f s).nmiPending = s.nmiPending := by
  simp [storeWith]
@[simp] theorem storeWith_portPins (o : Addr) (f : Ea → State → Byte) : (storeWith o f s).portPins = s.portPins := by
  simp [storeWith]
@[simp] theorem storeWith_portCallback (o : Addr) (f : Ea → State → Byte) : (storeWith o f s).portCallback = s.portCallback := by
  simp [storeWith]
@[simp] theorem storeWith_hasReset (o : Addr) (f : Ea → State → Byte) : (storeWith o f s).hasReset = s.hasReset := by
  simp [storeWith]
@[simp] theorem storeWith_halted (o : Addr) (f : Ea → State → Byte) : (storeWith o f s).halted = s.halted := by
  simp [storeWith]
@[simp] theorem storeWith_profile (o : Addr) (f : Ea → State → Byte) : (storeWith o f s).profile = s.profile := by
  simp [storeWith]

/-! ### State.fetchOpcode -/

@[simp] theorem State.fetchOpcode_cfg : (s.fetchOpcode.st).cfg = s.cfg := by
  simp [State.fetchOpcode]
@[simp] theorem State.fetchOpcode_a : (s.fetchOpcode.st).a = s.a := by
  simp [State.fetchOpcode]
@[simp] theorem State.fetchOpcode_x : (s.fetchOpcode.st).x = s.x := by
  simp [State.fetchOpcode]
@[simp] theorem State.fetchOpcode_y : (s.fetchOpcode.st).y = s.y := by
  simp [State.fetchOpcode]
@[simp] theorem State.fetchOpcode_sp : (s.fetchOpcode.st).sp = s.sp := by
  simp [State.fetchOpcode]
@[simp] theorem State.fetchOpcode_p : (s.fetchOpcode.st).p = s.p := by
  simp [State.fetchOpcode]
@[simp] theorem State.fetchOpcode_clockticks : (s.fetchOpcode.st).clockticks = s.clockticks := by
  simp [State.fetchOpcode]
@[simp] theorem State.fetchOpcode_clocktickstotal : (s.fetchOpcode.st).clocktickstotal = s.clocktickstotal := by
  simp [State.fetchOpcode]
@[simp] theorem State.fetchOpcode_irqPending : (s.fetchOpcode.st).irqPending = s.irqPending := by
  simp [State.fetchOpcode]
@[simp] theorem State.fetchOpcode_irqMode : (s.fetchOpcode.st).irqMode = s.irqMode := by
  simp [State.fetchOpcode]
@[simp] theorem State.fetchOpcode_inhibit : (s.fetchOpcode.st).inhibit = s.inhibit := by
  simp [State.fetchOpcode]
@[simp] theorem State.fetchOpcode_nmiPending : (s.fetchOpcode.st).nmiPending = s.nmiPending := by
  simp [State.fetchOpcode]
@[simp] theorem State.fetchOpcode_portDdr : (s.fetchOpcode.st).portDdr = s.portDdr := by
  simp [State.fetchOpcode]
@[simp] theorem State.fetchOpcode_portLatch : (s.fetchOpcode.st).portLatch = s.portLatch := by
  simp [State.fetchOpcode]
@[simp] theorem State.fetchOpcode_portPins : (s.fetchOpcode.st).portPins = s.portPins := by
  simp [State.fetchOpcode]
@[simp] theorem State.fetchOpcode_portCallback : (s.fetchOpcode.st).portCallback = s.portCallback := by
  simp [State.fetchOpcode]
@[simp] theorem State.fetchOpcode_hasReset : (s.fetchOpcode.st).hasReset = s.hasReset := by
  simp [State.fetchOpcode]
@[simp] theorem State.fetchOpcode_halted : (s.fetchOpcode.st).halted = s.halted := by
  simp [State.fetchOpcode]
@[simp] theorem State.fetchOpcode_mem : (s.fetchOpcode.st).mem = s.mem := by
  simp [State.fetchOpcode]

/-! ### State.fetchInstr -/

@[simp] theorem State.fetchInstr_cfg : (s.fetchInstr.st).cfg = s.cfg := by
  unfold State.fetchInstr; dsimp only; split <;> simp
@[simp] theorem State.fetchInstr_a : (s.fetchInstr.st).a = s.a := by
  unfold State.fetchInstr; dsimp only; split <;> simp
@[simp] theorem State.fetchInstr_x : (s.fetchInstr.st).x = s.x := by
  unfold State.fetchInstr; dsimp only; split <;> simp
@[simp] theorem State.fetchInstr_y : (s.fetchInstr.st).y = s.y := by
  unfold State.fetchInstr; dsimp only; split <;> simp
@[simp] theorem State.fetchInstr_sp : (s.fetchInstr.st).sp = s.sp := by
  unfold State.fetchInstr; dsimp only; split <;> simp
@[simp] theorem State.fetchInstr_p : (s.fetchInstr.st).p = s.p := by
  unfold State.fetchInstr; dsimp only; split <;> simp
@[simp] theorem State.fetchInstr_clockticks : (s.fetchInstr.st).clockticks = s.clockticks := by
  unfold State.fetchInstr; dsimp only; split <;> simp
@[simp] theorem State.fetchInstr_clocktickstotal : (s.fetchInstr.st).clocktickstotal = s.clocktickstotal := by
  unfold State.fetchInstr; dsimp only; split <;> simp
@[simp] theorem State.fetchInstr_irqPending : (s.fetchInstr.st).irqPending = s.irqPending := by
  unfold State.fetchInstr; dsimp only; split <;> simp
@[simp] theorem State.fetchInstr_irqMode : (s.fetchInstr.st).irqMode = s.irqMode := by
  unfold State.fetchInstr; dsimp only; split <;> simp
@[simp] theorem State.fetchInstr_inhibit : (s.fetchInstr.st).inhibit = s.inhibit := by
  unfold State.fetchInstr; dsimp only; split <;> simp
@[simp] theorem State.fetchInstr_nmiPending : (s.fetchInstr.st).nmiPending = s.nmiPending := by
  unfold State.fetchInstr; dsimp only; split <;> simp
@[simp] theorem State.fetchInstr_portDdr : (s.fetchInstr.st).portDdr = s.portDdr := by
  unfold State.fetchInstr; dsimp only; split <;> simp
@[simp] theorem State.fetchInstr_portLatch : (s.fetchInstr.st).portLatch = s.portLatch := by
  unfold State.fetchInstr; dsimp only; split <;> simp
@[simp] theorem State.fetchInstr_portPins : (s.fetchInstr.st).portPins = s.portPins := by
  unfold State.fetchInstr; dsimp only; split <;> simp
@[simp] theorem State.fetchInstr_portCallback : (s.fetchInstr.st).portCallback = s.portCallback := by
  unfold State.fetchInstr; dsimp only; split <;> simp
@[simp] theorem State.fetchInstr_hasReset : (s.fetchInstr.st).hasReset = s.hasReset := by
  unfold State.fetchInstr; dsimp only; split <;> simp
@[simp] theorem State.fetchInstr_halted : (s.fetchInstr.st).halted = s.halted := by
  unfold State.fetchInstr; dsimp only; split <;> simp
@[simp] theorem State.fetchInstr_mem : (s.fetchInstr.st).mem = s.mem := by
  unfold State.fetchInstr; dsimp only; split <;> simp

/-! ### Values left where the update writes -/

@[simp] theorem State.push_sp (v : Byte) : (s.push v).sp = s.sp - 1#8 := rfl
@[simp] theorem State.pull_sp : s.pull.st.sp = s.sp + 1#8 := by simp [State.pull]
@[simp] theorem State.pullWord_sp : s.pullWord.st.sp = s.sp + 1#8 + 1#8 := by simp [State.pullWord]
@[simp] theorem State.pullP_sp : s.pullP.sp = s.sp + 1#8 := by simp [State.pullP]
@[simp] theorem State.fetchByte_pc : s.fetchByte.st.pc = s.pc + 1#16 := rfl
@[simp] theorem State.fetchOpcode_pc : s.fetchOpcode.st.pc = s.pc + 1#16 := by simp [State.fetchOpcode]
@[simp] theorem State.fetchOpcode_ppc : s.fetchOpcode.st.ppc = s.pc + 1#16 := by simp [State.fetchOpcode]
@[simp] theorem State.fetchInstr_ppc : s.fetchInstr.st.ppc = s.pc + 1#16 := by
  unfold State.fetchInstr; dsimp only; split <;> simp

end Sys2Proof.Machine
end

