-- ==== Sys2Proof/Laws/Bus.lean ====
section
/-! SUPPORT. One lemma per shared bus and stack operation: everything it can do, in the terms of Safety.lean. Callers cite these
and do not unfold the operations. -/

namespace Sys2Proof.Machine

/-! ## The two frames -/

/-- Two states equal in every field but the event log and the free-value counter. -/
theorem sameButReads_of_fields {s t : State} (cfg : t.cfg = s.cfg) (a : t.a = s.a) (x : t.x = s.x) (y : t.y = s.y)
    (sp : t.sp = s.sp) (p : t.p = s.p) (pc : t.pc = s.pc) (ppc : t.ppc = s.ppc) (w : t.ppcWritten = s.ppcWritten)
    (ct : t.clockticks = s.clockticks) (tot : t.clocktickstotal = s.clocktickstotal) (ip : t.irqPending = s.irqPending)
    (im : t.irqMode = s.irqMode) (inh : t.inhibit = s.inhibit) (np : t.nmiPending = s.nmiPending)
    (pd : t.portDdr = s.portDdr) (pl : t.portLatch = s.portLatch) (pp : t.portPins = s.portPins)
    (pcb : t.portCallback = s.portCallback) (hr : t.hasReset = s.hasReset) (h : t.halted = s.halted) (m : t.mem = s.mem)
    (pr : t.profile = s.profile) : sameButReads s t := by
  cases t
  simp_all [sameButReads]

theorem sameButReads_refl (s : State) : sameButReads s s := rfl

theorem sameButReads_trans {s t u : State} (h : sameButReads s t) (h' : sameButReads t u) : sameButReads s u := by
  unfold sameButReads at *
  rw [h', h]

theorem sameButBus_of_sameButReads {s t : State} (h : sameButReads s t) : sameButBus s t := by
  unfold sameButReads sameButBus at *
  rw [h]

theorem sameButBus_trans {s t u : State} (h : sameButBus s t) (h' : sameButBus t u) : sameButBus s u := by
  unfold sameButBus at *
  rw [h', h]

/-! ## Reads -/

theorem busRead_sameButReads (s : State) (b : Nat) : sameButReads s (s.busRead b).st := by
  apply sameButReads_of_fields <;> simp

/-- A read of memory changes nothing but the event log and the free-value counter (R71). -/
theorem memRead_sameButReads (s : State) (a : Word) : sameButReads s (s.memRead a).st := by
  apply sameButReads_of_fields <;> simp

theorem read16_sameButReads (s : State) (l h : Word) : sameButReads s (s.read16 l h).st := by
  apply sameButReads_of_fields <;> simp

/-- A read of plain memory answers the byte of the backing array. -/
theorem memRead_plain {s : State} {a : Word} (h : s.isPlain (s.busAddr a)) :
    s.memRead a = ⟨s.byteAt (s.busAddr a), s.logEvent (.read (s.busAddr a) (s.byteAt (s.busAddr a)))⟩ := by
  simp [State.memRead, State.busRead, State.byteAt, h.1, h.2.1]

/-- What a read answers and how it moves the counter depend on these fields alone. -/
theorem memRead_val_congr {s t : State} (a : Word) (cfg : t.cfg = s.cfg) (m : t.mem = s.mem) (o : t.oracle = s.oracle)
    (pd : t.portDdr = s.portDdr) (pl : t.portLatch = s.portLatch) (pp : t.portPins = s.portPins) :
    (t.memRead a).val = (s.memRead a).val ∧ (t.memRead a).st.oracle = (s.memRead a).st.oracle := by
  have hb : t.busAddr a = s.busAddr a := by simp [State.busAddr, cfg]
  have hp : t.isPort (s.busAddr a) = s.isPort (s.busAddr a) := by simp [State.isPort, cfg]
  have hr : t.portRead (s.busAddr a) = s.portRead (s.busAddr a) := by simp [State.portRead, pd, pl, pp]
  unfold State.memRead
  dsimp only
  rw [hb, hp]
  split
  · exact ⟨hr, o⟩
  · unfold State.busRead
    rw [cfg]
    split <;> simp [m, o]

/-! ## Writes -/

theorem busWrite_sameButBus (s : State) (b : Nat) (v : Byte) : sameButBus s (s.busWrite b v) := by
  unfold State.busWrite
  split <;> rfl

theorem portWrite_sameButBus (s : State) (b : Nat) (v : Byte) : sameButBus s (s.portWrite b v) := by
  unfold State.portWrite State.portStore
  dsimp only
  split <;> split <;> rfl

/-- A write of memory changes nothing but memory, the port's registers and the event log (R71). -/
theorem memWrite_sameButBus (s : State) (a : Word) (v : Byte) : sameButBus s (s.memWrite a v) := by
  unfold State.memWrite
  dsimp only
  split
  · exact portWrite_sameButBus s _ v
  · exact busWrite_sameButBus s _ v

theorem portWrite_ddr_latch (s : State) (b : Nat) (v : Byte) :
    (s.portWrite b v).portDdr = (if b = 0 then v else s.portDdr) ∧
      (s.portWrite b v).portLatch = (if b = 0 then s.portLatch else v) ∧ (s.portWrite b v).mem = s.mem := by
  unfold State.portWrite State.portStore
  dsimp only
  split <;> split <;> simp_all

/-- What a write stores (R71, R72, R74). -/
theorem memWrite_stored (s : State) (a : Word) (v : Byte) : stored s (s.memWrite a v) a v := by
  unfold stored State.memWrite
  dsimp only
  constructor
  · intro h
    have hp := portWrite_ddr_latch s (s.busAddr a) v
    simp [h, hp, State.byteAt]
  · intro h
    simp only [h, Bool.false_eq_true, if_false]
    unfold State.busWrite
    split
    · rename_i hr
      refine ⟨rfl, rfl, ?_, fun k hk => ?_⟩
      · simp [State.byteAt, hr]
      · simpa [State.byteAt] using Memory.read_write_of_ne s.mem hk v
    all_goals
      rename_i hr
      simp [State.byteAt, hr]

/-- The canonical form of memory is kept by every write. -/
theorem memWrite_mem_wf {s : State} (h : s.mem.wf = true) (a : Word) (v : Byte) : (s.memWrite a v).mem.wf = true := by
  unfold State.memWrite
  dsimp only
  split
  · rw [(portWrite_ddr_latch s _ v).2.2]
    exact h
  · unfold State.busWrite
    split
    · exact Memory.wf_write h _ v
    all_goals exact h

/-- The fields `stored` speaks of are all it depends on. -/
theorem stored_congr {s s' t t' : State} {a : Word} {v : Byte} (cfg : s'.cfg = s.cfg) (m : s'.mem = s.mem)
    (pd : s'.portDdr = s.portDdr) (pl : s'.portLatch = s.portLatch) (m' : t'.mem = t.mem) (pd' : t'.portDdr = t.portDdr)
    (pl' : t'.portLatch = t.portLatch) (h : stored s t a v) : stored s' t' a v := by
  cases s; cases s'; cases t; cases t'
  dsimp only at cfg m pd pl m' pd' pl'
  subst cfg m pd pl m' pd' pl'
  exact h

/-! ## The stack -/

/-- A push (R81, R83). -/
theorem push_pushed (s : State) (v : Byte) : pushed s (s.push v) v :=
  ⟨stored_congr rfl rfl rfl rfl rfl rfl rfl (memWrite_stored s (stackAddr s.sp) v),
    s.memWrite (stackAddr s.sp) v, memWrite_sameButBus s _ v, rfl⟩

/-- A pull (R82, R83). -/
theorem pull_pulled (s : State) : pulled s s.pull.val s.pull.st := ⟨rfl, memRead_sameButReads _ _⟩

end Sys2Proof.Machine
end

