-- ==== Sys2Proof/Laws/Operands.lean ====
section
/-! SUPPORT. One lemma per operand operation: what resolving, reading, storing and modifying an operand can do. -/

namespace Sys2Proof.Machine

/-- Resolving makes only reads (R150). -/
theorem resolve_sameButReads (o : Addr) (s : State) : sameButReads s (resolve o s).st := by
  apply sameButReads_of_fields <;> simp

/-- Reading an operand makes only reads (R168). -/
theorem operand_sameButReads (o : Src) (s : State) : sameButReads s (operand o s).st := by
  apply sameButReads_of_fields <;> simp

/-- The write class: one store of `f`'s value at the effective address, nothing else (R168). -/
theorem storeWith_spec (o : Addr) (f : Ea → State → Byte) (s : State) :
    sameButBus s (storeWith o f s) ∧ stored s (storeWith o f s) (resolve o s).val.ea (f (resolve o s).val (resolve o s).st) := by
  refine ⟨sameButBus_trans (sameButBus_of_sameButReads (resolve_sameButReads o s)) (memWrite_sameButBus _ _ _), ?_⟩
  refine stored_congr ?_ ?_ ?_ ?_ rfl rfl rfl (memWrite_stored (resolve o s).st (resolve o s).val.ea _)
  all_goals simp

/-- The read-modify-write class: `g` acts on a state in which exactly one store of `f`'s value at the effective address has been
made (R79, R168). -/
theorem modifyWith_spec (o : Addr) (f : Byte → State → Byte) (g : Byte → State → State) (s : State) :
    ∃ r u, sameButReads s r ∧ sameButBus s u ∧
      stored s u (resolve o s).val.ea (f (operand (.mem o) s).val r) ∧ modifyWith o f g s = g (operand (.mem o) s).val u := by
  refine ⟨(operand (.mem o) s).st, _, operand_sameButReads _ s,
    sameButBus_trans (sameButBus_of_sameButReads (operand_sameButReads (.mem o) s)) (memWrite_sameButBus _ _ _), ?_, rfl⟩
  refine stored_congr ?_ ?_ ?_ ?_ rfl rfl rfl (memWrite_stored (operand (.mem o) s).st (resolve o s).val.ea _)
  all_goals simp

end Sys2Proof.Machine
end

