-- ==== Sys2Proof/Laws/Events.lean ====
section
/-! SUPPORT. The bus events of each shared operation (R80): one lemma per operation, in the terms of Safety.lean. -/

namespace Sys2Proof.Machine

/-! ## One access -/

/-- A read adds its event (R70, R73). -/
theorem memRead_busLog (s : State) (a : Word) : (s.memRead a).st.busLog = s.busLog ++ readEvents s a := by
  unfold readEvents State.memRead
  dsimp only
  split
  · simp
  · unfold State.busRead
    split <;> simp

/-- A write adds its event (R70, R74). -/
theorem memWrite_busLog (s : State) (a : Word) (v : Byte) : (s.memWrite a v).busLog = s.busLog ++ writeEvents s a v := by
  unfold writeEvents State.memWrite
  dsimp only
  split
  · unfold State.portWrite State.portStore State.portOutput
    dsimp only
    by_cases h : s.busAddr a = 0 <;> simp only [h, if_true, if_false] <;> split <;> simp_all [State.logEvent]
  · unfold State.busWrite
    split <;> rfl

/-- The fields an event of a read depends on. -/
theorem readEvents_congr {s t : State} (a : Word) (cfg : t.cfg = s.cfg) (m : t.mem = s.mem) (o : t.oracle = s.oracle)
    (pd : t.portDdr = s.portDdr) (pl : t.portLatch = s.portLatch) (pp : t.portPins = s.portPins) :
    readEvents t a = readEvents s a := by
  simp [readEvents, State.isPort, State.busAddr, cfg, (memRead_val_congr a cfg m o pd pl pp).1]

/-- The fields an event of a write depends on. -/
theorem writeEvents_congr {s t : State} (a : Word) (v : Byte) (cfg : t.cfg = s.cfg) (pd : t.portDdr = s.portDdr)
    (pl : t.portLatch = s.portLatch) (cb : t.portCallback = s.portCallback) : writeEvents t a v = writeEvents s a v := by
  cases s; cases t
  dsimp only at cfg pd pl cb
  subst cfg pd pl cb
  rfl

/-! ## Two reads, and the operand classes -/

theorem twoReadEvents_congr {s t : State} (lo hi : Word) (cfg : t.cfg = s.cfg) (m : t.mem = s.mem) (o : t.oracle = s.oracle)
    (pd : t.portDdr = s.portDdr) (pl : t.portLatch = s.portLatch) (pp : t.portPins = s.portPins) :
    twoReadEvents t lo hi = twoReadEvents s lo hi := by
  unfold twoReadEvents
  rw [readEvents_congr lo cfg m o pd pl pp]
  congr 1
  apply readEvents_congr <;> simp [*, (memRead_val_congr lo cfg m o pd pl pp).2]

/-- `Read16` (R76). -/
theorem read16_busLog (s : State) (lo hi : Word) : (s.read16 lo hi).st.busLog = s.busLog ++ twoReadEvents s lo hi := by
  simp [State.read16, twoReadEvents, memRead_busLog]

/-- Resolving makes the pointer reads (R150). -/
theorem resolve_busLog (o : Addr) (s : State) : (resolve o s).st.busLog = s.busLog ++ pointerEvents o s := by
  cases o <;> simp [resolve, pointerEvents, State.readZeroPagePointer, read16_busLog]

/-- Reading an operand of memory (R168). -/
theorem operandAt_busLog (o : Addr) (s : State) : (operandAt o s).st.busLog = s.busLog ++ loadEvents o s := by
  simp [operandAt, loadEvents, memRead_busLog, resolve_busLog]

/-- Reading an operand (R168). -/
theorem operand_busLog (o : Src) (s : State) : (operand o s).st.busLog = s.busLog ++ sourceEvents o s := by
  cases o <;> simp [operand, sourceEvents, operandAt_busLog]

/-- The write class (R168). -/
theorem storeWith_busLog (o : Addr) (f : Ea → State → Byte) (s : State) :
    (storeWith o f s).busLog = s.busLog ++ storeEvents o s (f (resolve o s).val (resolve o s).st) := by
  unfold storeWith storeEvents
  dsimp only
  rw [memWrite_busLog, resolve_busLog, List.append_assoc]
  congr 2
  apply writeEvents_congr <;> simp

/-- The read-modify-write class, up to its last update, which makes no access (R79, R168). -/
theorem modifyWith_busLog (o : Addr) (f : Byte → State → Byte) (g : Byte → State → State)
    (hg : ∀ m t, (g m t).busLog = t.busLog) (s : State) : (modifyWith o f g s).busLog =
      s.busLog ++ modifyEvents o s (f · (operand (.mem o) s).st) := by
  unfold modifyWith modifyEvents
  dsimp only
  rw [hg, memWrite_busLog, memRead_busLog, resolve_busLog, loadEvents, List.append_assoc, List.append_assoc]
  congr 1
  rw [List.append_assoc]
  congr 2
  apply writeEvents_congr <;> simp

/-! ## The stack and the handlers -/

/-- A push (R81). -/
theorem push_busLog (s : State) (v : Byte) : (s.push v).busLog = s.busLog ++ writeEvents s (stackAddr s.sp) v :=
  memWrite_busLog s (stackAddr s.sp) v

/-- A pull (R82). -/
theorem pull_busLog (s : State) : s.pull.st.busLog = s.busLog ++ readEvents s (stackAddr (s.sp + 1#8)) := by
  rw [State.pull, memRead_busLog]
  exact congrArg (s.busLog ++ ·) (readEvents_congr _ rfl rfl rfl rfl rfl rfl)

/-- Two pushes (R81). -/
theorem twoPush_busLog (s : State) (v w : Byte) : ((s.push v).push w).busLog = s.busLog ++ twoPushEvents s v w := by
  rw [push_busLog, push_busLog, twoPushEvents, List.append_assoc]
  exact congrArg (fun l => s.busLog ++ (writeEvents s (stackAddr s.sp) v ++ l)) (writeEvents_congr _ _ rfl rfl rfl rfl)

/-- Two pulls (R82). -/
theorem pullWord_busLog (s : State) :
    s.pullWord.st.busLog = s.busLog ++ twoReadEvents s (stackAddr (s.sp + 1#8)) (stackAddr (s.sp + 2#8)) := by
  have hsp : s.pull.st.sp + 1#8 = s.sp + 2#8 := by
    rw [show s.pull.st.sp = s.sp + 1#8 by simp [State.pull], BitVec.add_assoc]
    rfl
  unfold State.pullWord twoReadEvents
  dsimp only
  rw [pull_busLog, pull_busLog, hsp, List.append_assoc]
  congr 2
  apply readEvents_congr <;> simp [State.pull, (memRead_val_congr (s := s) (t := { s with sp := s.sp + 1#8 })
    (stackAddr (s.sp + 1#8)) rfl rfl rfl rfl rfl rfl).2]

/-- A write does not depend on S. -/
theorem memWrite_withSp (s : State) (x : Byte) (a : Word) (v : Byte) :
    ({ s with sp := x } : State).memWrite a v = { s.memWrite a v with sp := x } := by
  have hb : ({ s with sp := x } : State).busAddr a = s.busAddr a := rfl
  have hp : ({ s with sp := x } : State).isPort (s.busAddr a) = s.isPort (s.busAddr a) := rfl
  unfold State.memWrite
  dsimp only
  rw [hb, hp]
  split
  · by_cases h : s.busAddr a = 0 <;> simp only [State.portWrite, State.portStore, State.portOutput, h, if_true, if_false] <;>
      split <;> rfl
  · unfold State.busWrite
    dsimp only
    split <;> rfl

/-- Three pushes are three writes and S. -/
theorem push_push_push (s : State) (v w x : Byte) : ((s.push v).push w).push x =
    { ((s.memWrite (stackAddr s.sp) v).memWrite (stackAddr (s.sp - 1#8)) w).memWrite (stackAddr (s.sp - 2#8)) x with
      sp := s.sp - 3#8 } := by
  have h2 : s.sp - 1#8 - 1#8 = s.sp - 2#8 := by rw [BitVec.sub_sub]; rfl
  have h3 : s.sp - 2#8 - 1#8 = s.sp - 3#8 := by rw [BitVec.sub_sub]; rfl
  simp only [State.push, memWrite_withSp, h2, h3]

/-- Loading PC from a vector makes the two vector reads (R404). -/
theorem jumpVector_busLog (s : State) (vector : Word) : (s.jumpVector vector).busLog =
    s.busLog ++ twoReadEvents s (s.cfg.addrMask &&& vector) (s.cfg.addrMask &&& (vector + 1#16)) := read16_busLog _ _ _

/-- Entering a handler (R404, R408). -/
theorem enterHandler_busLog (s : State) (vector : Word) (pp : Byte) :
    (s.enterHandler vector pp).busLog = s.busLog ++ entryEvents s vector pp := by
  have hu : (((s.memWrite (stackAddr s.sp) (hiByte s.pc)).memWrite (stackAddr (s.sp - 1#8)) (loByte s.pc)).memWrite
      (stackAddr (s.sp - 2#8)) pp).cfg = s.cfg := by simp
  unfold State.enterHandler entryEvents twoPushEvents
  dsimp only
  rw [push_push_push]
  generalize hv : ((s.memWrite (stackAddr s.sp) (hiByte s.pc)).memWrite (stackAddr (s.sp - 1#8)) (loByte s.pc)).memWrite
    (stackAddr (s.sp - 2#8)) pp = v at hu
  rw [jumpVector_busLog]
  have hr : ∀ q a b, twoReadEvents (({ v with sp := s.sp - 3#8 } : State).setP q) a b = twoReadEvents v a b :=
    fun q a b => twoReadEvents_congr a b rfl rfl rfl rfl rfl rfl
  rw [hr]
  simp only [State.setP, ← hv, memWrite_busLog, State.memWrite_cfg, List.append_assoc]

/-- Entering a handler, whole (R404, R408). -/
theorem enterHandler_entered (s : State) (vector : Word) (pp : Byte)
    (hq : writesFlags s.p (setFlag s.p .i true) [(.i, true)]) : entered s (s.enterHandler vector pp) vector pp := by
  refine ⟨enterHandler_busLog s vector pp, s.push (hiByte s.pc), (s.push (hiByte s.pc)).push (loByte s.pc),
    ((s.push (hiByte s.pc)).push (loByte s.pc)).push pp, setFlag s.p .i true, push_pushed _ _, push_pushed _ _, push_pushed _ _,
    hq, _, _, rfl, rfl, ?_⟩
  simp [State.enterHandler, State.jumpVector, State.read16, State.setP]

end Sys2Proof.Machine
end

