-- ==== Sys2Proof/Laws/Flags.lean ====
section
/-! SUPPORT. Reading a flag after any write of P: one lemma per operation of Machine/Flags.lean, in terms of `getFlag`, and how
`writesFlags` follows from them. -/

namespace Sys2Proof.Machine

/-! ## Bits of P -/

@[simp] theorem getFlag_setFlag (p : Byte) (f g : Flag) (v : Bool) :
    getFlag (setFlag p f v) g = if g = f then v else getFlag p g := by
  cases f <;> cases g <;> cases v <;> simp [getFlag, setFlag, Flag.index]

theorem getFlag_pushedBySoftware (p : Byte) (g : Flag) :
    getFlag (pushedBySoftware p) g = if g = .b ∨ g = .u then true else getFlag p g := by
  cases g <;> simp [getFlag, pushedBySoftware, Flag.index]

theorem getFlag_pushedByInterrupt (p : Byte) (g : Flag) :
    getFlag (pushedByInterrupt p) g = if g = .b then false else if g = .u then true else getFlag p g := by
  cases g <;> simp [getFlag, pushedByInterrupt, Flag.index]

theorem getFlag_restoredP (p : Byte) (g : Flag) : getFlag (restoredP p) g = if g = .u then true else getFlag p g := by
  cases g <;> simp [getFlag, restoredP, Flag.index]

/-- Two bytes with the same flags are equal. -/
theorem eq_of_getFlag_eq {p q : Byte} (h : ∀ f, getFlag p f = getFlag q f) : p = q := by
  apply BitVec.eq_of_getLsbD_eq
  intro i hi
  rcases i with _ | _ | _ | _ | _ | _ | _ | _ | i
  · exact h .c
  · exact h .z
  · exact h .i
  · exact h .d
  · exact h .b
  · exact h .u
  · exact h .v
  · exact h .n
  · omega

/-- Writing a bit that P has changes nothing. -/
theorem setFlag_getFlag (p : Byte) (f : Flag) : setFlag p f (getFlag p f) = p :=
  eq_of_getFlag_eq fun g => by by_cases h : g = f <;> simp [h]

/-! ## The flags of a result -/

@[simp] theorem msb_eq_getLsbD_seven (v : Byte) : v.msb = v.getLsbD 7 := by simp [BitVec.msb_eq_getLsbD_last]

theorem writesFlags_setNZ (p v : Byte) : writesFlags p (setNZ p v) (nz v) := by
  intro f
  cases f <;> simp [setNZ, nz, List.lookup] <;> rfl

theorem writesFlags_setNZ_setFlag_c (p v : Byte) (c : Bool) : writesFlags p (setNZ (setFlag p .c c) v) ((.c, c) :: nz v) := by
  intro f
  cases f <;> simp [setNZ, nz, List.lookup] <;> rfl

theorem writesFlags_setFlag (p : Byte) (f : Flag) (v : Bool) : writesFlags p (setFlag p f v) [(f, v)] := by
  intro g
  by_cases h : g = f <;> simp [h, List.lookup]
  have : (g == f) = false := by simpa using h
  simp [this]

theorem writesFlags_aluOut (p : Byte) (o : AluOut) :
    writesFlags p (o.flags p) [(.n, o.n), (.v, o.v), (.z, o.z), (.c, o.c)] := by
  intro f
  cases f <;> simp [AluOut.flags, List.lookup] <;> rfl

theorem writesFlags_pushedBySoftware (p : Byte) : writesFlags p (pushedBySoftware p) [(.b, true), (.u, true)] := by
  intro f
  rw [getFlag_pushedBySoftware]
  cases f <;> simp [List.lookup] <;> rfl

theorem writesFlags_pushedByInterrupt (p : Byte) : writesFlags p (pushedByInterrupt p) [(.b, false), (.u, true)] := by
  intro f
  rw [getFlag_pushedByInterrupt]
  cases f <;> simp [List.lookup] <;> rfl

theorem writesFlags_restoredP (p : Byte) : writesFlags p (restoredP p) [(.u, true)] := by
  intro f
  rw [getFlag_restoredP]
  cases f <;> simp [List.lookup] <;> rfl

end Sys2Proof.Machine
end

