-- ==== Sys2Proof/Laws/PerInstr.lean ====
section
/-! SUPPORT. Statements about every instruction, one lemma per constructor. -/

namespace Sys2Proof.Laws

/-! ## Length: the encoder's operand bytes and the decoder's length agree -/

/-- On every variant that has the instruction, its opcode and operand bytes are as many as the decoder gives the opcode (R110,
R111). -/
def Length.Statement (i : Instr) : Prop :=
  ∀ (v : Variant) (op : Byte), opcodeOf v i = some op → (operandBytes i).length + 1 = lengthOf v op

/-- The statement as a check of each variant's opcode. -/
theorem Length.of_check {i : Instr} (h : ∀ v : Variant,
    (opcodeOf v i).all (fun op => (operandBytes i).length + 1 == lengthOf v op) = true) : Length.Statement i := by
  intro v op hop
  have hv := h v
  rw [hop] at hv
  simpa using hv

/-- The statement of an instruction that keeps its opcode byte, from the list of its slots. -/
theorem Length.of_slots {i : Instr} {slots : Variant → List Byte} (code : ∀ v op, opcodeOf v i = some op → op ∈ slots v)
    (len : ∀ v, (slots v).all (fun op => (operandBytes i).length + 1 == lengthOf v op) = true) : Length.Statement i := by
  intro v op hop
  simpa using List.all_eq_true.mp (len v) op (code v op hop)

theorem Length.of_nopSlots {op : Byte} {o : Pad}
    (len : ∀ v, (nopSlots v o).all (fun c => o.bytes.length + 1 == lengthOf v c) = true) : Length.Statement (.nop op o) := by
  refine Length.of_slots (slots := (nopSlots · o)) (fun v c h => ?_) len
  simp only [opcodeOf] at h
  split at h
  · rename_i hm
    cases h
    exact List.contains_iff_mem.mp hm
  · cases h

theorem Length.of_undefSlots {op : Byte} {o : Pad}
    (len : (undefSlots o).all (fun c => o.bytes.length + 1 == lengthOf .cmos c) = true) : Length.Statement (.undef op o) := by
  intro v c h
  cases v <;> simp only [opcodeOf, onCmos, Variant.isCmos, Bool.false_eq_true, if_false, if_true, reduceCtorEq] at h
  split at h
  · rename_i hm
    cases h
    simpa [operandBytes] using List.all_eq_true.mp len op (List.contains_iff_mem.mp hm)
  · cases h

theorem Length.adc (o : Src) : Length.Statement (.adc o) :=
  Length.of_check fun v => by cases o with
    | imm b => cases v <;> rfl
    | mem o => cases v <;> cases o <;> rfl

theorem Length.sbc (o : Src) : Length.Statement (.sbc o) :=
  Length.of_check fun v => by cases o with
    | imm b => cases v <;> rfl
    | mem o => cases v <;> cases o <;> rfl

theorem Length.and (o : Src) : Length.Statement (.and o) :=
  Length.of_check fun v => by cases o with
    | imm b => cases v <;> rfl
    | mem o => cases v <;> cases o <;> rfl

theorem Length.ora (o : Src) : Length.Statement (.ora o) :=
  Length.of_check fun v => by cases o with
    | imm b => cases v <;> rfl
    | mem o => cases v <;> cases o <;> rfl

theorem Length.eor (o : Src) : Length.Statement (.eor o) :=
  Length.of_check fun v => by cases o with
    | imm b => cases v <;> rfl
    | mem o => cases v <;> cases o <;> rfl

theorem Length.lda (o : Src) : Length.Statement (.lda o) :=
  Length.of_check fun v => by cases o with
    | imm b => cases v <;> rfl
    | mem o => cases v <;> cases o <;> rfl

theorem Length.ldx (o : Src) : Length.Statement (.ldx o) :=
  Length.of_check fun v => by cases o with
    | imm b => cases v <;> rfl
    | mem o => cases v <;> cases o <;> rfl

theorem Length.ldy (o : Src) : Length.Statement (.ldy o) :=
  Length.of_check fun v => by cases o with
    | imm b => cases v <;> rfl
    | mem o => cases v <;> cases o <;> rfl

theorem Length.sta (o : Addr) : Length.Statement (.sta o) :=
  Length.of_check fun v => by cases v <;> cases o <;> rfl

theorem Length.stx (o : Addr) : Length.Statement (.stx o) :=
  Length.of_check fun v => by cases v <;> cases o <;> rfl

theorem Length.sty (o : Addr) : Length.Statement (.sty o) :=
  Length.of_check fun v => by cases v <;> cases o <;> rfl

theorem Length.tax : Length.Statement .tax := Length.of_check fun v => by cases v <;> rfl

theorem Length.tay : Length.Statement .tay := Length.of_check fun v => by cases v <;> rfl

theorem Length.txa : Length.Statement .txa := Length.of_check fun v => by cases v <;> rfl

theorem Length.tya : Length.Statement .tya := Length.of_check fun v => by cases v <;> rfl

theorem Length.tsx : Length.Statement .tsx := Length.of_check fun v => by cases v <;> rfl

theorem Length.txs : Length.Statement .txs := Length.of_check fun v => by cases v <;> rfl

theorem Length.inc (o : Addr) : Length.Statement (.inc o) :=
  Length.of_check fun v => by cases v <;> cases o <;> rfl

theorem Length.dec (o : Addr) : Length.Statement (.dec o) :=
  Length.of_check fun v => by cases v <;> cases o <;> rfl

theorem Length.inx : Length.Statement .inx := Length.of_check fun v => by cases v <;> rfl

theorem Length.iny : Length.Statement .iny := Length.of_check fun v => by cases v <;> rfl

theorem Length.dex : Length.Statement .dex := Length.of_check fun v => by cases v <;> rfl

theorem Length.dey : Length.Statement .dey := Length.of_check fun v => by cases v <;> rfl

theorem Length.asl (o : Place) : Length.Statement (.asl o) :=
  Length.of_check fun v => by cases o with
    | acc => cases v <;> rfl
    | mem o => cases v <;> cases o <;> rfl

theorem Length.lsr (o : Place) : Length.Statement (.lsr o) :=
  Length.of_check fun v => by cases o with
    | acc => cases v <;> rfl
    | mem o => cases v <;> cases o <;> rfl

theorem Length.rol (o : Place) : Length.Statement (.rol o) :=
  Length.of_check fun v => by cases o with
    | acc => cases v <;> rfl
    | mem o => cases v <;> cases o <;> rfl

theorem Length.ror (o : Place) : Length.Statement (.ror o) :=
  Length.of_check fun v => by cases o with
    | acc => cases v <;> rfl
    | mem o => cases v <;> cases o <;> rfl

theorem Length.cmp (o : Src) : Length.Statement (.cmp o) :=
  Length.of_check fun v => by cases o with
    | imm b => cases v <;> rfl
    | mem o => cases v <;> cases o <;> rfl

theorem Length.cpx (o : Src) : Length.Statement (.cpx o) :=
  Length.of_check fun v => by cases o with
    | imm b => cases v <;> rfl
    | mem o => cases v <;> cases o <;> rfl

theorem Length.cpy (o : Src) : Length.Statement (.cpy o) :=
  Length.of_check fun v => by cases o with
    | imm b => cases v <;> rfl
    | mem o => cases v <;> cases o <;> rfl

theorem Length.bit (o : Src) : Length.Statement (.bit o) :=
  Length.of_check fun v => by cases o with
    | imm b => cases v <;> rfl
    | mem o => cases v <;> cases o <;> rfl

theorem Length.bpl (rr : Byte) : Length.Statement (.bpl rr) := Length.of_check fun v => by cases v <;> rfl

theorem Length.bmi (rr : Byte) : Length.Statement (.bmi rr) := Length.of_check fun v => by cases v <;> rfl

theorem Length.bvc (rr : Byte) : Length.Statement (.bvc rr) := Length.of_check fun v => by cases v <;> rfl

theorem Length.bvs (rr : Byte) : Length.Statement (.bvs rr) := Length.of_check fun v => by cases v <;> rfl

theorem Length.bcc (rr : Byte) : Length.Statement (.bcc rr) := Length.of_check fun v => by cases v <;> rfl

theorem Length.bcs (rr : Byte) : Length.Statement (.bcs rr) := Length.of_check fun v => by cases v <;> rfl

theorem Length.bne (rr : Byte) : Length.Statement (.bne rr) := Length.of_check fun v => by cases v <;> rfl

theorem Length.beq (rr : Byte) : Length.Statement (.beq rr) := Length.of_check fun v => by cases v <;> rfl

theorem Length.jmp (o : Target) : Length.Statement (.jmp o) :=
  Length.of_check fun v => by cases v <;> cases o <;> rfl

theorem Length.jsr (w : Word) : Length.Statement (.jsr w) := Length.of_check fun v => by cases v <;> rfl

theorem Length.rts : Length.Statement .rts := Length.of_check fun v => by cases v <;> rfl

theorem Length.pha : Length.Statement .pha := Length.of_check fun v => by cases v <;> rfl

theorem Length.php : Length.Statement .php := Length.of_check fun v => by cases v <;> rfl

theorem Length.pla : Length.Statement .pla := Length.of_check fun v => by cases v <;> rfl

theorem Length.plp : Length.Statement .plp := Length.of_check fun v => by cases v <;> rfl

theorem Length.rti : Length.Statement .rti := Length.of_check fun v => by cases v <;> rfl

theorem Length.brk : Length.Statement .brk := Length.of_check fun v => by cases v <;> rfl

theorem Length.clc : Length.Statement .clc := Length.of_check fun v => by cases v <;> rfl

theorem Length.sec : Length.Statement .sec := Length.of_check fun v => by cases v <;> rfl

theorem Length.cli : Length.Statement .cli := Length.of_check fun v => by cases v <;> rfl

theorem Length.sei : Length.Statement .sei := Length.of_check fun v => by cases v <;> rfl

theorem Length.clv : Length.Statement .clv := Length.of_check fun v => by cases v <;> rfl

theorem Length.cld : Length.Statement .cld := Length.of_check fun v => by cases v <;> rfl

theorem Length.sed : Length.Statement .sed := Length.of_check fun v => by cases v <;> rfl

theorem Length.slo (o : Addr) : Length.Statement (.slo o) :=
  Length.of_check fun v => by cases v <;> cases o <;> rfl

theorem Length.rla (o : Addr) : Length.Statement (.rla o) :=
  Length.of_check fun v => by cases v <;> cases o <;> rfl

theorem Length.sre (o : Addr) : Length.Statement (.sre o) :=
  Length.of_check fun v => by cases v <;> cases o <;> rfl

theorem Length.rra (o : Addr) : Length.Statement (.rra o) :=
  Length.of_check fun v => by cases v <;> cases o <;> rfl

theorem Length.sax (o : Addr) : Length.Statement (.sax o) :=
  Length.of_check fun v => by cases v <;> cases o <;> rfl

theorem Length.lax (o : Addr) : Length.Statement (.lax o) :=
  Length.of_check fun v => by cases v <;> cases o <;> rfl

theorem Length.dcp (o : Addr) : Length.Statement (.dcp o) :=
  Length.of_check fun v => by cases v <;> cases o <;> rfl

theorem Length.isc (o : Addr) : Length.Statement (.isc o) :=
  Length.of_check fun v => by cases v <;> cases o <;> rfl

theorem Length.anc (op : Byte) (m : Byte) : Length.Statement (.anc op m) :=
  Length.of_slots (slots := fun v => if v.isCmos then [] else [0x0B#8, 0x2B#8])
    (fun v c h => by cases v <;> simp [opcodeOf, onNmos, Variant.isCmos] at h ⊢ <;> obtain ⟨h, rfl⟩ := h <;> exact h)
    (by intro v; cases v <;> rfl)

theorem Length.alr (m : Byte) : Length.Statement (.alr m) := Length.of_check fun v => by cases v <;> rfl

theorem Length.arr (m : Byte) : Length.Statement (.arr m) := Length.of_check fun v => by cases v <;> rfl

theorem Length.sbx (m : Byte) : Length.Statement (.sbx m) := Length.of_check fun v => by cases v <;> rfl

theorem Length.ane (m : Byte) : Length.Statement (.ane m) := Length.of_check fun v => by cases v <;> rfl

theorem Length.lxa (m : Byte) : Length.Statement (.lxa m) := Length.of_check fun v => by cases v <;> rfl

theorem Length.las (o : Addr) : Length.Statement (.las o) :=
  Length.of_check fun v => by cases v <;> cases o <;> rfl

theorem Length.tas (o : Addr) : Length.Statement (.tas o) :=
  Length.of_check fun v => by cases v <;> cases o <;> rfl

theorem Length.shy (o : Addr) : Length.Statement (.shy o) :=
  Length.of_check fun v => by cases v <;> cases o <;> rfl

theorem Length.shx (o : Addr) : Length.Statement (.shx o) :=
  Length.of_check fun v => by cases v <;> cases o <;> rfl

theorem Length.sha (o : Addr) : Length.Statement (.sha o) :=
  Length.of_check fun v => by cases v <;> cases o <;> rfl

theorem Length.usbc (m : Byte) : Length.Statement (.usbc m) := Length.of_check fun v => by cases v <;> rfl

theorem Length.tsb (o : Addr) : Length.Statement (.tsb o) :=
  Length.of_check fun v => by cases v <;> cases o <;> rfl

theorem Length.trb (o : Addr) : Length.Statement (.trb o) :=
  Length.of_check fun v => by cases v <;> cases o <;> rfl

theorem Length.stz (o : Addr) : Length.Statement (.stz o) :=
  Length.of_check fun v => by cases v <;> cases o <;> rfl

theorem Length.bra (rr : Byte) : Length.Statement (.bra rr) := Length.of_check fun v => by cases v <;> rfl

theorem Length.phx : Length.Statement .phx := Length.of_check fun v => by cases v <;> rfl

theorem Length.plx : Length.Statement .plx := Length.of_check fun v => by cases v <;> rfl

theorem Length.phy : Length.Statement .phy := Length.of_check fun v => by cases v <;> rfl

theorem Length.ply : Length.Statement .ply := Length.of_check fun v => by cases v <;> rfl

theorem Length.rmb (b : Fin 8) (z : Byte) : Length.Statement (.rmb b z) :=
  Length.of_check fun v => by cases v <;> first | rfl | (fin_cases b <;> rfl)

theorem Length.smb (b : Fin 8) (z : Byte) : Length.Statement (.smb b z) :=
  Length.of_check fun v => by cases v <;> first | rfl | (fin_cases b <;> rfl)

theorem Length.bbr (b : Fin 8) (z : Byte) (rr : Byte) : Length.Statement (.bbr b z rr) :=
  Length.of_check fun v => by cases v <;> first | rfl | (fin_cases b <;> rfl)

theorem Length.bbs (b : Fin 8) (z : Byte) (rr : Byte) : Length.Statement (.bbs b z rr) :=
  Length.of_check fun v => by cases v <;> first | rfl | (fin_cases b <;> rfl)

theorem Length.ina : Length.Statement .ina := Length.of_check fun v => by cases v <;> rfl

theorem Length.dea : Length.Statement .dea := Length.of_check fun v => by cases v <;> rfl

theorem Length.nop (op : Byte) (o : Pad) : Length.Statement (.nop op o) :=
  Length.of_nopSlots (by cases o with
    | imp => intro v; cases v <;> decide
    | imm b => intro v; cases v <;> rfl
    | mem o => intro v; cases v <;> cases o <;> rfl)

theorem Length.jam (op : Byte) : Length.Statement (.jam op) :=
  Length.of_slots (slots := fun v => if v.isCmos then [] else jamSlots)
    (fun v c h => by cases v <;> simp [opcodeOf, onNmos, Variant.isCmos] at h ⊢ <;> exact h.2 ▸ h.1)
    (by intro v; cases v <;> rfl)

theorem Length.undef (op : Byte) (o : Pad) : Length.Statement (.undef op o) :=
  Length.of_undefSlots (by cases o with
    | imp => decide
    | imm b => rfl
    | mem o => cases o <;> rfl)

end Sys2Proof.Laws
end

