-- ==== Sys2Proof/Laws/Step.lean ====
section
/-! SUPPORT. What a step can do, said once: each meaning answers a next state, and a step is one of four things. -/

namespace Sys2Proof.Machine

/-- Every meaning answers a next state (R410). -/
theorem exec_next (i : Instr) (s : State) : ∃ t, exec i s = .next t := by
  cases i
  case bit o => cases o <;> exact ⟨_, rfl⟩
  case jam op =>
    cases h : s.cfg.jamPolicy
    · exact ⟨s, by simp [exec, execJam, h]⟩
    · exact ⟨{ s with halted := true }, by simp [exec, execJam, h]⟩
  all_goals exact ⟨_, rfl⟩

/-- The instruction step answers what its instruction left, finished (R400 steps 5 to 8). -/
theorem runInstr_eq (s : State) : ∃ u, exec s.fetchInstr.instr s.fetchInstr.st = .next u ∧
    runInstr s = .next (u.finishInstr s.fetchInstr.op s.fetchInstr.crossed) := by
  obtain ⟨u, hu⟩ := exec_next s.fetchInstr.instr s.fetchInstr.st
  exact ⟨u, hu, by simp [runInstr, hu]⟩

/-- A step is the halted core's, an NMI's, an IRQ's or an instruction's (R400, R407). -/
theorem step_cases {s t : State} (h : step s = .next t) : s.hasReset = true ∧
    ((s.halted = true ∧ t = s.beginStep) ∨
      (s.halted = false ∧ s.nmiPending = true ∧ t = s.beginStep.nmiStep) ∨
      (s.halted = false ∧ s.nmiPending = false ∧ s.irqRecognised = true ∧ t = s.beginStep.irqStep) ∨
      (s.halted = false ∧ s.nmiPending = false ∧ s.irqRecognised = false ∧
        ∃ u, exec s.beginStep.fetchInstr.instr s.beginStep.fetchInstr.st = .next u ∧
          t = u.finishInstr s.beginStep.fetchInstr.op s.beginStep.fetchInstr.crossed)) := by
  unfold step runStep at h
  cases hr : s.hasReset <;> simp only [hr, if_true, Bool.true_eq_false, if_false] at h
  · cases h
  refine ⟨rfl, ?_⟩
  cases hh : s.halted <;> simp only [hh, if_true, Bool.false_eq_true, if_false] at h
  · right
    cases hn : s.nmiPending <;> simp only [hn, if_true, Bool.false_eq_true, if_false] at h
    · right
      cases hi : s.irqRecognised <;> simp only [hi, if_true, Bool.false_eq_true, if_false] at h
      · obtain ⟨u, hu, hrun⟩ := runInstr_eq s.beginStep
        exact .inr ⟨rfl, rfl, rfl, u, hu, by rw [hrun] at h; cases h; rfl⟩
      · exact .inl ⟨rfl, rfl, rfl, by cases h; rfl⟩
    · exact .inl ⟨rfl, rfl, by cases h; rfl⟩
  · exact .inl ⟨rfl, by cases h; rfl⟩

/-- After a reset a step is not refused and does not fault. -/
theorem step_next {s : State} (h : s.hasReset = true) : ∃ t, step s = .next t := by
  unfold step runStep
  simp only [h, Bool.true_eq_false, if_false]
  obtain ⟨u, -, hrun⟩ := runInstr_eq s.beginStep
  split
  · exact ⟨_, rfl⟩
  split
  · exact ⟨_, rfl⟩
  split
  · exact ⟨_, rfl⟩
  · exact ⟨_, hrun⟩

end Sys2Proof.Machine
end

