-- ==== Sys2Proof/Tests/Slice0.lean ====
section
/-! SUPPORT. Tests. Expected words come from the "Encoding" lines and spec/opcode_table.json, expected states from
spec/95_test_vectors.md (the vector's id ends the test's name) or from the rule a test names. The witnesses at the end meet the
hypotheses of the statements in Certificates/Slice0/Obligations.lean. -/

namespace Sys2Proof.Tests

open Sys2Proof Sys2Proof.Machine

/-! ## Helpers -/

/-- Memory holding the listed bytes. -/
def ram (cells : List (Nat × Byte)) : Memory := cells.foldl (fun m c => m.write c.1 c.2) []

/-- The reset state of 95_test_vectors.md on a variant, with the code at `org`, PC there, and registers as the host set them. -/
def startAt (org : Nat) (v : Variant) (code : List Byte) (regs : List (RegId × Byte)) (cells : List (Nat × Byte)) : State :=
  regs.foldl (fun s r => s.setReg r.1 r.2)
    { State.reset with
      cfg := Config.default v
      pc := BitVec.ofNat 16 org
      mem := ram (code.zipIdx.map (fun c => (org + c.2, c.1)) ++ cells) }

/-- The same with the code at $8000. -/
def start : Variant → List Byte → List (RegId × Byte) → List (Nat × Byte) → State := startAt 0x8000

/-- The state with `BRK_CLEARS_D = false`. -/
def keepsD (s : State) : State := { s with cfg := { s.cfg with brkClearsD := false } }

/-- One step ends in the listed registers, cycle count and bytes of memory. -/
def ends (s : State) (a x y sp p : Byte) (pc : Word) (cycles : Nat) (cells : List (Nat × Byte)) : Bool :=
  match step s with
  | .next t => decide ((t.a, t.x, t.y, t.sp, t.p, t.pc, t.clockticks) = (a, x, y, sp, p, pc, cycles)) &&
      cells.all (fun c => t.mem.read c.1 == c.2)
  | .fault _ | .refused _ => false

/-- What one step answers, seen through `f`; nothing where the step stops. -/
def after {α : Type} (s : State) (f : State → α) : Option α :=
  match step s with
  | .next t => some (f t)
  | .fault _ | .refused _ => none

/-- Every listed word decodes to the instruction beside it, with no byte left. -/
def decodesAll (l : List (Variant × List Byte × Instr)) : Bool :=
  l.all fun c =>
    match decode c.1 c.2.1 with
    | .ok (i, rest) => decide (i = c.2.2) && rest.isEmpty
    | .error _ => false

/-! ## Well-formedness: an ill-formed term for each check -/

theorem test_illformed_accumulator_modes : WellFormed .nmos (.adc (.mem (.izp 0x12))) = false ∧
    WellFormed .cmos (.ora (.mem (.zpy 0x12))) = false ∧ WellFormed .nmos (.sta (.izp 0x12)) = false ∧
    WellFormed .cmos (.adc (.mem (.izp 0x12))) = true := by decide

theorem test_illformed_index_load_store : WellFormed .nmos (.ldx (.mem (.zpx 0x12))) = false ∧
    WellFormed .nmos (.ldy (.mem (.zpy 0x12))) = false ∧ WellFormed .nmos (.stx (.aby 0x1234)) = false ∧
    WellFormed .nmos (.sty (.abx 0x1234)) = false ∧ WellFormed .nmos (.cpx (.mem (.zpx 0x12))) = false := by decide

theorem test_illformed_bit : WellFormed .nmos (.bit (.imm 0x12)) = false ∧ WellFormed .m6510 (.bit (.mem (.abx 0x1234))) = false ∧
    WellFormed .cmos (.bit (.mem (.aby 0x1234))) = false := by decide

theorem test_illformed_modify : WellFormed .nmos (.inc (.aby 0x1234)) = false ∧ WellFormed .nmos (.asl (.mem (.izx 0x12))) = false ∧
    WellFormed .nes2A03 (.jmp (.iax 0x1234)) = false := by decide

theorem test_illformed_undocumented : WellFormed .cmos (.slo (.zp 0x12)) = false ∧ WellFormed .nmos (.rra (.izp 0x12)) = false ∧
    WellFormed .nmos (.sax (.zpx 0x12)) = false ∧ WellFormed .nmos (.lax (.abx 0x1234)) = false ∧
    WellFormed .nmos (.anc 0x0C 0x12) = false ∧ WellFormed .cmos (.alr 0x12) = false ∧
    WellFormed .nmos (.las (.abx 0x1234)) = false ∧ WellFormed .nmos (.shy (.aby 0x1234)) = false ∧
    WellFormed .nmos (.sha (.izx 0x12)) = false := by decide

theorem test_illformed_cmos : WellFormed .nmos (.tsb (.zp 0x12)) = false ∧ WellFormed .cmos (.trb (.zpx 0x12)) = false ∧
    WellFormed .cmos (.stz (.aby 0x1234)) = false ∧ WellFormed .m6510 .phx = false ∧ WellFormed .nmos (.bra 0x12) = false ∧
    WellFormed .nes2A03 (.rmb 3 0x12) = false := by decide

theorem test_illformed_slots : WellFormed .cmos (.nop 0x1A .imp) = false ∧ WellFormed .nmos (.nop 0x80 .imp) = false ∧
    WellFormed .nmos (.jam 0x82) = false ∧ WellFormed .cmos (.jam 0x02) = false ∧ WellFormed .nmos (.undef 0x03 .imp) = false ∧
    WellFormed .cmos (.undef 0x02 .imp) = false ∧ WellFormed .cmos (.undef 0xDC (.mem (.abx 0x1234))) = false := by decide

/-! ## Decoding: a word of every constructor, bit by bit -/

theorem test_decode_arithmetic : decodesAll [
    (.nmos, [0b01110001, 0x9C], .adc (.mem (.izy 0x9C))),
    (.nmos, [0b11111001, 0x9C, 0x35], .sbc (.mem (.aby 0x359C)))] = true := by decide

theorem test_decode_logic_load_store : decodesAll [
    (.nmos, [0b00100001, 0x9C], .and (.mem (.izx 0x9C))),
    (.cmos, [0b00010010, 0x9C], .ora (.mem (.izp 0x9C))),
    (.nmos, [0b01011101, 0x9C, 0x35], .eor (.mem (.abx 0x359C))),
    (.nmos, [0b10110101, 0x9C], .lda (.mem (.zpx 0x9C))),
    (.nmos, [0b10110110, 0x9C], .ldx (.mem (.zpy 0x9C))),
    (.nmos, [0b10111100, 0x9C, 0x35], .ldy (.mem (.abx 0x359C))),
    (.nmos, [0b10011001, 0x9C, 0x35], .sta (.aby 0x359C)),
    (.nmos, [0b10010110, 0x9C], .stx (.zpy 0x9C)),
    (.nmos, [0b10010100, 0x9C], .sty (.zpx 0x9C)),
    (.nmos, [0b10101010], .tax),
    (.nmos, [0b10101000], .tay),
    (.nmos, [0b10001010], .txa),
    (.nmos, [0b10011000], .tya),
    (.nmos, [0b10111010], .tsx),
    (.nmos, [0b10011010], .txs),
    (.nmos, [0b11111110, 0x9C, 0x35], .inc (.abx 0x359C)),
    (.nmos, [0b11001110, 0x9C, 0x35], .dec (.abs 0x359C)),
    (.nmos, [0b11101000], .inx),
    (.nmos, [0b11001000], .iny),
    (.nmos, [0b11001010], .dex),
    (.nmos, [0b10001000], .dey)] = true := by decide

theorem test_decode_shift_compare_bit : decodesAll [
    (.nmos, [0b00001010], .asl .acc),
    (.nmos, [0b01010110, 0x9C], .lsr (.mem (.zpx 0x9C))),
    (.nmos, [0b00101110, 0x9C, 0x35], .rol (.mem (.abs 0x359C))),
    (.nmos, [0b01111110, 0x9C, 0x35], .ror (.mem (.abx 0x359C))),
    (.cmos, [0b11010010, 0x9C], .cmp (.mem (.izp 0x9C))),
    (.nmos, [0b11100000, 0x9C], .cpx (.imm 0x9C)),
    (.nmos, [0b11001100, 0x9C, 0x35], .cpy (.mem (.abs 0x359C))),
    (.cmos, [0b10001001, 0x9C], .bit (.imm 0x9C))] = true := by decide

theorem test_decode_branch_jump : decodesAll [
    (.nmos, [0b00010000, 0x9C], .bpl 0x9C),
    (.nmos, [0b00110000, 0x9C], .bmi 0x9C),
    (.nmos, [0b01010000, 0x9C], .bvc 0x9C),
    (.nmos, [0b01110000, 0x9C], .bvs 0x9C),
    (.nmos, [0b10010000, 0x9C], .bcc 0x9C),
    (.nmos, [0b10110000, 0x9C], .bcs 0x9C),
    (.nmos, [0b11010000, 0x9C], .bne 0x9C),
    (.nmos, [0b11110000, 0x9C], .beq 0x9C),
    (.cmos, [0b01111100, 0x9C, 0x35], .jmp (.iax 0x359C)),
    (.nmos, [0b00100000, 0x9C, 0x35], .jsr 0x359C),
    (.nmos, [0b01100000], .rts)] = true := by decide

theorem test_decode_stack_flags : decodesAll [
    (.nmos, [0b01001000], .pha),
    (.nmos, [0b00001000], .php),
    (.nmos, [0b01101000], .pla),
    (.nmos, [0b00101000], .plp),
    (.nmos, [0b01000000], .rti),
    (.nmos, [0b00000000], .brk),
    (.nmos, [0b00011000], .clc),
    (.nmos, [0b00111000], .sec),
    (.nmos, [0b01011000], .cli),
    (.nmos, [0b01111000], .sei),
    (.nmos, [0b10111000], .clv),
    (.nmos, [0b11011000], .cld),
    (.nmos, [0b11111000], .sed)] = true := by decide

theorem test_decode_undocumented : decodesAll [
    (.nmos, [0b00000011, 0x9C], .slo (.izx 0x9C)),
    (.nmos, [0b00110011, 0x9C], .rla (.izy 0x9C)),
    (.nmos, [0b01011011, 0x9C, 0x35], .sre (.aby 0x359C)),
    (.nmos, [0b01111111, 0x9C, 0x35], .rra (.abx 0x359C)),
    (.nmos, [0b10010111, 0x9C], .sax (.zpy 0x9C)),
    (.nmos, [0b10110011, 0x9C], .lax (.izy 0x9C)),
    (.nmos, [0b11000111, 0x9C], .dcp (.zp 0x9C)),
    (.nmos, [0b11101111, 0x9C, 0x35], .isc (.abs 0x359C)),
    (.nmos, [0b00101011, 0x9C], .anc 0x2B 0x9C),
    (.nmos, [0b01001011, 0x9C], .alr 0x9C),
    (.nmos, [0b01101011, 0x9C], .arr 0x9C),
    (.nmos, [0b11001011, 0x9C], .sbx 0x9C),
    (.nmos, [0b10001011, 0x9C], .ane 0x9C),
    (.nmos, [0b10101011, 0x9C], .lxa 0x9C),
    (.nmos, [0b10111011, 0x9C, 0x35], .las (.aby 0x359C)),
    (.nmos, [0b10011011, 0x9C, 0x35], .tas (.aby 0x359C)),
    (.nmos, [0b10011100, 0x9C, 0x35], .shy (.abx 0x359C)),
    (.nmos, [0b10011110, 0x9C, 0x35], .shx (.aby 0x359C)),
    (.nmos, [0b10010011, 0x9C], .sha (.izy 0x9C)),
    (.nmos, [0b11101011, 0x9C], .usbc 0x9C)] = true := by decide

theorem test_decode_cmos : decodesAll [
    (.cmos, [0b00001100, 0x9C, 0x35], .tsb (.abs 0x359C)),
    (.cmos, [0b00010100, 0x9C], .trb (.zp 0x9C)),
    (.cmos, [0b10011110, 0x9C, 0x35], .stz (.abx 0x359C)),
    (.cmos, [0b10000000, 0x9C], .bra 0x9C),
    (.cmos, [0b11011010], .phx),
    (.cmos, [0b11111010], .plx),
    (.cmos, [0b01011010], .phy),
    (.cmos, [0b01111010], .ply),
    (.cmos, [0b01000111, 0x9C], .rmb 4 0x9C),
    (.cmos, [0b11000111, 0x9C], .smb 4 0x9C),
    (.cmos, [0b01001111, 0x9C, 0x35], .bbr 4 0x9C 0x35),
    (.cmos, [0b11001111, 0x9C, 0x35], .bbs 4 0x9C 0x35),
    (.cmos, [0b00011010], .ina),
    (.cmos, [0b00111010], .dea)] = true := by decide

theorem test_decode_nop : decodesAll [
    (.nmos, [0b01111100, 0x9C, 0x35], .nop 0x7C (.mem (.abx 0x359C))),
    (.nmos, [0b01100010], .jam 0x62),
    (.cmos, [0b01100010, 0x9C], .undef 0x62 (.imm 0x9C))] = true := by decide

theorem test_decode_truncated : (decode .nmos [0x4C, 0x34] matches .error .truncated) = true ∧
    (decode .nmos [] matches .error .truncated) = true := by decide

theorem test_decode_table_words : decodeTableWord 8 0x18 = some .clc ∧ decodeTableWord 16 0x42A9 = some (.lda (.imm 0x42)) ∧
    decodeTableWord 24 0x12F09D = some (.sta (.abx 0x12F0)) := by decide

theorem test_encode_bytes : encode .nmos (.sta (.abx 0x12F0)) = some [0x9D, 0xF0, 0x12] ∧
    encode .cmos (.bbs 7 0x10 0xFD) = some [0xFF, 0x10, 0xFD] ∧ encode .nmos (.lda (.mem (.izp 0x10))) = none := by decide

/-! ## One step of every instruction (95_test_vectors.md section 2.1) -/

theorem test_lda_A9 : ends (start .nmos [0xA1, 0xFE] [(.x, 0x01)] [(0x0000, 0x20), (0x00FF, 0x00), (0x2000, 0x77)])
    0x77 0x01 0x00 0xFF 0x24 0x8002 6 [] = true := by decide

theorem test_lda_A11 : ends (start .cmos [0xB2, 0x20] [] [(0x0020, 0x00), (0x0021, 0x30), (0x3000, 0x79)])
    0x79 0x00 0x00 0xFF 0x24 0x8002 5 [] = true := by decide

theorem test_ldx_A3 : ends (start .nmos [0xB6, 0xFF] [(.y, 0x02)] [(0x0001, 0x33)])
    0x00 0x33 0x02 0xFF 0x24 0x8002 4 [] = true := by decide

theorem test_ldx_G7 : ends (start .nmos [0xA2, 0x80] [] [])
    0x00 0x80 0x00 0xFF 0xA4 0x8002 2 [] = true := by decide

theorem test_sta_A8 : ends (start .nmos [0x9D, 0xF0, 0x12] [(.a, 0x66), (.x, 0x10)] [])
    0x66 0x10 0x00 0xFF 0x26 0x8003 5 [(0x1300, 0x66)] = true := by decide

theorem test_jmp_A13 : ends (start .cmos [0x6C, 0xFF, 0x30] [] [(0x3000, 0x50), (0x30FF, 0x40), (0x3100, 0x60)])
    0x00 0x00 0x00 0xFF 0x26 0x6040 6 [] = true := by decide

theorem test_jmp_A15 : ends (start .cmos [0x7C, 0x00, 0x30] [(.x, 0x04)] [(0x3004, 0x21), (0x3005, 0x43)])
    0x00 0x04 0x00 0xFF 0x26 0x4321 6 [] = true := by decide

theorem test_adc_L17N : ends (start .nmos [0x69, 0x46] [(.a, 0x58), (.p, 0x2D)] [])
    0x05 0x00 0x00 0xFF 0xED 0x8002 2 [] = true := by decide

theorem test_adc_L16C : ends (start .cmos [0x69, 0x01] [(.a, 0x99), (.p, 0x2C)] [])
    0x00 0x00 0x00 0xFF 0x2F 0x8002 3 [] = true := by decide

theorem test_sbc_L24N : ends (start .nmos [0xE9, 0x34] [(.a, 0x21), (.p, 0x2D)] [])
    0x87 0x00 0x00 0xFF 0xAC 0x8002 2 [] = true := by decide

theorem test_sbc_L12 : ends (start .nmos [0xE9, 0xFF] [(.a, 0x7F), (.p, 0x25)] [])
    0x80 0x00 0x00 0xFF 0xE4 0x8002 2 [] = true := by decide

theorem test_and_G2 : ends (start .nmos [0x29, 0xC0] [(.a, 0x81)] [])
    0x80 0x00 0x00 0xFF 0xA4 0x8002 2 [] = true := by decide

theorem test_ora_G3 : ends (start .nmos [0x09, 0x01] [(.a, 0x80)] [])
    0x81 0x00 0x00 0xFF 0xA4 0x8002 2 [] = true := by decide

theorem test_eor_G4 : ends (start .nmos [0x49, 0xFF] [(.a, 0xFF)] [])
    0x00 0x00 0x00 0xFF 0x26 0x8002 2 [] = true := by decide

theorem test_ldy_G8 : ends (start .nmos [0xA0, 0x7F] [(.p, 0x26)] [])
    0x00 0x00 0x7F 0xFF 0x24 0x8002 2 [] = true := by decide

theorem test_stx_G10 : ends (start .nmos [0x86, 0x10] [(.x, 0x98)] [])
    0x00 0x98 0x00 0xFF 0x26 0x8002 3 [(0x0010, 0x98)] = true := by decide

theorem test_sty_G11 : ends (start .nmos [0x94, 0xFF] [(.y, 0x97), (.x, 0x02)] [])
    0x00 0x02 0x97 0xFF 0x26 0x8002 4 [(0x0001, 0x97)] = true := by decide

theorem test_tax_G12 : ends (start .nmos [0xAA] [(.a, 0x80)] [])
    0x80 0x80 0x00 0xFF 0xA4 0x8001 2 [] = true := by decide

theorem test_tay_G13 : ends (start .nmos [0xA8] [(.a, 0x00), (.p, 0x24)] [])
    0x00 0x00 0x00 0xFF 0x26 0x8001 2 [] = true := by decide

theorem test_txa_G14 : ends (start .nmos [0x8A] [(.x, 0x01)] [])
    0x01 0x01 0x00 0xFF 0x24 0x8001 2 [] = true := by decide

theorem test_tya_G15 : ends (start .nmos [0x98] [(.y, 0xFE)] [])
    0xFE 0x00 0xFE 0xFF 0xA4 0x8001 2 [] = true := by decide

theorem test_tsx_G16 : ends (start .nmos [0xBA] [(.s, 0x00)] [])
    0x00 0x00 0x00 0x00 0x26 0x8001 2 [] = true := by decide

theorem test_txs_G17 : ends (start .nmos [0x9A] [(.x, 0x00), (.p, 0x24)] [])
    0x00 0x00 0x00 0x00 0x24 0x8001 2 [] = true := by decide

theorem test_inc_G24 : ends (start .nmos [0xFE, 0xFF, 0x12] [(.x, 0x01)] [(0x1300, 0x41)])
    0x00 0x01 0x00 0xFF 0x24 0x8003 7 [(0x1300, 0x42)] = true := by decide

theorem test_dec_G19 : ends (start .nmos [0xC6, 0x10] [] [(0x0010, 0x00)])
    0x00 0x00 0x00 0xFF 0xA4 0x8002 5 [(0x0010, 0xFF)] = true := by decide

theorem test_inx_G20 : ends (start .nmos [0xE8] [(.x, 0x7F)] [])
    0x00 0x80 0x00 0xFF 0xA4 0x8001 2 [] = true := by decide

theorem test_iny_G21 : ends (start .nmos [0xC8] [(.y, 0xFF)] [])
    0x00 0x00 0x00 0xFF 0x26 0x8001 2 [] = true := by decide

theorem test_dex_G22 : ends (start .nmos [0xCA] [(.x, 0x01)] [])
    0x00 0x00 0x00 0xFF 0x26 0x8001 2 [] = true := by decide

theorem test_dey_G23 : ends (start .nmos [0x88] [(.y, 0x00)] [])
    0x00 0x00 0xFF 0xFF 0xA4 0x8001 2 [] = true := by decide

theorem test_asl_H1 : ends (start .nmos [0x0A] [(.a, 0x81)] [])
    0x02 0x00 0x00 0xFF 0x25 0x8001 2 [] = true := by decide

theorem test_asl_H2 : ends (start .nmos [0x06, 0x10] [] [(0x0010, 0x40)])
    0x00 0x00 0x00 0xFF 0xA4 0x8002 5 [(0x0010, 0x80)] = true := by decide

theorem test_lsr_H3 : ends (start .nmos [0x4A] [(.a, 0x01)] [])
    0x00 0x00 0x00 0xFF 0x27 0x8001 2 [] = true := by decide

theorem test_rol_H4 : ends (start .nmos [0x2A] [(.a, 0x80), (.p, 0x25)] [])
    0x01 0x00 0x00 0xFF 0x25 0x8001 2 [] = true := by decide

theorem test_rol_H5 : ends (start .nmos [0x2A] [(.a, 0x80), (.p, 0x24)] [])
    0x00 0x00 0x00 0xFF 0x27 0x8001 2 [] = true := by decide

theorem test_ror_H6 : ends (start .nmos [0x6A] [(.a, 0x01), (.p, 0x25)] [])
    0x80 0x00 0x00 0xFF 0xA5 0x8001 2 [] = true := by decide

theorem test_ror_H7 : ends (start .nmos [0x66, 0x10] [(.p, 0x24)] [(0x0010, 0x02)])
    0x00 0x00 0x00 0xFF 0x24 0x8002 5 [(0x0010, 0x01)] = true := by decide

theorem test_cmp_H10 : ends (start .nmos [0xC9, 0x06] [(.a, 0x05)] [])
    0x05 0x00 0x00 0xFF 0xA4 0x8002 2 [] = true := by decide

theorem test_cmp_H14 : ends (start .nmos [0xC9, 0x00] [(.a, 0x00), (.p, 0x2C)] [])
    0x00 0x00 0x00 0xFF 0x2F 0x8002 2 [] = true := by decide

theorem test_cpx_H12 : ends (start .nmos [0xE0, 0xFF] [(.x, 0x00)] [])
    0x00 0x00 0x00 0xFF 0x24 0x8002 2 [] = true := by decide

theorem test_cpy_H13 : ends (start .nmos [0xC0, 0x00] [(.y, 0xFF)] [])
    0x00 0x00 0xFF 0xFF 0xA5 0x8002 2 [] = true := by decide

theorem test_bit_H15 : ends (start .nmos [0x24, 0x10] [(.a, 0x01)] [(0x0010, 0xC0)])
    0x01 0x00 0x00 0xFF 0xE6 0x8002 3 [] = true := by decide

theorem test_bit_H17 : ends (start .cmos [0x89, 0xC0] [(.a, 0x01), (.p, 0x24)] [])
    0x01 0x00 0x00 0xFF 0x26 0x8002 2 [] = true := by decide

theorem test_bpl_B1 : ends (start .nmos [0x10, 0x05] [(.p, 0x24)] [])
    0x00 0x00 0x00 0xFF 0x24 0x8007 3 [] = true := by decide

theorem test_bpl_B2 : ends (start .nmos [0x10, 0x05] [(.p, 0xA4)] [])
    0x00 0x00 0x00 0xFF 0xA4 0x8002 2 [] = true := by decide

theorem test_bmi_B3 : ends (start .nmos [0x30, 0xFC] [(.p, 0xA4)] [])
    0x00 0x00 0x00 0xFF 0xA4 0x7FFE 4 [] = true := by decide

theorem test_bvc_B4 : ends (start .nmos [0x50, 0x10] [(.p, 0x64)] [])
    0x00 0x00 0x00 0xFF 0x64 0x8002 2 [] = true := by decide

theorem test_bvs_B5 : ends (start .nmos [0x70, 0x10] [(.p, 0x64)] [])
    0x00 0x00 0x00 0xFF 0x64 0x8012 3 [] = true := by decide

theorem test_bcc_B6 : ends (start .nmos [0x90, 0x7F] [(.p, 0x24)] [])
    0x00 0x00 0x00 0xFF 0x24 0x8081 3 [] = true := by decide

theorem test_bcs_B7 : ends (start .nmos [0xB0, 0xFE] [(.p, 0x25)] [])
    0x00 0x00 0x00 0xFF 0x25 0x8000 3 [] = true := by decide

theorem test_bne_B8 : ends (start .nmos [0xD0, 0x80] [(.p, 0x24)] [])
    0x00 0x00 0x00 0xFF 0x24 0x7F82 4 [] = true := by decide

theorem test_bne_B10 : ends (startAt 0x80FD .nmos [0xD0, 0x01] [(.p, 0x24)] [])
    0x00 0x00 0x00 0xFF 0x24 0x8100 4 [] = true := by decide

theorem test_beq_B9 : ends (start .nmos [0xF0, 0x04] [(.p, 0x26)] [])
    0x00 0x00 0x00 0xFF 0x26 0x8006 3 [] = true := by decide

theorem test_bra_B11 : ends (start .cmos [0x80, 0x10] [] [])
    0x00 0x00 0x00 0xFF 0x26 0x8012 3 [] = true := by decide

theorem test_jsr_B13 : ends (start .nmos [0x20, 0x00, 0x90] [] [])
    0x00 0x00 0x00 0xFD 0x26 0x9000 6 [(0x01FF, 0x80), (0x01FE, 0x02)] = true := by decide

theorem test_rts_B14 : ends (start .nmos [0x60] [(.s, 0xFD)] [(0x01FE, 0x02), (0x01FF, 0x80)])
    0x00 0x00 0x00 0xFF 0x26 0x8003 6 [] = true := by decide

theorem test_rts_B15 : ends (start .nmos [0x60] [(.s, 0xFF)] [(0x0100, 0xFF), (0x0101, 0x12)])
    0x00 0x00 0x00 0x01 0x26 0x1300 6 [] = true := by decide

theorem test_pha_K2 : ends (start .nmos [0x48] [(.a, 0x5B), (.s, 0x00)] [])
    0x5B 0x00 0x00 0xFF 0x26 0x8001 3 [(0x0100, 0x5B)] = true := by decide

theorem test_php_K3 : ends (start .nmos [0x08] [(.p, 0x04)] [])
    0x00 0x00 0x00 0xFE 0x04 0x8001 3 [(0x01FF, 0x34)] = true := by decide

theorem test_pla_K4 : ends (start .nmos [0x68] [(.s, 0xFE)] [(0x01FF, 0x00)])
    0x00 0x00 0x00 0xFF 0x26 0x8001 4 [] = true := by decide

theorem test_plp_K5 : ends (start .nmos [0x28] [(.s, 0xFE), (.p, 0x24)] [(0x01FF, 0xC3)])
    0x00 0x00 0x00 0xFF 0xE3 0x8001 4 [] = true := by decide

theorem test_plp_K6 : ends (start .nmos [0x28] [(.s, 0xFE), (.p, 0x20)] [(0x01FF, 0x00)])
    0x00 0x00 0x00 0xFF 0x20 0x8001 4 [] = true := by decide

theorem test_rti_K7 : ends (start .nmos [0x40] [(.s, 0xFC)] [(0x01FD, 0x34), (0x01FE, 0x02), (0x01FF, 0x80)])
    0x00 0x00 0x00 0xFF 0x34 0x8002 6 [] = true := by decide

theorem test_brk_K8 : ends (start .nmos [0x00, 0xEA] [(.p, 0x2C)] [(0xFFFE, 0x00), (0xFFFF, 0x90)])
    0x00 0x00 0x00 0xFC 0x24 0x9000 7 [(0x01FF, 0x80), (0x01FE, 0x02), (0x01FD, 0x3C)] = true := by decide

theorem test_brk_K9 : ends (keepsD (start .nmos [0x00, 0xEA] [(.p, 0x2C)] [(0xFFFE, 0x00), (0xFFFF, 0x90)]))
    0x00 0x00 0x00 0xFC 0x2C 0x9000 7 [(0x01FD, 0x3C)] = true := by decide

theorem test_clc_K10 : ends (start .nmos [0x18] [(.p, 0x27)] [])
    0x00 0x00 0x00 0xFF 0x26 0x8001 2 [] = true := by decide

theorem test_sec_K11 : ends (start .nmos [0x38] [] [])
    0x00 0x00 0x00 0xFF 0x27 0x8001 2 [] = true := by decide

theorem test_cli_K12 : ends (start .nmos [0x58] [] [])
    0x00 0x00 0x00 0xFF 0x22 0x8001 2 [] = true := by decide

theorem test_sei_K13 : ends (start .nmos [0x78] [(.p, 0x20)] [])
    0x00 0x00 0x00 0xFF 0x24 0x8001 2 [] = true := by decide

theorem test_clv_K14 : ends (start .nmos [0xB8] [(.p, 0xE4)] [])
    0x00 0x00 0x00 0xFF 0xA4 0x8001 2 [] = true := by decide

theorem test_cld_K15 : ends (start .nmos [0xD8] [(.p, 0x2C)] [])
    0x00 0x00 0x00 0xFF 0x24 0x8001 2 [] = true := by decide

theorem test_sed_K16 : ends (start .nmos [0xF8] [(.p, 0x24)] [])
    0x00 0x00 0x00 0xFF 0x2C 0x8001 2 [] = true := by decide

theorem test_slo_U1 : ends (start .nmos [0x07, 0x10] [(.a, 0x01)] [(0x0010, 0x41)])
    0x83 0x00 0x00 0xFF 0xA4 0x8002 5 [(0x0010, 0x82)] = true := by decide

theorem test_rla_U2 : ends (start .nmos [0x27, 0x10] [(.a, 0xFF), (.p, 0x25)] [(0x0010, 0x81)])
    0x03 0x00 0x00 0xFF 0x25 0x8002 5 [(0x0010, 0x03)] = true := by decide

theorem test_sre_U3 : ends (start .nmos [0x47, 0x10] [(.a, 0xFF)] [(0x0010, 0x03)])
    0xFE 0x00 0x00 0xFF 0xA5 0x8002 5 [(0x0010, 0x01)] = true := by decide

theorem test_rra_U4 : ends (start .nmos [0x67, 0x10] [(.a, 0x10), (.p, 0x24)] [(0x0010, 0x03)])
    0x12 0x00 0x00 0xFF 0x24 0x8002 5 [(0x0010, 0x01)] = true := by decide

theorem test_sax_U5 : ends (start .nmos [0x87, 0x10] [(.a, 0xF0), (.x, 0x3C)] [])
    0xF0 0x3C 0x00 0xFF 0x26 0x8002 3 [(0x0010, 0x30)] = true := by decide

theorem test_lax_U6 : ends (start .nmos [0xA7, 0x10] [] [(0x0010, 0x8F)])
    0x8F 0x8F 0x00 0xFF 0xA4 0x8002 3 [] = true := by decide

theorem test_lax_U27 : ends (start .nmos [0xBF, 0xFF, 0x20] [(.y, 0x01)] [(0x2100, 0x7E)])
    0x7E 0x7E 0x01 0xFF 0x24 0x8003 5 [] = true := by decide

theorem test_dcp_U7 : ends (start .nmos [0xC7, 0x10] [(.a, 0x05)] [(0x0010, 0x05)])
    0x05 0x00 0x00 0xFF 0x25 0x8002 5 [(0x0010, 0x04)] = true := by decide

theorem test_dcp_U26 : ends (start .nmos [0xDF, 0xFF, 0x20] [(.a, 0x00), (.x, 0x01)] [(0x2100, 0x01)])
    0x00 0x01 0x00 0xFF 0x27 0x8003 7 [(0x2100, 0x00)] = true := by decide

theorem test_isc_U8 : ends (start .nmos [0xE7, 0x10] [(.a, 0x05), (.p, 0x25)] [(0x0010, 0x01)])
    0x03 0x00 0x00 0xFF 0x25 0x8002 5 [(0x0010, 0x02)] = true := by decide

theorem test_anc_U9 : ends (start .nmos [0x0B, 0x80] [(.a, 0xFF)] [])
    0x80 0x00 0x00 0xFF 0xA5 0x8002 2 [] = true := by decide

theorem test_alr_U10 : ends (start .nmos [0x4B, 0x03] [(.a, 0xFF)] [])
    0x01 0x00 0x00 0xFF 0x25 0x8002 2 [] = true := by decide

theorem test_arr_U11 : ends (start .nmos [0x6B, 0xC0] [(.a, 0xFF), (.p, 0x24)] [])
    0x60 0x00 0x00 0xFF 0x25 0x8002 2 [] = true := by decide

theorem test_arr_U13 : ends (start .nmos [0x6B, 0x99] [(.a, 0xFF), (.p, 0x2C)] [])
    0xA2 0x00 0x00 0xFF 0x6D 0x8002 2 [] = true := by decide

theorem test_sbx_U15 : ends (start .nmos [0xCB, 0x05] [(.a, 0x0F), (.x, 0xFF)] [])
    0x0F 0x0A 0x00 0xFF 0x25 0x8002 2 [] = true := by decide

theorem test_sbx_U16 : ends (start .nmos [0xCB, 0x10] [(.a, 0x0F), (.x, 0xFF)] [])
    0x0F 0xFF 0x00 0xFF 0xA4 0x8002 2 [] = true := by decide

theorem test_ane_U17 : ends (start .nmos [0x8B, 0xFF] [(.a, 0x00), (.x, 0xFF)] [])
    0xEE 0xFF 0x00 0xFF 0xA4 0x8002 2 [] = true := by decide

theorem test_lxa_U18 : ends (start .nmos [0xAB, 0x0F] [(.a, 0x01)] [])
    0x0F 0x0F 0x00 0xFF 0x24 0x8002 2 [] = true := by decide

theorem test_las_U19 : ends (start .nmos [0xBB, 0x00, 0x03] [] [(0x0300, 0x3C)])
    0x3C 0x3C 0x00 0x3C 0x24 0x8003 4 [] = true := by decide

theorem test_tas_U20 : ends (start .nmos [0x9B, 0x00, 0x12] [(.a, 0xFF), (.x, 0x0F)] [])
    0xFF 0x0F 0x00 0x0F 0x26 0x8003 5 [(0x1200, 0x03)] = true := by decide

theorem test_shy_U21 : ends (start .nmos [0x9C, 0x00, 0x7F] [(.y, 0xFF), (.x, 0x01)] [])
    0x00 0x01 0xFF 0xFF 0x26 0x8003 5 [(0x7F01, 0x80)] = true := by decide

theorem test_shx_U22 : ends (start .nmos [0x9E, 0x00, 0x02] [(.x, 0xFF)] [])
    0x00 0xFF 0x00 0xFF 0x26 0x8003 5 [(0x0200, 0x03)] = true := by decide

theorem test_sha_U23 : ends (start .nmos [0x9F, 0x00, 0x04] [(.a, 0xFF), (.x, 0xFF)] [])
    0xFF 0xFF 0x00 0xFF 0x26 0x8003 5 [(0x0400, 0x05)] = true := by decide

theorem test_sha_U24 : ends (start .nmos [0x93, 0x10] [(.a, 0xFF), (.x, 0xFF), (.y, 0x01)] [(0x0010, 0x00), (0x0011, 0x04)])
    0xFF 0xFF 0x01 0xFF 0x26 0x8002 6 [(0x0401, 0x05)] = true := by decide

theorem test_usbc_U25 : ends (start .nmos [0xEB, 0x03] [(.a, 0x05), (.p, 0x25)] [])
    0x02 0x00 0x00 0xFF 0x25 0x8002 2 [] = true := by decide

theorem test_tsb_M1 : ends (start .cmos [0x04, 0x10] [(.a, 0x0F)] [(0x0010, 0xF0)])
    0x0F 0x00 0x00 0xFF 0x26 0x8002 5 [(0x0010, 0xFF)] = true := by decide

theorem test_tsb_M2 : ends (start .cmos [0x0C, 0x00, 0x20] [(.a, 0x01)] [(0x2000, 0x03)])
    0x01 0x00 0x00 0xFF 0x24 0x8003 6 [(0x2000, 0x03)] = true := by decide

theorem test_trb_M3 : ends (start .cmos [0x14, 0x10] [(.a, 0x0F)] [(0x0010, 0xFF)])
    0x0F 0x00 0x00 0xFF 0x24 0x8002 5 [(0x0010, 0xF0)] = true := by decide

theorem test_stz_M4 : ends (start .cmos [0x64, 0x10] [] [(0x0010, 0xAA)])
    0x00 0x00 0x00 0xFF 0x26 0x8002 3 [(0x0010, 0x00)] = true := by decide

theorem test_stz_M5 : ends (start .cmos [0x9E, 0xFF, 0x20] [(.x, 0x01)] [(0x2100, 0xAA)])
    0x00 0x01 0x00 0xFF 0x26 0x8003 5 [(0x2100, 0x00)] = true := by decide

theorem test_phx_M7 : ends (start .cmos [0xDA] [(.x, 0x77)] [])
    0x00 0x77 0x00 0xFE 0x26 0x8001 3 [(0x01FF, 0x77)] = true := by decide

theorem test_plx_M8 : ends (start .cmos [0xFA] [(.s, 0xFE)] [(0x01FF, 0x80)])
    0x00 0x80 0x00 0xFF 0xA4 0x8001 4 [] = true := by decide

theorem test_phy_M9 : ends (start .cmos [0x5A] [(.y, 0x66)] [])
    0x00 0x00 0x66 0xFE 0x26 0x8001 3 [(0x01FF, 0x66)] = true := by decide

theorem test_ply_M10 : ends (start .cmos [0x7A] [(.s, 0xFE)] [(0x01FF, 0x00)])
    0x00 0x00 0x00 0xFF 0x26 0x8001 4 [] = true := by decide

theorem test_rmb_M11 : ends (start .cmos [0x07, 0x10] [] [(0x0010, 0xFF)])
    0x00 0x00 0x00 0xFF 0x26 0x8002 5 [(0x0010, 0xFE)] = true := by decide

theorem test_smb_M12 : ends (start .cmos [0xF7, 0x10] [] [(0x0010, 0x00)])
    0x00 0x00 0x00 0xFF 0x26 0x8002 5 [(0x0010, 0x80)] = true := by decide

theorem test_bbr_M13 : ends (start .cmos [0x0F, 0x10, 0x05] [] [(0x0010, 0xFE)])
    0x00 0x00 0x00 0xFF 0x26 0x8008 6 [] = true := by decide

theorem test_bbr_M14 : ends (start .cmos [0x0F, 0x10, 0x05] [] [(0x0010, 0x01)])
    0x00 0x00 0x00 0xFF 0x26 0x8003 5 [] = true := by decide

theorem test_bbs_M15 : ends (start .cmos [0xFF, 0x10, 0xFD] [] [(0x0010, 0x80)])
    0x00 0x00 0x00 0xFF 0x26 0x8000 6 [] = true := by decide

theorem test_ina_M16 : ends (start .cmos [0x1A] [(.a, 0x7F)] [])
    0x80 0x00 0x00 0xFF 0xA4 0x8001 2 [] = true := by decide

theorem test_dea_M17 : ends (start .cmos [0x3A] [(.a, 0x01)] [])
    0x00 0x00 0x00 0xFF 0x26 0x8001 2 [] = true := by decide

theorem test_nop_O1 : ends (start .nmos [0xEA] [] [])
    0x00 0x00 0x00 0xFF 0x26 0x8001 2 [] = true := by decide

theorem test_nop_O7 : ends (start .nmos [0x1C, 0xF0, 0x12] [(.x, 0x20)] [])
    0x00 0x20 0x00 0xFF 0x26 0x8003 5 [] = true := by decide

theorem test_jam_O8 : ends (start .nmos [0x02] [] [])
    0x00 0x00 0x00 0xFF 0x26 0x8001 2 [] = true := by decide

theorem test_undef_O9 : ends (start .cmos [0x03] [] [])
    0x00 0x00 0x00 0xFF 0x26 0x8001 1 [] = true := by decide

theorem test_undef_O13 : ends (start .cmos [0x5C, 0x34, 0x12] [] [])
    0x00 0x00 0x00 0xFF 0x26 0x8003 8 [] = true := by decide

/-! ## Reset, interrupts, the port, the bus (95_test_vectors.md section 2.2 and the rules named) -/

/-- State.reset is what `reset()` makes of a new core (R450), but for the PPC that no fetch has written (log 4). -/
theorem test_reset_is_hostReset : { (State.construct (Config.default .nmos) []).hostReset with ppc := 0x0000 } = State.reset := by
  decide

/-- Vector R1: PC from $FFFC/$FFFD, 6 cycles. -/
theorem test_reset_R1 : let t := { State.reset with mem := ram [(0xFFFD, 0x80)] }.hostReset
    (t.pc, t.sp, t.p, t.clockticks, t.clocktickstotal) = (0x8000, 0xFF, 0x26, 6, 0) := by decide

/-- Scenario I1: an IRQ in pulse mode with I clear. -/
theorem test_irq_I1 : after (start .nmos [] [(.p, 0x20)] [(0xFFFF, 0x90)]).assertIrq
    (fun t => (t.p, t.pc, t.clockticks, t.irqPending, [0x01FF, 0x01FE, 0x01FD].map t.mem.read)) =
    some (0x24, 0x9000, 7, false, [0x80, 0x00, 0x20]) := by decide

/-- Scenario I2: an IRQ while I is set stays pending. -/
theorem test_irq_I2 : after (start .nmos [0xEA] [] []).assertIrq (fun t => (t.pc, t.clockticks, t.irqPending)) =
    some (0x8001, 2, true) := by decide

/-- Scenario I3, step 1: in hold mode the latch stays. -/
theorem test_irq_I3 : after ((start .nmos [] [(.p, 0x20)] [(0xFFFF, 0x90)]).setIrqMode .hold).assertIrq
    (fun t => (t.pc, t.irqPending)) = some (0x9000, true) := by decide

/-- Scenario I4: an NMI is taken with I set. -/
theorem test_nmi_I4 : after (start .nmos [] [] [(0xFFFB, 0xA0)]).assertNmi
    (fun t => (t.p, t.sp, t.pc, t.clockticks, t.nmiPending, t.mem.read 0x01FD)) = some (0x26, 0xFC, 0xA000, 7, false, 0x26) := by
  decide

/-- Scenario W6, step 1: CLI leaves inhibit 1 and the IRQ pending. -/
theorem test_cli_W6 : after (start .nmos [0x58, 0xEA] [] []).assertIrq (fun t => (t.pc, t.inhibit, t.irqPending)) =
    some (0x8001, 1, true) := by decide

/-- R372: under `JAM_POLICY = halt` a JAM slot halts; R54: a halted step returns 0 and changes no register. -/
theorem test_jam_halt : let s := start .nmos [0x02] [] []
    after { s with cfg := { s.cfg with jamPolicy := .halt } } (fun t => (t.halted, t.pc)) = some (true, 0x8001) ∧
      after { s with halted := true } (fun t => (t.clockticks, t.pc)) = some (0, 0x8000) := by decide

/-- R480, C7: the total goes to 0 when it exceeds the ceiling, not when it reaches it. -/
theorem test_total_ceiling : let s := start .nmos [0xEA] [] []
    after { s with cfg := { s.cfg with cycleCeiling := some 2 } } (·.clocktickstotal) = some 2 ∧
      after { s with cfg := { s.cfg with cycleCeiling := some 1 } } (·.clocktickstotal) = some 0 := by decide

/-- R73, R74: with DDR $2F and latch $37, port address 1 reads the latch on the output lines and the pins on the others. -/
theorem test_port_read : ({ start .m6510 [] [] [] with portDdr := 0x2F, portLatch := 0x37, portPins := 0xD0 }.memRead 0x0001).val =
    0xF7 := by decide

/-- R74: a write of the DDR calls the callback with the new effective output, and does not reach the bus. -/
theorem test_port_write : let t := ({ start .m6510 [] [] [] with portLatch := 0x37, portCallback := true }).memWrite 0x0000 0x2F
    (t.portDdr, t.busLog.getLast?, t.mem.read 0) = (0x2F, some (.portCallback 0x27), 0x00) := by decide

/-- R72: a rejected read answers 0 and a rejected write stores nothing; R71: the mask is applied first. -/
theorem test_bus_strict : let s := start .nmos [] [] [(0x0010, 0x55)]
    let strict := { s with cfg := { s.cfg with bus := { strict := true, ranges := [⟨0x0010, 1, false, false⟩] } } }
    (strict.memRead 0x0010).val = 0x55 ∧ (strict.memRead 0x0011).val = 0x00 ∧ (strict.memWrite 0x0011 0x77).mem = strict.mem ∧
      ({ s with cfg := { s.cfg with addrMask := 0x0FFF } }.memRead 0x1010).val = 0x55 := by decide

/-- R401, D36: `run_for(3)` runs two NOPs and returns 4; `run_for(0)` runs none. -/
theorem test_run_for : let s := start .nmos [0xEA, 0xEA, 0xEA] [] []
    (match runFor 3 s with | .next (d, t) => decide ((d, t.pc) = (4, 0x8002)) | .fault _ | .refused _ => false) = true ∧
      (match runFor 0 s with | .next (d, t) => decide ((d, t.pc) = (0, 0x8000)) | .fault _ | .refused _ => false) = true := by decide

/-- R52, I1, I2: before the first reset a step is refused; PPC reads only after a fetch. -/
theorem test_refusals : (step { State.reset with hasReset := false } matches .refused .notReset) = true ∧
    (State.reset.getPpc matches .error .ppcNotWritten) = true ∧
    (({ State.reset with hasReset := false }).getReg .a matches .error .notReset) = true := by decide

/-- R430, R121: the disassembler's length. -/
theorem test_disassembled_length : ((start .cmos [0x0F] [] []).disassembledLength 0x8000).1 = 3 := by decide

/-- The host's placing of an instruction: the very next step runs it. -/
theorem test_withFetchWord : after (State.reset.withFetchWord 16 0x42A9) (fun t => (t.a, t.pc)) = some (0x42, 0x0002) ∧
    after (State.reset.withFetchWord 24 0x03203F) (fun t => t.pc) = some 0x0006 := by decide

/-! ## Witnesses of the statements' hypotheses -/

/-- A NOP with the registers set and decimal mode on, for the witnesses below. -/
def sample (v : Variant) : State := start v [0xEA] [(.a, 0x58), (.x, 0x46), (.y, 0x99), (.p, 0x2D)] [(0x0010, 0x81)]

theorem witness_DecodeOfEncode : WellFormed .cmos (.bbs 7 0xFF 0x80) = true ∧ WellFormed .nmos (.sha (.izy 0xFF)) = true := by decide

theorem witness_EncodeOfDecode : (∃ i, decode .m6510 [0x9D, 0xF0, 0x12, 0x55] = .ok (i, [0x55])) ∧
    WellFormed .nmos (.adc (.mem (.izp 0x00))) = false := ⟨⟨_, rfl⟩, rfl⟩

theorem witness_EveryOpcodeDecodes : lengthOf .nmos 0x20 ≤ [0x00#8, 0x90#8].length + 1 ∧
    ¬lengthOf .nmos 0x20 ≤ [0x00#8].length + 1 := by decide

/-- The port's two addresses and the first one past it; a plain, a rejected and (by the mask) an aliased address. -/
theorem witness_MemReadAnswers : (sample .m6510).cfg.variant = .m6510 ∧ (sample .m6510).isPort 0 = true ∧
    (sample .m6510).isPort 1 = true ∧ (sample .m6510).isPort 2 = false ∧ (sample .nmos).isPort 0 = false ∧
    readRoute (sample .nmos).cfg.bus 0xFFFF = .backing ∧ readRoute { strict := true, ranges := [] } 0x0000 = .rejected := by decide

theorem witness_MemWriteStores : (sample .m6510).isPort (({ sample .m6510 with cfg :=
      { (sample .m6510).cfg with addrMask := 0x00FF } }).busAddr 0xAB01) = true ∧
    writeRoute (sample .cmos).cfg.bus 0x0000 = .backing ∧
    writeRoute { strict := false, ranges := [⟨0xD000, 0x1000, false, true⟩] } 0xDFFF = .handler 0x0FFF := by decide

theorem witness_ReadAfterWrite : (sample .nmos).isPlain ((sample .nmos).busAddr 0xFFFF) ∧
    (sample .nmos).isPlain ((sample .nmos).busAddr 0x0000) ∧
    (sample .nmos).isPlain ((sample .nmos).busAddr (stackAddr (sample .nmos).sp)) :=
  ⟨⟨rfl, rfl, rfl⟩, ⟨rfl, rfl, rfl⟩, ⟨rfl, rfl, rfl⟩⟩

/-- Before the range, its first and last address, the address after it, and an earlier range that wins. -/
theorem witness_BusRanges : let m : BusMap := { strict := true, ranges := [⟨0x00, 0x10, false, false⟩, ⟨0x08, 0x10, true, true⟩] }
    readRoute m 0x0F = .backing ∧ readRoute m 0x10 = .handler 8 ∧ writeRoute m 0x17 = .handler 15 ∧ readRoute m 0x18 = .rejected := by
  decide

theorem witness_DirectModes : (resolve (.abx 0xFFFF) (sample .nmos)).val.crossed = true ∧
    (resolve (.abx 0x1200) (sample .nmos)).val.crossed = false ∧
    (resolve (.zpx 0xFF) (sample .nmos)).val.ea = 0x0045 := by decide

theorem witness_IndirectModes : (resolve (.izx 0xB9) (start .nmos [] [(.x, 0x46)] [(0x0000, 0x20), (0x00FF, 0x11)])).val.ea = 0x2011 := by
  decide

theorem witness_JmpGoesToItsTarget : (sample .cmos).cfg.variant = .cmos ∧ (sample .nes2A03).cfg.variant ≠ .cmos ∧
    pointerHigh .nmos 0x30FF = 0x3000 ∧ pointerHigh .cmos 0xFFFF = 0x0000 := by decide

theorem witness_DecimalAdders : isBcd 0x99 ∧ isBcd 0x00 ∧ ¬isBcd 0x0A ∧ ¬isBcd 0xA0 ∧
    (Config.default .cmos).adcDecimalCarry = .decimal ∧
    ({ Config.default .cmos with adcDecimalCarry := .binary } : Config).adcDecimalCarry = .binary := by
  unfold isBcd
  decide

theorem witness_DecimalFlags : (Config.default .nmos).nmosDecimalNV = .binary ∧
    (Config.default .nmos).adcDecimalCarry = .decimal ∧
    ({ Config.default .nmos with nmosDecimalNV := .silicon } : Config).nmosDecimalNV = .silicon := ⟨rfl, rfl, rfl⟩

/-- R194 by hand: $79 + $00 + 1 has `al` = $10 and `t` = 128, so the signed sum sets N and V, the binary sum $7A neither. -/
theorem test_decimal_nv_silicon :
    (addNmosDecimal { Config.default .nmos with nmosDecimalNV := .silicon } 0x79 0x00 true =
      { r := 0x80, n := true, v := true, z := false, c := false }) ∧
    addNmosDecimal (Config.default .nmos) 0x79 0x00 true = { r := 0x80, n := false, v := false, z := false, c := false } := by
  decide

/-- R194 by hand, a digit above 9: $0F + $01 has `al` = $16. -/
theorem test_decimal_invalid_digit : (addNmosDecimal (Config.default .nmos) 0x0F 0x01 false).r = 0x16 := by decide

/-- The four selections: D clear, D set on NES2A03, on CMOS and on NMOS. -/
theorem witness_SelectedAdder : getFlag (start .nmos [] [(.p, 0x25)] []).p .d = false ∧ getFlag (sample .nes2A03).p .d = true ∧
    (sample .nes2A03).cfg.variant = .nes2A03 ∧ (sample .cmos).cfg.variant = .cmos ∧ (sample .nmos).cfg.variant = .nmos := by decide

theorem witness_Nes2A03 : ({ sample .nes2A03 with p := setFlag (sample .nes2A03).p .d true }).cfg.variant = .nes2A03 := rfl

/-- A rotate with the carry set, at both ends of the byte's range. -/
theorem witness_ShiftsAndRotates : shiftRol 0x80 true = ⟨0x01, true⟩ ∧ shiftRor 0x01 true = ⟨0x80, true⟩ ∧
    shiftAsl 0xFF = ⟨0xFE, true⟩ ∧ shiftLsr 0x00 = ⟨0x00, false⟩ := by decide

/-- Taken and not taken, at the ends of the offset's range. -/
theorem witness_Branches : getFlag (sample .nmos).p .c = true ∧ getFlag (sample .nmos).p .z = false ∧
    (sample .nmos).branchTarget 0x80 = 0x7F80 ∧ (sample .nmos).branchTarget 0x7F = 0x807F := by decide

theorem witness_RtsReturnsFromJsr : let s := start .nmos [0x20, 0x00, 0x90] [(.s, 0x00)] []
    s.isPlain (s.busAddr (stackAddr s.sp)) ∧ s.isPlain (s.busAddr (stackAddr (s.sp - 1#8))) ∧
    s.busAddr (stackAddr s.sp) ≠ s.busAddr (stackAddr (s.sp - 1#8)) := ⟨⟨rfl, rfl, rfl⟩, ⟨rfl, rfl, rfl⟩, by decide⟩

theorem witness_PlpAndRti : getFlag (sample .nmos).p .i = true ∧ getFlag (restoredP 0x00) .i = false ∧
    getFlag (restoredP 0xFF) .i = true := by decide

theorem witness_RtiReturnsFromBrk : let s := start .nmos [0x00] [(.s, 0x01)] []
    s.isPlain (s.busAddr (stackAddr s.sp)) ∧ s.isPlain (s.busAddr (stackAddr (s.sp - 1#8))) ∧
    s.isPlain (s.busAddr (stackAddr (s.sp - 2#8))) ∧
    s.busAddr (stackAddr s.sp) ≠ s.busAddr (stackAddr (s.sp - 1#8)) ∧
    s.busAddr (stackAddr s.sp) ≠ s.busAddr (stackAddr (s.sp - 2#8)) ∧
    s.busAddr (stackAddr (s.sp - 1#8)) ≠ s.busAddr (stackAddr (s.sp - 2#8)) :=
  ⟨⟨rfl, rfl, rfl⟩, ⟨rfl, rfl, rfl⟩, ⟨rfl, rfl, rfl⟩, by decide, by decide, by decide⟩

theorem witness_ArrDecimal : getFlag (sample .m6510).p .d = true ∧ (sample .m6510).cfg.variant = .m6510 ∧
    (sample .m6510).cfg.arrDecimal = .silicon ∧ (sample .nes2A03).cfg.variant ≠ .nmos := by decide

/-- The bit is as the branch asks and not, at both ends of the bit numbers. -/
theorem witness_ZeroPageBit : ((sample .cmos).memRead (zext16 0x10)).val.getLsbD (0 : Fin 8).val = true ∧
    ((sample .cmos).memRead (zext16 0x10)).val.getLsbD (7 : Fin 8).val = true ∧
    ((sample .cmos).memRead (zext16 0x10)).val.getLsbD (1 : Fin 8).val = false := by decide

theorem witness_NopsAndJam : (sample .nmos).cfg.jamPolicy = .nop ∧
    ({ Config.default .nmos with jamPolicy := .halt } : Config).jamPolicy = .halt := by decide

theorem witness_Accesses : (sample .m6510).isPort ((sample .m6510).busAddr (resolve (.zp 0x02) (sample .m6510)).val.ea) = false ∧
    (sample .m6510).isPort ((sample .m6510).busAddr (resolve (.zp 0x01) (sample .m6510)).val.ea) = true := by decide

/-- R79, R80, R72: INC presents the byte read and then the byte plus 1 to the bus; a custom write handler takes it, and memory
keeps the old byte (log 3). -/
theorem test_inc_presents_its_byte_to_a_handler :
    let s := start .nmos [0xEE, 0x00, 0xD0] [] [(0xD000, 0x41)]
    let bus : BusMap := { strict := false, ranges := [{ base := 0xD000, size := 1, readHandler := false, writeHandler := true }] }
    after { s with cfg := { s.cfg with bus := bus } } (fun t => (t.busLog.drop 3, t.mem.read 0xD000)) =
      some ([.read 0xD000 0x41, .write 0xD000 0x42], 0x41) := by decide

theorem witness_OnlyTheNamed : mayWriteFlag (Config.default .nmos) .c (.inc (.zp 0x10)) = false ∧
    mayWriteFlag (Config.default .nmos) .d .brk = true := by decide

theorem witness_ControlState : Instr.sei ≠ .cli ∧ Instr.sei ≠ .plp ∧ Instr.sei ≠ .rti ∧ ∀ op, Instr.sei ≠ .jam op :=
  ⟨by decide, by decide, by decide, fun _ => by simp⟩

theorem witness_Reset : (sample .m6510).cfg.variant = .m6510 ∧ (sample .nmos).cfg.variant ≠ .m6510 := by decide

/-- A running core with memory, an interrupt deferral and a ceiling that meets the invariant and steps on. -/
theorem witness_StepKeepsTheInvariant :
    let s := { start .m6510 [0x58] [] [] with inhibit := 2, cfg := { Config.default .m6510 with cycleCeiling := some 10 } }
    Inv s ∧ after s (·.inhibit) = some 1 :=
  ⟨⟨rfl, by decide, by decide, by decide, by decide, by decide, by decide, by decide, by decide⟩, by decide⟩

theorem witness_ConfigurationNeverChanges : after (sample .cmos) (·.cfg) = some (Config.default .cmos) ∧
    (runFor 1 (sample .cmos) matches .next _) = true := by decide

theorem witness_EveryStepCompletes : (sample .nes2A03).hasReset = true ∧ ({ sample .nes2A03 with halted := true }).hasReset = true := by
  decide

theorem witness_NothingRunsBeforeReset : ({ sample .nmos with hasReset := false }).hasReset = false := rfl

theorem witness_StepRunsTheDecodedInstruction : let s := start .nmos [0xFD, 0xFF, 0x12] [(.x, 0x01)] []
    s.hasReset = true ∧ s.halted = false ∧ s.nmiPending = false ∧ s.irqRecognised = false ∧
    (let f := ({ s with clockticks := 0, busLog := [] } : State).fetchInstr;
      f.crossed = true ∧ ∃ rest, decode s.cfg.variant [f.op, f.b1, f.b2] = .ok (.sbc (.mem (.abx 0x12FF)), rest)) ∧
    WellFormed s.cfg.variant (.sbc (.mem (.abx 0x12FF))) = true ∧ (sample .nmos).fetchInstr.crossed = false :=
  ⟨rfl, rfl, rfl, rfl, ⟨rfl, [], rfl⟩, rfl, rfl⟩

/-- A one-byte and a three-byte fetch of plain memory, the second across the end of memory. -/
theorem witness_Fetch : let s := startAt 0xFFFF .nmos [0x4C] [] []
    s.isPlain (s.busAddr (s.pc + 0#16)) ∧ s.isPlain (s.busAddr (s.pc + 1#16)) ∧ s.isPlain (s.busAddr (s.pc + 2#16)) ∧
    lengthOf .nmos s.fetchInstr.op = 3 ∧ s.fetchInstr.st.pc = 0x0002 ∧ lengthOf .nmos (sample .nmos).fetchInstr.op = 1 :=
  ⟨⟨rfl, rfl, rfl⟩, ⟨rfl, rfl, rfl⟩, ⟨rfl, rfl, rfl⟩, by decide, by decide, by decide⟩

theorem witness_Halted : ({ sample .nmos with halted := true }).hasReset = true ∧ ({ sample .nmos with halted := true }).halted = true := by
  decide

theorem witness_Nmi : (sample .nmos).assertNmi.hasReset = true ∧ (sample .nmos).assertNmi.halted = false ∧
    (sample .nmos).assertNmi.nmiPending = true := by decide

/-- Recognised; not recognised because I is set; because of the deferral; because no IRQ is pending. -/
theorem witness_Irq : let s := (start .nmos [0xEA] [(.p, 0x20)] []).assertIrq
    (s.hasReset = true ∧ s.halted = false ∧ s.nmiPending = false ∧ s.irqPending = true ∧ s.inhibit = 0 ∧ getFlag s.p .i = false) ∧
    getFlag (sample .nmos).assertIrq.p .i = true ∧ ({ s with inhibit := 1 }).inhibit ≠ 0 ∧
    ({ s with irqPending := false }).irqRecognised = false ∧ after { s with irqPending := false } (·.pc) = some 0x8001 := by decide

theorem witness_OneInstruction : after (start .nmos [0x58] [] []) (fun t => (getFlag t.p .i, t.nmiPending, t.halted)) =
    some (false, false, false) ∧ getFlag (start .nmos [0x58] [] []).p .i = true := by decide

/-- A step of each kind: halted, NMI, IRQ, instruction. -/
theorem witness_Ppc : let s := start .nmos [0xEA] [(.p, 0x20)] []
    after { s with halted := true } (·.ppc) = some 0x0000 ∧ after s.assertNmi (·.ppc) = some 0x0000 ∧
    after s.assertIrq (·.ppc) = some 0x0000 ∧ after s (·.ppc) = some 0x8001 := by decide

theorem witness_Total : after (sample .nmos) (·.clocktickstotal) = some 2 ∧ (sample .nmos).halted = false ∧
    (sample .nmos).cfg.cycleCeiling = none := by decide

theorem witness_PagePenalties : (sample .cmos).cfg.cycleOverrides = [] ∧ (sample .cmos).halted = false ∧
    pagePenalty (Config.default .nmos) 0xB3 = true ∧ pagePenalty (Config.default .cmos) 0xB3 = false ∧
    opcodeOf .cmos (.jmp (.ind 0x1234)) = some 0x6C ∧ baseCycles (Config.default .cmos) 0x6C = 6 := by decide

/-- A budget met exactly, one overshot, and a halted core. -/
theorem witness_RunFor : (sample .nmos).hasReset = true ∧
    (match runFor 2 (sample .nmos) with | .next (d, _) => d | .fault _ | .refused _ => 0) = 2 ∧
    (match runFor 1 (sample .nmos) with | .next (d, _) => d | .fault _ | .refused _ => 0) = 2 ∧
    (match runFor 9 { sample .nmos with halted := true } with | .next (d, _) => d | .fault _ | .refused _ => 1) = 0 := by decide

theorem witness_HostCalls : (sample .m6510).hasReset = true ∧ (sample .m6510).ppcWritten = false ∧
    after (sample .m6510) (fun t => (t.hasReset, t.ppcWritten)) = some (true, true) ∧ (sample .m6510).cfg.variant = .m6510 ∧
    (sample .m6510).busAddr 0x0001 = 1 := by decide

end Sys2Proof.Tests
end

section
/-! Sparse data that is in order: canonical, with every key below a bound (log 2). -/

namespace Sys2Proof.Machine

/-- Sparse data in canonical form, every key below `bound`: what the invariant asks of memory and of the counters. -/
def Cells.InOrder {α : Type} [DecidableEq α] (d : α) (bound : Nat) (m : Cells α) : Prop :=
  Cells.wf d m = true ∧ ∀ c ∈ m, c.1 < bound

theorem Cells.InOrder.set {α : Type} [DecidableEq α] {d : α} {bound : Nat} {m : Cells α} (h : Cells.InOrder d bound m)
    {a : Nat} (ha : a < bound) (v : α) : Cells.InOrder d bound (Cells.set d m a v) := by
  refine ⟨Cells.wf_set h.1 a v, fun c hc => ?_⟩
  rcases Cells.mem_set hc with hkey | hold
  · exact hkey ▸ ha
  · exact h.2 c hold

/-- The backing array is canonical and lists only 16-bit addresses. -/
def State.MemInOrder (s : State) : Prop := Cells.InOrder unlistedByte 65536 s.mem

theorem memWrite_memInOrder {s : State} (h : s.MemInOrder) (a : Word) (v : Byte) : (s.memWrite a v).MemInOrder := by
  unfold State.MemInOrder State.memWrite
  dsimp only
  split
  · rwa [State.portWrite_mem]
  · unfold State.busWrite
    split
    · exact Cells.InOrder.set h (a &&& s.cfg.addrMask).isLt v
    all_goals exact h

end Sys2Proof.Machine
end

section
/-! Which flags a write of P leaves, given the flags it may write. -/

namespace Sys2Proof.Machine

variable {may : Flag → Bool} {p q : Byte}

/-- `q` has every flag of `p` but those that `may` allows to be written. -/
def KeepsFlags (may : Flag → Bool) (p q : Byte) : Prop := ∀ f, may f = false → getFlag q f = getFlag p f

theorem KeepsFlags.refl : KeepsFlags may p p := fun _ _ => rfl

/-- Where every flag may be written nothing is to be kept. -/
theorem KeepsFlags.of_all (h : ∀ f, may f = true) : KeepsFlags may p q := fun f hf => by simp [h f] at hf

theorem KeepsFlags.trans {r : Byte} (h : KeepsFlags may p q) (h' : KeepsFlags may q r) : KeepsFlags may p r :=
  fun f hf => (h' f hf).trans (h f hf)

theorem KeepsFlags.setFlag {g : Flag} (hg : may g = true) (v : Bool) : KeepsFlags may p (setFlag p g v) := by
  intro f hf
  have hne : f ≠ g := by
    rintro rfl
    simp [hg] at hf
  simp [hne]

theorem KeepsFlags.setNZ (hn : may .n = true) (hz : may .z = true) (v : Byte) : KeepsFlags may p (setNZ p v) :=
  (KeepsFlags.setFlag hz _).trans (KeepsFlags.setFlag hn _)

theorem KeepsFlags.compareP (hn : may .n = true) (hz : may .z = true) (hc : may .c = true) (r m : Byte) :
    KeepsFlags may p (compareP p r m) :=
  (KeepsFlags.setFlag hc _).trans (KeepsFlags.setNZ hn hz _)

theorem KeepsFlags.shiftOut (hn : may .n = true) (hz : may .z = true) (hc : may .c = true) (o : ShiftOut) :
    KeepsFlags may p (o.flags p) :=
  (KeepsFlags.setFlag hc _).trans (KeepsFlags.setNZ hn hz _)

theorem KeepsFlags.aluOut (hn : may .n = true) (hv : may .v = true) (hz : may .z = true) (hc : may .c = true) (o : AluOut) :
    KeepsFlags may p (o.flags p) :=
  (((KeepsFlags.setFlag hn _).trans (KeepsFlags.setFlag hv _)).trans (KeepsFlags.setFlag hz _)).trans (KeepsFlags.setFlag hc _)

end Sys2Proof.Machine
end

section
/-! The frame of an instruction: what every operation an instruction is made of keeps, one lemma per operation. -/

namespace Sys2Proof.Machine

/-- The control state: the configuration and the fields that instructions leave to the step and to the host (R39 to R47, R50 to
R52, R54). -/
structure Control where
  cfg : Config
  ppc : Word
  ppcWritten : Bool
  irqPending : Bool
  nmiPending : Bool
  irqMode : IrqMode
  portPins : Byte
  portCallback : Bool
  clocktickstotal : Nat
  hasReset : Bool
  profile : Cells Nat
  inhibit : Nat
  halted : Bool

/-- The control state of a core. -/
def State.control (s : State) : Control where
  cfg := s.cfg
  ppc := s.ppc
  ppcWritten := s.ppcWritten
  irqPending := s.irqPending
  nmiPending := s.nmiPending
  irqMode := s.irqMode
  portPins := s.portPins
  portCallback := s.portCallback
  clocktickstotal := s.clocktickstotal
  hasReset := s.hasReset
  profile := s.profile
  inhibit := s.inhibit
  halted := s.halted

/-- `t` is `s` after operations that keep the control state and the order of memory, and write no flag but those `may` allows. -/
structure InstrFrame (may : Flag → Bool) (s t : State) : Prop where
  control : t.control = s.control
  memInOrder : s.MemInOrder → t.MemInOrder
  flags : KeepsFlags may s.p t.p

variable {may : Flag → Bool} {s t : State}

/-- An update of registers alone: the control state and memory are untouched. -/
theorem InstrFrame.of_registers (control : t.control = s.control) (mem : t.mem = s.mem) (flags : KeepsFlags may s.p t.p) :
    InstrFrame may s t :=
  ⟨control, fun h => by rwa [State.MemInOrder, mem], flags⟩

theorem InstrFrame.refl : InstrFrame may s s := .of_registers rfl rfl .refl

theorem InstrFrame.trans {u : State} (h : InstrFrame may s t) (h' : InstrFrame may t u) : InstrFrame may s u :=
  ⟨h'.control.trans h.control, h'.memInOrder ∘ h.memInOrder, h.flags.trans h'.flags⟩

/-! ## Registers -/

theorem setP_frame {q : Byte} (h : KeepsFlags may s.p q) : InstrFrame may s (s.setP q) := .of_registers rfl rfl h

theorem loadA_frame (hn : may .n = true) (hz : may .z = true) (v : Byte) : InstrFrame may s (s.loadA v) :=
  .of_registers rfl rfl (.setNZ hn hz v)

theorem loadX_frame (hn : may .n = true) (hz : may .z = true) (v : Byte) : InstrFrame may s (s.loadX v) :=
  .of_registers rfl rfl (.setNZ hn hz v)

theorem loadY_frame (hn : may .n = true) (hz : may .z = true) (v : Byte) : InstrFrame may s (s.loadY v) :=
  .of_registers rfl rfl (.setNZ hn hz v)

theorem addToA_frame (hn : may .n = true) (hv : may .v = true) (hz : may .z = true) (hc : may .c = true) (m : Byte) :
    InstrFrame may s (s.addToA m) :=
  .of_registers rfl rfl (.aluOut hn hv hz hc _)

theorem subFromA_frame (hn : may .n = true) (hv : may .v = true) (hz : may .z = true) (hc : may .c = true) (m : Byte) :
    InstrFrame may s (s.subFromA m) :=
  .of_registers rfl rfl (.aluOut hn hv hz hc _)

theorem chargeDecimal_frame (s : State) : InstrFrame may s s.chargeDecimal := .of_registers rfl rfl .refl

theorem setPc_frame (s : State) (w : Word) : InstrFrame may s (s.setPc w) := .of_registers rfl rfl .refl

theorem branch_frame (s : State) (cond : Bool) (target : Word) : InstrFrame may s (s.branch cond target) :=
  .of_registers (by simp [State.control]) (by simp) (by rw [State.branch_p]; exact .refl)

theorem brkClearD_frame (h : s.cfg.brkClearsD = true → may .d = true) : InstrFrame may s s.brkClearD := by
  unfold State.brkClearD
  split
  next hd => exact setP_frame (.setFlag (h hd) _)
  next => exact .refl

/-! ## Memory and the stack -/

theorem sameButReads.frame (h : sameButReads s t) : InstrFrame may s t := by
  rw [h]
  exact .of_registers rfl rfl .refl

theorem memWrite_frame (s : State) (a : Word) (v : Byte) : InstrFrame may s (s.memWrite a v) :=
  ⟨by simp [State.control], fun h => memWrite_memInOrder h a v, by rw [State.memWrite_p]; exact .refl⟩

theorem push_frame (s : State) (v : Byte) : InstrFrame may s (s.push v) :=
  (memWrite_frame s _ v).trans (.of_registers rfl rfl .refl)

theorem pull_frame (s : State) : InstrFrame may s s.pull.st :=
  .trans (t := { s with sp := s.sp + 1#8 }) (.of_registers rfl rfl .refl) (memRead_sameButReads _ _).frame

theorem pullWord_frame (s : State) : InstrFrame may s s.pullWord.st := (pull_frame s).trans (pull_frame _)

theorem pullP_frame (h : ∀ f, may f = true) (s : State) : InstrFrame may s s.pullP :=
  (pull_frame s).trans (setP_frame (.of_all h))

theorem jumpVector_frame (s : State) (vector : Word) : InstrFrame may s (s.jumpVector vector) :=
  (read16_sameButReads s _ _).frame.trans (setPc_frame _ _)

/-- Entering a handler writes I alone (R404, R408). -/
theorem enterHandler_frame (hi : may .i = true) (s : State) (vector : Word) (pp : Byte) :
    InstrFrame may s (s.enterHandler vector pp) :=
  (((push_frame s _).trans (push_frame _ _)).trans (push_frame _ _)).trans
    ((setP_frame (.setFlag hi true)).trans (jumpVector_frame _ vector))

/-! ## Operands -/

theorem operand_frame (o : Src) (s : State) : InstrFrame may s (operand o s).st := (operand_sameButReads o s).frame

theorem resolveTarget_frame (o : Target) (s : State) : InstrFrame may s (resolveTarget o s).st := by
  cases o with
  | abs w => exact .refl
  | ind w | iax w => exact (read16_sameButReads s _ _).frame

theorem storeWith_frame (o : Addr) (f : Ea → State → Byte) (s : State) : InstrFrame may s (storeWith o f s) :=
  (resolve_sameButReads o s).frame.trans (memWrite_frame _ _ _)

/-- A read-modify-write adds to its accesses what `g` does (R168). -/
theorem modifyWith_frame {g : Byte → State → State} (hg : ∀ m u, InstrFrame may u (g m u)) (o : Addr) (f : Byte → State → Byte)
    (s : State) : InstrFrame may s (modifyWith o f g s) :=
  ((operand_frame (.mem o) s).trans (memWrite_frame _ _ _)).trans (hg _ _)

theorem subtractOperand_frame (hn : may .n = true) (hv : may .v = true) (hz : may .z = true) (hc : may .c = true) (o : Src)
    (s : State) : InstrFrame may s (subtractOperand o s) :=
  ((operand_frame o s).trans (chargeDecimal_frame _)).trans (subFromA_frame hn hv hz hc _)

theorem shiftPlace_frame (hn : may .n = true) (hz : may .z = true) (hc : may .c = true) (f : Byte → Bool → ShiftOut) (o : Place)
    (s : State) : InstrFrame may s (shiftPlace f o s) := by
  cases o with
  | acc => exact .of_registers rfl rfl (.shiftOut hn hz hc _)
  | mem o =>
    unfold shiftPlace
    exact modifyWith_frame (fun _ _ => setP_frame (.shiftOut hn hz hc _)) o _ s

end Sys2Proof.Machine
end

section
/-! What an instruction can do, said once. -/

namespace Sys2Proof.Machine

/-- An instruction completes inside its frame, with the flags that `mayWriteFlag` gives it (R35); CLI, PLP and RTI may then arm
the deferral (R280), and JAM halts where the policy says so (R372). -/
def ExecCases (i : Instr) (s : State) : Prop :=
  ∃ u, InstrFrame (mayWriteFlag s.cfg · i) s u ∧
    (exec i s = .next u ∨
      (i ∈ [Instr.cli, .plp, .rti] ∧ exec i s = .next (u.armDeferral (getFlag s.p .i))) ∨
      ((∃ op, i = .jam op) ∧ s.cfg.jamPolicy = .halt ∧ exec i s = .next { u with halted := true }))

theorem ExecCases.plain {i : Instr} {s u : State} (h : exec i s = .next u) (frame : InstrFrame (mayWriteFlag s.cfg · i) s u) :
    ExecCases i s := ⟨u, frame, .inl h⟩

theorem ExecCases.deferring {i : Instr} {s u : State} (hi : i ∈ [Instr.cli, .plp, .rti])
    (h : exec i s = .next (u.armDeferral (getFlag s.p .i))) (frame : InstrFrame (mayWriteFlag s.cfg · i) s u) : ExecCases i s :=
  ⟨u, frame, .inr (.inl ⟨hi, h⟩)⟩

theorem execBit_cases (o : Src) (s : State) : ExecCases (.bit o) s := by
  cases o with
  | imm m => exact .plain rfl (setP_frame (.setFlag rfl _))
  | mem o =>
    refine .plain rfl ((operand_frame (.mem o) s).trans (setP_frame ?_))
    exact ((KeepsFlags.setFlag rfl _).trans (.setFlag rfl _)).trans (.setFlag rfl _)

theorem execJam_cases (op : Byte) (s : State) : ExecCases (.jam op) s := by
  cases hj : s.cfg.jamPolicy with
  | nop => exact .plain (by simp [exec, execJam, hj]) .refl
  | halt => exact ⟨s, .refl, .inr (.inr ⟨⟨op, rfl⟩, hj, by simp [exec, execJam, hj]⟩)⟩

theorem execBrk_cases (s : State) : ExecCases .brk s := by
  have skip : InstrFrame (mayWriteFlag s.cfg · .brk) s { s with pc := s.pc + 1#16 } := .of_registers rfl rfl .refl
  have entry := skip.trans (enterHandler_frame rfl _ 0xFFFE#16 (pushedBySoftware s.p))
  refine .plain rfl (entry.trans (brkClearD_frame fun hd => ?_))
  have hcfg : s.cfg.brkClearsD = true := by simpa using hd
  simp [mayWriteFlag, hcfg]

/-- Every instruction's frame, composed from the frames of the operations its meaning calls. -/
theorem exec_cases (i : Instr) (s : State) : ExecCases i s := by
  cases i with
  -- arithmetic
  | adc o =>
    exact .plain rfl (((operand_frame o s).trans (chargeDecimal_frame _)).trans (addToA_frame rfl rfl rfl rfl _))
  | sbc o => exact .plain rfl (subtractOperand_frame rfl rfl rfl rfl o s)
  | usbc m => exact .plain rfl (subtractOperand_frame rfl rfl rfl rfl (.imm m) s)
  -- operands into registers
  | and o | ora o | eor o | lda o => exact .plain rfl ((operand_frame o s).trans (loadA_frame rfl rfl _))
  | ldx o => exact .plain rfl ((operand_frame o s).trans (loadX_frame rfl rfl _))
  | ldy o => exact .plain rfl ((operand_frame o s).trans (loadY_frame rfl rfl _))
  | lax o | las o =>
    exact .plain rfl ((operand_frame (.mem o) s).trans (.of_registers rfl rfl (.setNZ rfl rfl _)))
  | cmp o | cpx o | cpy o => exact .plain rfl ((operand_frame o s).trans (setP_frame (.compareP rfl rfl rfl _ _)))
  | bit o => exact execBit_cases o s
  -- stores
  | sta o | stx o | sty o | stz o | sax o | shy o | shx o | sha o => exact .plain rfl (storeWith_frame o _ s)
  | tas o => exact .plain rfl (.trans (t := { s with sp := s.a &&& s.x }) (.of_registers rfl rfl .refl) (storeWith_frame o _ _))
  -- read-modify-write
  | inc o | dec o => exact .plain rfl (modifyWith_frame (fun _ _ => setP_frame (.setNZ rfl rfl _)) o _ s)
  | asl o | lsr o | rol o | ror o => exact .plain rfl (shiftPlace_frame rfl rfl rfl _ o s)
  | slo o | rla o | sre o =>
    exact .plain rfl (modifyWith_frame (fun _ _ => (setP_frame (.setFlag rfl _)).trans (loadA_frame rfl rfl _)) o _ s)
  | rra o =>
    exact .plain rfl (modifyWith_frame (fun _ _ => (setP_frame (.setFlag rfl _)).trans (addToA_frame rfl rfl rfl rfl _)) o _ s)
  | isc o => exact .plain rfl (modifyWith_frame (fun _ _ => subFromA_frame rfl rfl rfl rfl _) o _ s)
  | dcp o => exact .plain rfl (modifyWith_frame (fun _ _ => setP_frame (.compareP rfl rfl rfl _ _)) o _ s)
  | tsb o | trb o => exact .plain rfl (modifyWith_frame (fun _ _ => setP_frame (.setFlag rfl _)) o _ s)
  | rmb b z | smb b z => exact .plain rfl (modifyWith_frame (fun _ _ => .refl) (.zp z) _ s)
  -- registers alone
  | txa | tya | ina | dea | ane m => exact .plain rfl (loadA_frame rfl rfl _)
  | tax | tsx | inx | dex => exact .plain rfl (loadX_frame rfl rfl _)
  | tay | iny | dey => exact .plain rfl (loadY_frame rfl rfl _)
  | anc op m => exact .plain rfl ((loadA_frame rfl rfl _).trans (setP_frame (.setFlag rfl _)))
  | alr m => exact .plain rfl ((setP_frame (.setFlag rfl _)).trans (loadA_frame rfl rfl _))
  | arr m => exact .plain rfl (.of_registers rfl rfl (.aluOut rfl rfl rfl rfl _))
  | sbx m => exact .plain rfl (.of_registers rfl rfl (.compareP rfl rfl rfl _ _))
  | lxa m => exact .plain rfl (.of_registers rfl rfl (.setNZ rfl rfl _))
  | clc | sec | sei | clv | cld | sed => exact .plain rfl (setP_frame (.setFlag rfl _))
  | txs | nop op o | undef op o => exact .plain rfl (.of_registers rfl rfl .refl)
  -- branches, jumps, subroutines
  | bpl rr | bmi rr | bvc rr | bvs rr | bcc rr | bcs rr | bne rr | beq rr | bra rr => exact .plain rfl (branch_frame s _ _)
  | bbr b z rr | bbs b z rr => exact .plain rfl ((memRead_sameButReads s _).frame.trans (branch_frame _ _ _))
  | jmp o => exact .plain rfl ((resolveTarget_frame o s).trans (setPc_frame _ _))
  | jsr w => exact .plain rfl (((push_frame s _).trans (push_frame _ _)).trans (setPc_frame _ w))
  | rts => exact .plain rfl ((pullWord_frame s).trans (setPc_frame _ _))
  -- the stack, BRK, the deferral, JAM
  | pha | php | phx | phy => exact .plain rfl (push_frame s _)
  | pla => exact .plain rfl ((pull_frame s).trans (loadA_frame rfl rfl _))
  | plx => exact .plain rfl ((pull_frame s).trans (loadX_frame rfl rfl _))
  | ply => exact .plain rfl ((pull_frame s).trans (loadY_frame rfl rfl _))
  | brk => exact execBrk_cases s
  | cli => exact .deferring (by simp) rfl (setP_frame (.setFlag rfl _))
  | plp => exact .deferring (by simp) rfl (pullP_frame (fun _ => rfl) s)
  | rti =>
    exact .deferring (by simp) rfl (((pullP_frame (fun _ => rfl) s).trans (pullWord_frame _)).trans (setPc_frame _ _))
  | jam op => exact execJam_cases op s

/-- What an instruction answers: a state in its frame, the deferral possibly armed, or the halted core. -/
theorem exec_inversion {i : Instr} {s t : State} (h : exec i s = .next t) :
    ∃ u, InstrFrame (mayWriteFlag s.cfg · i) s u ∧
      (t = u ∨ (i ∈ [Instr.cli, .plp, .rti] ∧ t = u.armDeferral (getFlag s.p .i)) ∨
        ((∃ op, i = .jam op) ∧ s.cfg.jamPolicy = .halt ∧ t = { u with halted := true })) := by
  obtain ⟨u, frame, hu⟩ := exec_cases i s
  simp only [h, Host.Outcome.next.injEq] at hu
  exact ⟨u, frame, hu⟩

/-- No instruction changes the control state but for inhibit and halted. -/
theorem exec_control {i : Instr} {s t : State} (h : exec i s = .next t) :
    t.control = { s.control with inhibit := t.inhibit, halted := t.halted } := by
  obtain ⟨u, frame, hu⟩ := exec_inversion h
  rw [← frame.control]
  rcases hu with rfl | ⟨-, rfl⟩ | ⟨-, -, rfl⟩ <;> simp [State.control]

theorem exec_cfg {i : Instr} {s t : State} (h : exec i s = .next t) : t.cfg = s.cfg := congrArg Control.cfg (exec_control h)

theorem exec_ppc {i : Instr} {s t : State} (h : exec i s = .next t) : t.ppc = s.ppc := congrArg Control.ppc (exec_control h)

theorem exec_inhibit {i : Instr} {s t : State} (h : exec i s = .next t) (hi : i ∉ [Instr.cli, .plp, .rti]) :
    t.inhibit = s.inhibit := by
  obtain ⟨u, frame, rfl | ⟨hmem, -⟩ | ⟨-, -, rfl⟩⟩ := exec_inversion h
  · exact congrArg Control.inhibit frame.control
  · exact absurd hmem hi
  · exact congrArg Control.inhibit frame.control

theorem exec_halted {i : Instr} {s t : State} (h : exec i s = .next t) (hi : ∀ op, i ≠ .jam op) : t.halted = s.halted := by
  obtain ⟨u, frame, rfl | ⟨-, rfl⟩ | ⟨⟨op, hop⟩, -⟩⟩ := exec_inversion h
  · exact congrArg Control.halted frame.control
  · exact (State.armDeferral_halted u _).trans (congrArg Control.halted frame.control)
  · exact absurd hop (hi op)

theorem exec_flags {i : Instr} {s t : State} (h : exec i s = .next t) : KeepsFlags (mayWriteFlag s.cfg · i) s.p t.p := by
  obtain ⟨u, frame, hu⟩ := exec_inversion h
  have hp : t.p = u.p := by rcases hu with rfl | ⟨-, rfl⟩ | ⟨-, -, rfl⟩ <;> simp
  rw [hp]
  exact frame.flags

/-- Only the pulled P of PLP and RTI can touch the Unused bit (R36). -/
theorem mayWriteFlag_unused {cfg : Config} {i : Instr} (h : mayWriteFlag cfg .u i = true) : i = .plp ∨ i = .rti := by
  cases i
  case plp => exact .inl rfl
  case rti => exact .inr rfl
  case bit o => cases o <;> cases h
  all_goals cases h

/-- The Unused bit stays 1: PLP and RTI force it, the others leave it (R36, R284, R285). -/
theorem exec_unused {i : Instr} {s t : State} (h : exec i s = .next t) (hs : getFlag s.p .u = true) :
    getFlag t.p .u = true := by
  cases hm : mayWriteFlag s.cfg .u i with
  | false => rw [exec_flags h .u hm, hs]
  | true =>
    rcases mayWriteFlag_unused hm with rfl | rfl <;> cases h
    · simp [State.pullP, getFlag_restoredP]
    · simp [State.returnFromHandler, State.pullP, getFlag_restoredP]

end Sys2Proof.Machine
end

section
/-! The invariant, kept by each part of a step. -/

namespace Sys2Proof.Machine

variable {s t : State}

theorem Inv.memInOrder (h : Inv s) : s.MemInOrder := ⟨h.memWf, h.memInSpace⟩

theorem Inv.of_frame {may : Flag → Bool} (h : Inv s) (frame : InstrFrame may s t) (unused : getFlag t.p .u = true) : Inv t := by
  have hcfg : t.cfg = s.cfg := congrArg Control.cfg frame.control
  have htotal : t.clocktickstotal = s.clocktickstotal := congrArg Control.clocktickstotal frame.control
  have hhalted : t.halted = s.halted := congrArg Control.halted frame.control
  have hprofile : t.profile = s.profile := congrArg Control.profile frame.control
  obtain ⟨memWf, memInSpace⟩ := frame.memInOrder h.memInOrder
  exact {
    hasReset := (congrArg Control.hasReset frame.control).trans h.hasReset
    memWf := memWf
    memInSpace := memInSpace
    profileWf := hprofile ▸ h.profileWf
    profileInRange := hprofile ▸ h.profileInRange
    inhibit := (congrArg Control.inhibit frame.control).trans_le h.inhibit
    unused := unused
    ceiling := by rw [hcfg, htotal]; exact h.ceiling
    halted := by rw [hcfg, hhalted]; exact h.halted }

/-! ## The parts of a step -/

theorem Inv.beginStep (h : Inv s) : Inv s.beginStep := { h with }

theorem Inv.addCycles (h : Inv s) (n : Nat) : Inv (s.addCycles n) := { h with }

theorem Inv.decInhibit (h : Inv s) : Inv s.decInhibit := { h with inhibit := (Nat.sub_le _ _).trans h.inhibit }

theorem overCeiling_account (s : State) : overCeiling s.cfg.cycleCeiling s.account.clocktickstotal = false := by
  unfold State.account
  dsimp only
  split
  next => cases s.cfg.cycleCeiling <;> simp [overCeiling]
  next hle => simpa using hle

/-- The running total never exceeds the ceiling after it is accounted, whatever the step cost (R480). -/
theorem Inv.account (h : Inv s) : Inv s.account := { h with ceiling := overCeiling_account s }

theorem Inv.finishInstr (h : Inv s) (op : Byte) (crossed : Bool) : Inv (s.finishInstr op crossed) :=
  (h.addCycles _).account.decInhibit

theorem Inv.armDeferral (h : Inv s) (iBefore : Bool) : Inv (s.armDeferral iBefore) := by
  unfold State.armDeferral
  split
  · exact { h with inhibit := le_rfl }
  · exact h

theorem Inv.halt (h : Inv s) (policy : s.cfg.jamPolicy = .halt) : Inv { s with halted := true } :=
  { h with halted := fun _ => policy }

theorem Inv.acknowledgeIrq (h : Inv s) : Inv s.acknowledgeIrq := by
  unfold State.acknowledgeIrq
  split
  · exact { h with }
  · exact h

/-! ## Interrupts -/

theorem Inv.service (h : Inv s) (vector : Word) : Inv (s.service vector) := by
  have frame : InstrFrame (· == .i) s (s.service vector) := enterHandler_frame rfl s vector _
  exact h.of_frame frame ((frame.flags .u rfl).trans h.unused)

theorem Inv.nmiStep (h : Inv s) : Inv s.nmiStep := by
  have cleared : Inv { s with nmiPending := false } := { h with }
  exact ((cleared.service _).addCycles 7).decInhibit.account

theorem Inv.irqStep (h : Inv s) : Inv s.irqStep := ((h.service _).addCycles 7).acknowledgeIrq.decInhibit.account

/-! ## An instruction -/

theorem countOpcode_profile_inOrder (h : Cells.InOrder 0 256 s.profile) (op : Byte) :
    Cells.InOrder 0 256 (s.countOpcode op).profile := by
  unfold State.countOpcode
  split
  · exact h.set op.isLt (Cells.get 0 s.profile op.toNat + 1)
  · exact h

/-- The operand bytes of a fetch leave the counters: only the opcode is counted (R431). -/
theorem fetchInstr_profile (s : State) : s.fetchInstr.st.profile = s.fetchOpcode.st.profile := by
  unfold State.fetchInstr
  dsimp only
  split <;> simp

theorem Inv.fetchInstr (h : Inv s) : Inv s.fetchInstr.st := by
  have hprofile : Cells.InOrder 0 256 s.fetchInstr.st.profile := by
    rw [fetchInstr_profile]
    exact countOpcode_profile_inOrder (by simpa using ⟨h.profileWf, h.profileInRange⟩) _
  exact {
    hasReset := by simpa using h.hasReset
    memWf := by simpa using h.memWf
    memInSpace := by simpa using h.memInSpace
    profileWf := hprofile.1
    profileInRange := hprofile.2
    inhibit := by simpa using h.inhibit
    unused := by simpa using h.unused
    ceiling := by simpa using h.ceiling
    halted := by simpa using h.halted }

theorem Inv.exec {i : Instr} (h : Inv s) (ht : exec i s = .next t) : Inv t := by
  have unused : getFlag t.p .u = true := exec_unused ht h.unused
  obtain ⟨u, frame, rfl | ⟨-, rfl⟩ | ⟨-, policy, rfl⟩⟩ := exec_inversion ht
  · exact h.of_frame frame unused
  · exact (h.of_frame frame (by simpa using unused)).armDeferral _
  · have hcfg : u.cfg = s.cfg := congrArg Control.cfg frame.control
    exact (h.of_frame frame unused).halt (by rw [hcfg, policy])

theorem Inv.step (h : Inv s) (ht : step s = .next t) : Inv t := by
  obtain ⟨-, ⟨-, rfl⟩ | ⟨-, -, rfl⟩ | ⟨-, -, -, rfl⟩ | ⟨-, -, -, u, hu, rfl⟩⟩ := step_cases ht
  · exact h.beginStep
  · exact h.beginStep.nmiStep
  · exact h.beginStep.irqStep
  · exact (h.beginStep.fetchInstr.exec hu).finishInstr _ _

/-- Settles O46: each of the four things a step can be keeps the invariant. -/
theorem stepKeepsTheInvariant : Obligations.StepKeepsTheInvariant := fun _ _ => Inv.step

/-- Settles O45, the base case of O46. -/
theorem resetStateMeetsTheInvariant : Obligations.ResetStateMeetsTheInvariant where
  hasReset := rfl
  memWf := reset_mem_wf
  memInSpace := by simp [State.reset]
  profileWf := rfl
  profileInRange := by simp [State.reset]
  inhibit := Nat.zero_le 2
  unused := rfl
  ceiling := rfl
  halted := nofun

end Sys2Proof.Machine
end

section
/-! What every instruction leaves alone: flags and the control state. -/

namespace Sys2Proof.Machine

/-- Settles O42: an instruction's frame allows it just the flags of `mayWriteFlag`. -/
theorem onlyTheNamedInstructionsWriteAFlag : Obligations.OnlyTheNamedInstructionsWriteAFlag := by
  intro s i
  obtain ⟨t, ht⟩ := exec_next i s
  exact ⟨t, ht, exec_flags ht⟩

/-- Settles O43: the control state is part of every instruction's frame, but for the deferral and the halt. -/
theorem instructionsLeaveTheControlState : Obligations.InstructionsLeaveTheControlState := by
  intro s i
  obtain ⟨t, ht⟩ := exec_next i s
  have hcontrol := exec_control ht
  simp only [State.control, Control.mk.injEq, and_true] at hcontrol
  obtain ⟨cfg, ppc, ppcWritten, irqPending, nmiPending, irqMode, portPins, portCallback, total, hasReset, profile⟩ := hcontrol
  refine ⟨t, ht, cfg, ppc, ppcWritten, irqPending, nmiPending, irqMode, portPins, portCallback, total, hasReset, profile, ?_,
    exec_halted ht⟩
  intro hcli hplp hrti
  exact exec_inhibit ht (by simp [hcli, hplp, hrti])

end Sys2Proof.Machine
end

section
/-! Steps, runs and host calls: the configuration, PPC, and the cores that do not run. -/

namespace Sys2Proof.Machine

theorem step_cfg {s t : State} (h : step s = .next t) : t.cfg = s.cfg := by
  obtain ⟨-, ⟨-, rfl⟩ | ⟨-, -, rfl⟩ | ⟨-, -, -, rfl⟩ | ⟨-, -, -, u, hu, rfl⟩⟩ := step_cases h
  · rfl
  · simp [State.nmiStep]
  · simp [State.irqStep]
  · simpa [State.finishInstr] using exec_cfg hu

theorem runForLoop_cfg {fuel n done : Nat} {s t : State} {d : Nat} (h : runForLoop fuel n done s = .next (d, t)) :
    t.cfg = s.cfg := by
  induction fuel generalizing done s with
  | zero => cases h; rfl
  | succ fuel ih =>
    unfold runForLoop at h
    split at h
    next =>
      split at h
      next u hu =>
        split at h
        next => cases h; exact step_cfg hu
        next => exact (ih h).trans (step_cfg hu)
      next => cases h
      next => cases h
    next => cases h; rfl

theorem runFor_cfg {n : Int} {s t : State} {d : Nat} (h : runFor n s = .next (d, t)) : t.cfg = s.cfg := by
  unfold runFor at h
  split at h
  · exact runForLoop_cfg h
  · cases h

theorem hostReset_cfg (s : State) : s.hostReset.cfg = s.cfg := by simp [State.hostReset]

theorem setReg_cfg (s : State) (r : RegId) (v : Byte) : (s.setReg r v).cfg = s.cfg := by cases r <;> rfl

theorem getTotal_cfg (s : State) (zero : Bool) : (s.getTotal zero).2.cfg = s.cfg := by cases zero <;> rfl

/-- Settles O47: every step is one of four things, a run is steps, and no host call names the configuration. -/
theorem configurationNeverChanges : Obligations.ConfigurationNeverChanges := fun s =>
  ⟨fun _ => step_cfg, fun _ _ _ => runFor_cfg, hostReset_cfg s, rfl, rfl, rfl, fun _ => rfl, setReg_cfg s, fun _ => rfl,
    getTotal_cfg s, fun _ => rfl, fun _ => rfl, rfl⟩

/-- Settles O56: the fetch sets PPC, and nothing else of a step writes it. -/
theorem ppcIsTheOpcodeAddressPlusOne : Obligations.PpcIsTheOpcodeAddressPlusOne := by
  intro s t h
  obtain ⟨-, ⟨hh, rfl⟩ | ⟨hh, hn, rfl⟩ | ⟨hh, hn, hi, rfl⟩ | ⟨hh, hn, hi, u, hu, rfl⟩⟩ := step_cases h
  · simp [hh]
  · simp [hn, State.nmiStep]
  · simp [hi, State.irqStep]
  · have hppc : u.ppc = s.pc + 1#16 := by simpa using exec_ppc hu
    simp [hh, hn, hi, State.finishInstr, hppc]

/-- Settles O49: each of these operations tests `has_reset` first. -/
theorem nothingRunsBeforeReset : Obligations.NothingRunsBeforeReset := by
  refine ⟨fun _ _ => rfl, fun _ => rfl, fun s h => ⟨?_, fun n => ?_, fun r => ?_, ?_, ?_⟩⟩
  · simp [step, runStep, h]
  · simp [runFor, h]
  · simp [State.getReg, h]
  · simp [State.getPc, h]
  · simp [State.getPpc, h]

theorem step_of_halted {s : State} (hr : s.hasReset = true) (hh : s.halted = true) : step s = .next s.beginStep := by
  simp [step, runStep, hr, hh]

/-- A run ends at a step of 0 cycles (R401, D6). -/
theorem runFor_of_zero_cycles {n : Int} {s t : State} (hr : s.hasReset = true) (hn : 0 < n) (h : step s = .next t)
    (ht : t.clockticks = 0) : runFor n s = .next (0, t) := by
  obtain ⟨k, hk⟩ : ∃ k, n.toNat = k + 1 := ⟨n.toNat - 1, by omega⟩
  simp [runFor, hr, hk, runForLoop, h, ht]

/-- Settles O52: a halted core's step is the bare start of a step, of 0 cycles, at which a run ends. -/
theorem haltedCoreDoesNothing : Obligations.HaltedCoreDoesNothing := by
  intro s hr hh
  have hstep := step_of_halted hr hh
  exact ⟨hstep, fun _ hn => runFor_of_zero_cycles hr hn hstep rfl, by simp [State.hostReset]⟩

end Sys2Proof.Machine
end

section
/-! Where an access of the bus goes (R72). -/

namespace Sys2Proof.Machine

variable {m : BusMap} {b : Nat}

theorem rangeHolds_iff {r : BusRange} : rangeHolds r b = true ↔ r.base ≤ b ∧ b < r.base + r.size := by simp [rangeHolds]

theorem rangeAt_of_no_match (h : ∀ r ∈ m.ranges, ¬(r.base ≤ b ∧ b < r.base + r.size)) : rangeAt m b = none :=
  List.find?_eq_none.mpr fun r hr hmatch => h r hr (rangeHolds_iff.mp hmatch)

theorem rangeAt_of_first_match {before after : List BusRange} {r : BusRange} (split : m.ranges = before ++ r :: after)
    (earlier : ∀ q ∈ before, ¬(q.base ≤ b ∧ b < q.base + q.size)) (lower : r.base ≤ b) (upper : b < r.base + r.size) :
    rangeAt m b = some r := by
  have hbefore : before.find? (rangeHolds · b) = none :=
    List.find?_eq_none.mpr fun q hq hmatch => earlier q hq (rangeHolds_iff.mp hmatch)
  have hr : rangeHolds r b = true := rangeHolds_iff.mpr ⟨lower, upper⟩
  simp [rangeAt, split, List.find?_append, hbefore, hr]

theorem routeOf_of_none (h : rangeAt m b = none) (hasHandler : BusRange → Bool) :
    routeOf m hasHandler b = if m.strict then .rejected else .backing := by simp [routeOf, h]

theorem routeOf_of_some {r : BusRange} (h : rangeAt m b = some r) (hasHandler : BusRange → Bool) :
    routeOf m hasHandler b = if hasHandler r then .handler (b - r.base) else .backing := by simp [routeOf, h]

/-- Settles O8: the range an access finds decides its route, and it is the first that matches. -/
theorem busRangesAreScannedInOrder : Obligations.BusRangesAreScannedInOrder := by
  intro m b
  constructor
  · intro unmatched
    have hnone := rangeAt_of_no_match unmatched
    exact ⟨routeOf_of_none hnone _, routeOf_of_none hnone _⟩
  · intro before after r split earlier lower upper
    have hsome := rangeAt_of_first_match split earlier lower upper
    exact ⟨routeOf_of_some hsome _, routeOf_of_some hsome _⟩

end Sys2Proof.Machine
end

section
/-! What one read and one write of the core answer and store (R71 to R74), and the stack (R81 to R83). -/

namespace Sys2Proof.Machine

variable {s : State} {a : Word} {b : Nat}

theorem isPort_iff : s.isPort b = true ↔ s.cfg.variant = .m6510 ∧ b < 2 := by simp [State.isPort]

theorem isPort_eq_false_iff : s.isPort b = false ↔ ¬(s.cfg.variant = .m6510 ∧ b < 2) := by
  rw [← isPort_iff, Bool.not_eq_true]

/-- Whether an address is plain memory depends on the configuration alone. -/
theorem isPlain_congr {t : State} (cfg : t.cfg = s.cfg) (h : s.isPlain b) : t.isPlain b := by
  simpa [State.isPlain, State.isPort, cfg] using h

/-! ## Reads -/

theorem memRead_of_port (h : s.isPort (s.busAddr a) = true) : s.memRead a = ⟨s.portRead (s.busAddr a), s⟩ := by
  simp [State.memRead, h]

theorem memRead_of_not_port (h : s.isPort (s.busAddr a) = false) : s.memRead a = s.busRead (s.busAddr a) := by
  simp [State.memRead, h]

theorem busRead_of_backing (h : readRoute s.cfg.bus b = .backing) :
    s.busRead b = ⟨s.byteAt b, s.logEvent (.read b (s.byteAt b))⟩ := by simp [State.busRead, State.byteAt, h]

theorem busRead_of_rejected (h : readRoute s.cfg.bus b = .rejected) :
    s.busRead b = ⟨0x00#8, s.logEvent (.read b 0x00#8)⟩ := by simp [State.busRead, h]

theorem busRead_withSp (s : State) (x : Byte) (b : Nat) :
    ({ s with sp := x } : State).busRead b = ⟨(s.busRead b).val, { (s.busRead b).st with sp := x }⟩ := by
  unfold State.busRead
  dsimp only
  split <;> rfl

/-- A read does not depend on S. -/
theorem memRead_withSp (s : State) (x : Byte) (a : Word) :
    ({ s with sp := x } : State).memRead a = ⟨(s.memRead a).val, { (s.memRead a).st with sp := x }⟩ := by
  cases hport : s.isPort (s.busAddr a) with
  | true =>
    rw [memRead_of_port hport]
    exact memRead_of_port hport
  | false =>
    rw [memRead_of_not_port hport, ← busRead_withSp]
    exact memRead_of_not_port hport

/-- At address 1 the port answers the latch's bit on an output line and the pin on an input line (R73). -/
theorem portRead_one_getLsbD (s : State) {k : Nat} (hk : k < 8) :
    (s.portRead 1).getLsbD k = if s.portDdr.getLsbD k then s.portLatch.getLsbD k else s.portPins.getLsbD k := by
  rw [State.portRead, if_neg Nat.one_ne_zero]
  simp only [BitVec.getLsbD_or, BitVec.getLsbD_and, BitVec.getLsbD_not]
  cases s.portDdr.getLsbD k <;> simp [hk]

/-- Settles O5: by what answers the read, the port or a route of the bus. -/
theorem memReadAnswers : Obligations.MemReadAnswers := by
  intro s a
  refine ⟨memRead_sameButReads s a, ?_, ?_, ?_⟩
  · rintro ⟨hv, hb⟩
    rw [memRead_of_port (isPort_iff.mpr ⟨hv, hb.trans_lt Nat.zero_lt_two⟩)]
    exact ⟨if_pos hb, rfl⟩
  · rintro ⟨hv, hb⟩
    rw [memRead_of_port (isPort_iff.mpr ⟨hv, hb.trans_lt Nat.one_lt_two⟩), State.busAddr, hb]
    exact ⟨fun _ => portRead_one_getLsbD s, rfl⟩
  · intro hoff
    have hport : s.isPort (s.busAddr a) = false := isPort_eq_false_iff.mpr hoff
    refine ⟨?_, fun hroute => ?_, fun hroute => ?_⟩
    · rw [memRead_busLog, readEvents, hport]
      rfl
    · rw [memRead_of_not_port hport, busRead_of_backing (b := s.busAddr a) hroute]
      exact ⟨rfl, rfl⟩
    · rw [memRead_of_not_port hport, busRead_of_rejected (b := s.busAddr a) hroute]
      exact ⟨rfl, rfl⟩

/-! ## Writes -/

/-- Settles O6: the store, its frame and its event, each the rule of `State.memWrite`. -/
theorem memWriteStores : Obligations.MemWriteStores := by
  intro s a v
  refine ⟨memWrite_stored s a v, memWrite_sameButBus s a v, State.memWrite_oracle s a v, fun hoff => ?_, fun hon => ?_⟩
  · have hport : s.isPort (s.busAddr a) = false := isPort_eq_false_iff.mpr hoff
    rw [memWrite_busLog, writeEvents, hport]
    rfl
  · have hport : s.isPort (s.busAddr a) = true := isPort_iff.mpr hon
    obtain ⟨hddr, hlatch, -⟩ := (memWrite_stored s a v).1 hport
    rw [memWrite_busLog, writeEvents, hport, hddr, hlatch]
    rfl

/-! ## Reads after writes -/

/-- The byte a write to plain memory leaves at any address (R71, R72). -/
theorem memWrite_byteAt_of_plain (h : s.isPlain (s.busAddr a)) (v : Byte) (k : Nat) :
    (s.memWrite a v).byteAt k = if k = s.busAddr a then v else s.byteAt k := by
  obtain ⟨hport, -, hroute⟩ := h
  obtain ⟨-, -, hat, hother⟩ := (memWrite_stored s a v).2 hport
  split
  next hk => rw [hk, hat, if_pos hroute]
  next hk => exact hother k hk

theorem memRead_memWrite_of_plain {a' : Word} (h : s.isPlain (s.busAddr a)) (h' : s.isPlain (s.busAddr a')) (v : Byte) :
    ((s.memWrite a v).memRead a').val = if s.busAddr a' = s.busAddr a then v else (s.memRead a').val := by
  have hcfg : (s.memWrite a v).cfg = s.cfg := State.memWrite_cfg s a v
  have haddr : (s.memWrite a v).busAddr a' = s.busAddr a' := by rw [State.busAddr, hcfg, State.busAddr]
  have hplain : (s.memWrite a v).isPlain ((s.memWrite a v).busAddr a') := haddr ▸ isPlain_congr hcfg h'
  rw [memRead_plain hplain, memRead_plain h', haddr]
  exact memWrite_byteAt_of_plain h v _

theorem pull_val (s : State) : s.pull.val = (s.memRead (stackAddr (s.sp + 1#8))).val := by rw [State.pull, memRead_withSp]

/-- A pull right after a push reads the address the push wrote, with S back where it was (R81, R82). -/
theorem push_pull_val (s : State) (v : Byte) :
    (s.push v).pull.val = ((s.memWrite (stackAddr s.sp) v).memRead (stackAddr s.sp)).val := by
  rw [pull_val, State.push_sp, BitVec.sub_add_cancel, State.push, memRead_withSp]

/-- Settles O7: the byte read is the byte the backing array holds after the write. -/
theorem readAfterWrite : Obligations.ReadAfterWrite := by
  refine ⟨fun s a a' v h h' => memRead_memWrite_of_plain h h' v, fun s v h => ⟨?_, ?_⟩⟩
  · rw [push_pull_val, memRead_memWrite_of_plain h h, if_pos rfl]
  · rw [State.pull_sp, State.push_sp, BitVec.sub_add_cancel]

/-! ## The stack -/

/-- Settles O9: the two stack operations, and their pointer as a number. -/
theorem pushAndPull : Obligations.PushAndPull := by
  intro s v
  refine ⟨push_pushed s v, pull_pulled s, ?_, ?_, stackAddr_toNat s.sp⟩
  · rw [State.push_sp, BitVec.toNat_sub, Nat.add_comm]
    rfl
  · rw [State.pull_sp, BitVec.toNat_add]
    rfl

end Sys2Proof.Machine
end

section
/-! The bytes an instruction is fetched from (R86, R111, R150). -/

namespace Sys2Proof.Machine

variable {s : State}

/-! ## How many -/

theorem lengthOf_cases (v : Variant) (op : Byte) : lengthOf v op = 1 ∨ lengthOf v op = 2 ∨ lengthOf v op = 3 := by
  unfold lengthOf
  cases modeOf v op <;> simp [Mode.length]

theorem fetchInstr_of_length_one (h : lengthOf s.cfg.variant s.fetchOpcode.val = 1) :
    s.fetchInstr = ⟨s.fetchOpcode.val, 0#8, 0#8, s.fetchOpcode.st⟩ := by simp [State.fetchInstr, h]

theorem fetchInstr_of_length_two (h : lengthOf s.cfg.variant s.fetchOpcode.val = 2) :
    s.fetchInstr = ⟨s.fetchOpcode.val, s.fetchOpcode.st.fetchByte.val, 0#8, s.fetchOpcode.st.fetchByte.st⟩ := by
  simp [State.fetchInstr, h]

theorem fetchInstr_of_length_three (h : lengthOf s.cfg.variant s.fetchOpcode.val = 3) :
    s.fetchInstr = ⟨s.fetchOpcode.val, s.fetchOpcode.st.fetchByte.val, s.fetchOpcode.st.fetchByte.st.fetchByte.val,
      s.fetchOpcode.st.fetchByte.st.fetchByte.st⟩ := by
  simp [State.fetchInstr, h]

theorem fetchInstr_op (s : State) : s.fetchInstr.op = s.fetchOpcode.val := by
  unfold State.fetchInstr
  dsimp only
  split <;> rfl

/-- PC advances by the opcode's length (R86, R111). -/
theorem fetchInstr_pc (s : State) :
    s.fetchInstr.st.pc = s.pc + BitVec.ofNat 16 (lengthOf s.cfg.variant s.fetchOpcode.val) := by
  obtain h | h | h := lengthOf_cases s.cfg.variant s.fetchOpcode.val
  · simp [fetchInstr_of_length_one h, h]
  · simp [fetchInstr_of_length_two h, h, BitVec.add_assoc]
  · simp [fetchInstr_of_length_three h, h, BitVec.add_assoc]

/-! ## From plain memory -/

/-- The bus address of the `k`th byte from PC. -/
def State.fetchAddr (s : State) (k : Nat) : Nat := s.busAddr (s.pc + BitVec.ofNat 16 k)

theorem fetchAddr_zero (s : State) : s.fetchAddr 0 = s.busAddr s.pc := congrArg s.busAddr (BitVec.add_zero s.pc)

/-- The state after fetching the first `n` bytes of an instruction, the opcode `op` among them, from plain memory. -/
def State.afterPlainFetch (s : State) (op : Byte) (n : Nat) : State :=
  { s with
    pc := s.pc + BitVec.ofNat 16 n
    ppc := s.pc + 1#16
    ppcWritten := true
    profile := if s.cfg.profiling then Cells.set 0 s.profile op.toNat (Cells.get 0 s.profile op.toNat + 1) else s.profile
    busLog := s.busLog ++ (List.range n).map fun k => .read (s.fetchAddr k) (s.byteAt (s.fetchAddr k)) }

theorem fetchByte_of_plain (h : s.isPlain (s.busAddr s.pc)) : s.fetchByte = ⟨s.byteAt (s.busAddr s.pc),
    { s with pc := s.pc + 1#16, busLog := s.busLog ++ [.read (s.busAddr s.pc) (s.byteAt (s.busAddr s.pc))] }⟩ := by
  rw [State.fetchByte, memRead_plain h]
  rfl

theorem countOpcode_eq (s : State) (op : Byte) : s.countOpcode op = { s with
    profile := if s.cfg.profiling then Cells.set 0 s.profile op.toNat (Cells.get 0 s.profile op.toNat + 1) else s.profile } := by
  unfold State.countOpcode
  split <;> rfl

theorem fetchOpcode_of_plain (h : s.isPlain (s.fetchAddr 0)) :
    s.fetchOpcode = ⟨s.byteAt (s.fetchAddr 0), s.afterPlainFetch (s.byteAt (s.fetchAddr 0)) 1⟩ := by
  rw [State.fetchOpcode, fetchByte_of_plain (fetchAddr_zero s ▸ h), countOpcode_eq, ← fetchAddr_zero]
  rfl

/-- One more byte of plain memory. -/
theorem fetchByte_afterPlainFetch {n : Nat} (h : s.isPlain (s.fetchAddr n)) (op : Byte) :
    (s.afterPlainFetch op n).fetchByte = ⟨s.byteAt (s.fetchAddr n), s.afterPlainFetch op (n + 1)⟩ := by
  have hplain : (s.afterPlainFetch op n).isPlain ((s.afterPlainFetch op n).busAddr (s.afterPlainFetch op n).pc) := h
  rw [fetchByte_of_plain hplain]
  simp [State.afterPlainFetch, State.fetchAddr, State.busAddr, State.byteAt, List.range_succ, BitVec.add_assoc, BitVec.ofNat_add]

/-- Settles O51: one byte after another, as many as the opcode's length. -/
theorem fetchReadsTheInstructionBytes : Obligations.FetchReadsTheInstructionBytes := by
  intro s
  dsimp only
  rw [fetchInstr_op]
  refine ⟨fetchInstr_pc s, State.fetchInstr_ppc s, fun hplain => ?_⟩
  have h0 := fetchOpcode_of_plain (hplain 0 (by decide))
  have h1 := fetchByte_afterPlainFetch (hplain 1 (by decide)) (s.byteAt (s.fetchAddr 0))
  have h2 := fetchByte_afterPlainFetch (hplain 2 (by decide)) (s.byteAt (s.fetchAddr 0))
  obtain h | h | h := lengthOf_cases s.cfg.variant s.fetchOpcode.val
  · rw [fetchInstr_of_length_one h, h, h0]
    exact ⟨rfl, rfl, rfl, rfl⟩
  · rw [fetchInstr_of_length_two h, h, h0, h1]
    exact ⟨rfl, rfl, rfl, rfl⟩
  · rw [fetchInstr_of_length_three h, h, h0, h1, h2]
    exact ⟨rfl, rfl, rfl, rfl⟩

end Sys2Proof.Machine
end

section
/-! The bytes an instruction stores, as numbers (R168, R225, R226, R240 to R243, R311). -/

namespace Sys2Proof.Machine

theorem add_one_eq_ofNat (m : Byte) : m + 1#8 = BitVec.ofNat 8 (m.toNat + 1) := by simp [BitVec.ofNat_add]

theorem sub_one_eq_ofNat (m : Byte) : m - 1#8 = BitVec.ofNat 8 (m.toNat + 255) := by
  rw [BitVec.ofNat_add, BitVec.ofNat_toNat, BitVec.setWidth_eq, BitVec.sub_eq_add_neg]
  rfl

theorem hPlus1_eq_ofNat (e : Ea) : e.hPlus1 = BitVec.ofNat 8 (e.base.toNat / 256 + 1) := by
  rw [Ea.hPlus1, add_one_eq_ofNat, hiByte_toNat]

theorem shiftAsl_r (m : Byte) : (shiftAsl m).r = BitVec.ofNat 8 (2 * m.toNat) := by
  apply BitVec.eq_of_toNat_eq
  simp [shiftAsl, Nat.shiftLeft_eq, Nat.mul_comm]

theorem shiftLsr_r (m : Byte) : (shiftLsr m).r = BitVec.ofNat 8 (m.toNat / 2) := by
  apply BitVec.eq_of_toNat_eq
  have := m.isLt
  simp [shiftLsr, Nat.shiftRight_eq_div_pow]
  omega

/-- The carry enters at the bit the shift leaves free, so putting it there adds it. -/
theorem shiftRol_r (m : Byte) (c : Bool) : (shiftRol m c).r = BitVec.ofNat 8 (2 * m.toNat + c.toNat) := by
  have disjoint : m <<< 1 &&& carryByte c = 0#8 := by
    ext i hi
    cases c <;> simp +contextual [carryByte]
  have hcarry : carryByte c = BitVec.ofNat 8 c.toNat := by cases c <;> rfl
  rw [BitVec.ofNat_add, ← shiftAsl_r, ← hcarry]
  exact (BitVec.add_eq_or_of_and_eq_zero _ _ disjoint).symm

theorem shiftRor_r (m : Byte) (c : Bool) : (shiftRor m c).r = BitVec.ofNat 8 (m.toNat / 2 + 128 * c.toNat) := by
  have disjoint : m >>> 1 &&& carryByte c <<< 7 = 0#8 := by
    ext i hi
    obtain hlow | rfl : i < 7 ∨ i = 7 := by omega
    · simp [hlow]
    · simp
  have hcarry : carryByte c <<< 7 = BitVec.ofNat 8 (128 * c.toNat) := by cases c <;> rfl
  rw [BitVec.ofNat_add, ← shiftLsr_r, ← hcarry]
  exact (BitVec.add_eq_or_of_and_eq_zero _ _ disjoint).symm

end Sys2Proof.Machine
end

section
/-! The bus events of each instruction (R80), from the events of the operations its meaning calls. -/

namespace Sys2Proof.Machine

variable {s : State} {o : Addr}

/-! ## Stores and modifications whose byte is known -/

theorem storeWith_events {f : Ea → State → Byte} {v : Byte} (byte : f (resolve o s).val (resolve o s).st = v) :
    (storeWith o f s).busLog = s.busLog ++ storeEvents o s v := by
  rw [storeWith_busLog, byte]

theorem modifyWith_events {f : Byte → State → Byte} {g : Byte → State → State} {byte : Byte → Byte}
    (hf : ∀ m, f m (operand (.mem o) s).st = byte m) (hg : ∀ m t, (g m t).busLog = t.busLog) :
    (modifyWith o f g s).busLog = s.busLog ++ modifyEvents o s byte := by
  rw [modifyWith_busLog o f g hg, funext hf]

theorem shiftPlace_events {f : Byte → Bool → ShiftOut} {byte : Byte → Byte} (hf : ∀ m, (f m (getFlag s.p .c)).r = byte m)
    (o : Place) : (shiftPlace f o s).busLog = s.busLog ++ placeEvents o s byte := by
  cases o with
  | acc => exact (List.append_nil _).symm
  | mem o => exact modifyWith_events (fun m => by rw [operand_p, hf]) fun _ _ => rfl

/-- Resolving does not depend on S. -/
theorem resolve_withSp (o : Addr) (s : State) (x : Byte) :
    resolve o { s with sp := x } = ⟨(resolve o s).val, { (resolve o s).st with sp := x }⟩ := by
  cases o <;> simp only [resolve, State.readZeroPagePointer, State.read16, memRead_withSp]

theorem storeEvents_withSp (o : Addr) (s : State) (x v : Byte) : storeEvents o { s with sp := x } v = storeEvents o s v := by
  have hpointer : pointerEvents o { s with sp := x } = pointerEvents o s := by
    cases o
    case izx z | izy z | izp z => exact twoReadEvents_congr _ _ rfl rfl rfl rfl rfl rfl
    all_goals rfl
  rw [storeEvents, hpointer, resolve_withSp]
  rfl

/-! ## Jumps, the stack and BRK -/

theorem pointerHigh_eq (v : Variant) (w : Word) :
    pointerHigh v w = if v = .cmos then w + 1#16 else wordOf (hiByte w) (loByte w + 1#8) := by
  cases v <;> rfl

theorem resolveTarget_busLog (o : Target) (s : State) : (resolveTarget o s).st.busLog = s.busLog ++ targetEvents o s := by
  cases o with
  | abs w => exact (List.append_nil _).symm
  | ind w => rw [targetEvents, ← pointerHigh_eq, resolveTarget, read16_busLog]
  | iax w => exact read16_busLog s _ _

theorem pullP_busLog (s : State) : s.pullP.busLog = s.busLog ++ readEvents s (stackAddr (s.sp + 1#8)) := pull_busLog s

/-- RTI's three pulls (R285). -/
theorem returnFromHandler_busLog (s : State) : s.returnFromHandler.busLog = s.busLog ++
    (readEvents s (stackAddr (s.sp + 1#8)) ++
      twoReadEvents (s.memRead (stackAddr (s.sp + 1#8))).st (stackAddr (s.sp + 2#8)) (stackAddr (s.sp + 3#8))) := by
  have hsp2 : s.sp + 1#8 + 1#8 = s.sp + 2#8 := by rw [BitVec.add_assoc]; rfl
  have hsp3 : s.sp + 1#8 + 2#8 = s.sp + 3#8 := by rw [BitVec.add_assoc]; rfl
  have hpull : s.pullP = { (s.memRead (stackAddr (s.sp + 1#8))).st with
      sp := s.sp + 1#8, p := restoredP (s.memRead (stackAddr (s.sp + 1#8))).val } := by
    rw [State.pullP, State.pull, memRead_withSp]
    rfl
  have hevents (lo hi : Word) : twoReadEvents s.pullP lo hi = twoReadEvents (s.memRead (stackAddr (s.sp + 1#8))).st lo hi := by
    rw [hpull]
    exact twoReadEvents_congr lo hi rfl rfl rfl rfl rfl rfl
  rw [State.returnFromHandler, State.armDeferral_busLog]
  dsimp only
  rw [pullWord_busLog, pullP_busLog, hevents, State.pullP_sp, hsp2, hsp3, List.append_assoc]

theorem softwareInterrupt_busLog (s : State) : s.softwareInterrupt.busLog =
    s.busLog ++ entryEvents { s with pc := s.pc + 1#16 } 0xFFFE#16 (s.p ||| 0x30#8) := by
  rw [State.softwareInterrupt, State.brkClearD_busLog, enterHandler_busLog]
  rfl

/-! ## Every instruction -/

/-- The instruction completes, and its bus events are those of `instrEvents`. -/
def MakesItsEvents (i : Instr) (s : State) : Prop := ∃ t, exec i s = .next t ∧ t.busLog = s.busLog ++ instrEvents i s

theorem MakesItsEvents.of_silent {i : Instr} {t : State} (h : exec i s = .next t) (silent : t.busLog = s.busLog)
    (events : instrEvents i s = []) : MakesItsEvents i s :=
  ⟨t, h, by rw [silent, events, List.append_nil]⟩

theorem MakesItsEvents.of_modify {i : Instr} {f : Byte → State → Byte} {g : Byte → State → State} (byte : Byte → Byte)
    (h : exec i s = .next (modifyWith o f g s)) (events : instrEvents i s = modifyEvents o s byte)
    (hf : ∀ m, f m (operand (.mem o) s).st = byte m) (hg : ∀ m t, (g m t).busLog = t.busLog) : MakesItsEvents i s :=
  ⟨_, h, by rw [modifyWith_events hf hg, events]⟩

theorem MakesItsEvents.of_shift {i : Instr} {f : Byte → Bool → ShiftOut} {o : Place} {byte : Byte → Byte}
    (h : exec i s = .next (shiftPlace f o s)) (events : instrEvents i s = placeEvents o s byte)
    (hf : ∀ m, (f m (getFlag s.p .c)).r = byte m) : MakesItsEvents i s :=
  ⟨_, h, by rw [shiftPlace_events hf, events]⟩

theorem execBit_events (o : Src) (s : State) : MakesItsEvents (.bit o) s := by
  cases o with
  | imm m => exact .of_silent rfl rfl rfl
  | mem o => exact ⟨_, rfl, operandAt_busLog o s⟩

/-- TAS stores A AND X AND HPlus1: the S it has just written (R327). -/
theorem execTas_events (o : Addr) (s : State) : MakesItsEvents (.tas o) s := by
  refine ⟨_, rfl, ?_⟩
  rw [storeWith_busLog, storeEvents_withSp, resolve_withSp, hPlus1_eq_ofNat]
  rfl

theorem execJam_events (op : Byte) (s : State) : MakesItsEvents (.jam op) s := by
  cases hj : s.cfg.jamPolicy with
  | nop => exact .of_silent (t := s) (by simp [exec, execJam, hj]) rfl rfl
  | halt => exact .of_silent (t := { s with halted := true }) (by simp [exec, execJam, hj]) rfl rfl

theorem exec_events (i : Instr) (s : State) : MakesItsEvents i s := by
  cases i with
  -- one read
  | adc o | sbc o | and o | ora o | eor o | lda o | ldx o | ldy o | cmp o | cpx o | cpy o => exact ⟨_, rfl, operand_busLog o s⟩
  | bit o => exact execBit_events o s
  | lax o | las o => exact ⟨_, rfl, operandAt_busLog o s⟩
  | bbr b z rr | bbs b z rr => exact ⟨_, rfl, (State.branch_busLog _ _ _).trans (memRead_busLog s _)⟩
  -- one write
  | sta o => exact ⟨_, rfl, storeWith_events (resolve_a s o)⟩
  | stx o => exact ⟨_, rfl, storeWith_events (resolve_x s o)⟩
  | sty o => exact ⟨_, rfl, storeWith_events (resolve_y s o)⟩
  | stz o => exact ⟨_, rfl, storeWith_events rfl⟩
  | sax o => exact ⟨_, rfl, storeWith_events (by simp)⟩
  | shy o | shx o | sha o => exact ⟨_, rfl, storeWith_events (by simp [hPlus1_eq_ofNat])⟩
  | tas o => exact execTas_events o s
  -- one read and one write
  | inc o | isc o => exact .of_modify (fun m => .ofNat 8 (m.toNat + 1)) rfl rfl add_one_eq_ofNat fun _ _ => rfl
  | dec o | dcp o => exact .of_modify (fun m => .ofNat 8 (m.toNat + 255)) rfl rfl sub_one_eq_ofNat fun _ _ => rfl
  | slo o => exact .of_modify (fun m => .ofNat 8 (2 * m.toNat)) rfl rfl shiftAsl_r fun _ _ => rfl
  | sre o => exact .of_modify (fun m => .ofNat 8 (m.toNat / 2)) rfl rfl shiftLsr_r fun _ _ => rfl
  | rla o =>
    exact .of_modify (fun m => .ofNat 8 (2 * m.toNat + (getFlag s.p .c).toNat)) rfl rfl
      (fun m => by rw [shiftRol_r, operand_p]) fun _ _ => rfl
  | rra o =>
    exact .of_modify (fun m => .ofNat 8 (m.toNat / 2 + 128 * (getFlag s.p .c).toNat)) rfl rfl
      (fun m => by rw [shiftRor_r, operand_p]) fun _ _ => rfl
  | tsb o => exact .of_modify (· ||| s.a) rfl rfl (fun m => by rw [operand_a]) fun _ _ => rfl
  | trb o => exact .of_modify (· &&& ~~~s.a) rfl rfl (fun m => by rw [operand_a]) fun _ _ => rfl
  | rmb b z => exact .of_modify (· &&& ~~~bitMask b) rfl rfl (fun _ => rfl) fun _ _ => rfl
  | smb b z => exact .of_modify (· ||| bitMask b) rfl rfl (fun _ => rfl) fun _ _ => rfl
  | asl o => exact .of_shift rfl rfl shiftAsl_r
  | lsr o => exact .of_shift rfl rfl shiftLsr_r
  | rol o => exact .of_shift rfl rfl (shiftRol_r · _)
  | ror o => exact .of_shift rfl rfl (shiftRor_r · _)
  -- jumps, subroutines, the stack
  | jmp o => exact ⟨_, rfl, resolveTarget_busLog o s⟩
  | jsr w => exact ⟨_, rfl, twoPush_busLog s _ _⟩
  | rts => exact ⟨_, rfl, pullWord_busLog s⟩
  | pha | phx | phy | php => exact ⟨_, rfl, push_busLog s _⟩
  | pla | plx | ply => exact ⟨_, rfl, pull_busLog s⟩
  | plp => exact ⟨_, rfl, (State.armDeferral_busLog _ _).trans (pullP_busLog s)⟩
  | rti => exact ⟨_, rfl, returnFromHandler_busLog s⟩
  | brk => exact ⟨_, rfl, softwareInterrupt_busLog s⟩
  -- no access
  | tax | tay | txa | tya | tsx | txs | inx | iny | dex | dey | ina | dea => exact .of_silent rfl rfl rfl
  | bpl rr | bmi rr | bvc rr | bvs rr | bcc rr | bcs rr | bne rr | beq rr | bra rr =>
    exact .of_silent rfl (State.branch_busLog _ _ _) rfl
  | clc | sec | sei | clv | cld | sed => exact .of_silent rfl rfl rfl
  | cli => exact .of_silent rfl (State.armDeferral_busLog _ _) rfl
  | anc op m => exact .of_silent rfl rfl rfl
  | alr m | arr m | sbx m | ane m | lxa m | usbc m => exact .of_silent rfl rfl rfl
  | nop op o | undef op o => exact .of_silent rfl rfl rfl
  | jam op => exact execJam_events op s

/-- Settles O41: the events of every instruction, and what an operand reads, true by the definition of `operand`. -/
theorem instructionsMakeExactlyTheirAccesses : Obligations.InstructionsMakeExactlyTheirAccesses :=
  ⟨fun s i => exec_events i s, fun _ _ _ => ⟨rfl, rfl, rfl⟩⟩

end Sys2Proof.Machine
end

section
/-! Byte strings and the decoder: how much of a string an instruction takes, and what the opcode table makes of it (R111,
R114). -/

namespace Sys2Proof

variable {v : Variant}

/-- The instruction the decoder makes of an opcode and its operand bytes; those its length leaves out have no effect (R114). -/
def decodeFrom (v : Variant) (op : Byte) (bs : List Byte) : Instr := decodeAt v op (bs.getD 0 0#8) (bs.getD 1 0#8)

theorem one_le_lengthOf (v : Variant) (op : Byte) : 1 ≤ lengthOf v op := by
  obtain h | h | h := Machine.lengthOf_cases v op <;> omega

theorem lengthOf_le_three (v : Variant) (op : Byte) : lengthOf v op ≤ 3 := by
  obtain h | h | h := Machine.lengthOf_cases v op <;> omega

/-- An opcode with as many operand bytes as its length asks for decodes, whatever follows. -/
theorem decode_cons_append {op : Byte} {bs : List Byte} (h : bs.length + 1 = lengthOf v op) (rest : List Byte) :
    decode v (op :: (bs ++ rest)) = .ok (decodeFrom v op bs, rest) := by
  have hle := lengthOf_le_three v op
  match bs with
  | [] | [_] | [_, _] => simp [decode, ← h, decodeFrom]
  | _ :: _ :: _ :: _ => simp only [List.length_cons] at h; omega

/-- Only such a string decodes. -/
theorem exists_of_decode_eq_ok {bs rest : List Byte} {i : Instr} (h : decode v bs = .ok (i, rest)) :
    ∃ op ops, bs = op :: (ops ++ rest) ∧ ops.length + 1 = lengthOf v op ∧ i = decodeFrom v op ops := by
  cases bs with
  | nil => cases h
  | cons op tail =>
    simp only [decode] at h
    split at h
    case h_1 hlen => cases h; exact ⟨op, [], rfl, hlen.symm, rfl⟩
    case h_2 b1 _ hlen => cases h; exact ⟨op, [b1], rfl, hlen.symm, rfl⟩
    case h_3 b1 b2 _ hlen => cases h; exact ⟨op, [b1, b2], rfl, hlen.symm, rfl⟩
    case h_4 => cases h

/-- An opcode decodes exactly when its operand bytes are there. -/
theorem decode_cons_iff (op : Byte) (rest : List Byte) :
    (∃ i, decode v (op :: rest) = .ok (i, rest.drop (lengthOf v op - 1))) ↔ lengthOf v op ≤ rest.length + 1 := by
  constructor
  · rintro ⟨i, h⟩
    obtain ⟨op', ops, hbs, hlen, -⟩ := exists_of_decode_eq_ok h
    obtain ⟨rfl, hrest⟩ := List.cons.inj hbs
    have := congrArg List.length hrest
    rw [List.length_append] at this
    omega
  · intro h
    have htake : (rest.take (lengthOf v op - 1)).length + 1 = lengthOf v op := by
      have := one_le_lengthOf v op
      rw [List.length_take]
      omega
    have hdec := decode_cons_append htake (rest.drop (lengthOf v op - 1))
    rw [List.take_append_drop] at hdec
    exact ⟨_, hdec⟩

/-- Assembling a memory operand's bytes gives it back (R110, R112). -/
theorem operand_bytes (o : Addr) : o.mode.operand (o.bytes.getD 0 0#8) (o.bytes.getD 1 0#8) = o := by
  cases o with
  | zp z | zpx z | zpy z | izx z | izy z | izp z => rfl
  | abs w | abx w | aby w => exact congrArg _ (wordOf_hiByte_loByte w)

end Sys2Proof
end

section
/-! An instruction has an opcode exactly where it is well-formed: the modes of each "Encoding" line are the modes of
`WellFormed`. -/

namespace Sys2Proof

variable {v : Variant}

theorem isSome_onCmos (c : Option Byte) : (onCmos v c).isSome = (v.isCmos && c.isSome) := by cases v <;> rfl

theorem isSome_onNmos (c : Option Byte) : (onNmos v c).isSome = (!v.isCmos && c.isSome) := by cases v <;> rfl

theorem isSome_slotCode (slots : List Byte) (op : Byte) :
    (if slots.contains op then some op else none).isSome = slots.contains op := by
  cases slots.contains op <;> rfl

/-- ANC's two opcodes, as slots that keep their opcode byte. -/
theorem opcodeOf_anc (op m : Byte) : opcodeOf v (.anc op m) =
    onNmos v (if [0x0B#8, 0x2B#8].contains op then some op else none) := by
  simp [opcodeOf]

theorem map_fst_append_moreOnCmos (t more : List (AddrMode × Byte)) :
    (t ++ moreOnCmos v more).map Prod.fst = t.map Prod.fst ++ if v.isCmos then more.map Prod.fst else [] := by
  cases v <;> simp [moreOnCmos, Variant.isCmos]

theorem isSome_codeIn (t : List (AddrMode × Byte)) (o : Addr) : (codeIn t o).isSome = o.isIn (t.map Prod.fst) := by
  rw [Bool.eq_iff_iff, codeIn, Addr.isIn, List.lookup_isSome_iff, List.contains_iff_mem, List.mem_map]
  exact exists_congr fun c => and_congr_right fun _ => beq_iff_eq.trans eq_comm

theorem isSome_srcCode (i : Byte) (t : List (AddrMode × Byte)) (o : Src) : (srcCode i t o).isSome = o.isIn (t.map Prod.fst) := by
  cases o with
  | imm b => rfl
  | mem o => exact isSome_codeIn t o

/-- An instruction has an opcode on exactly the variants and in the forms it exists in. -/
theorem isSome_opcodeOf (v : Variant) (i : Instr) : (opcodeOf v i).isSome = WellFormed v i := by
  cases i with
  -- a table of modes, longer on CMOS
  | adc o | sbc o | and o | ora o | eor o | lda o | cmp o =>
    exact (isSome_srcCode _ _ o).trans (congrArg o.isIn (map_fst_append_moreOnCmos _ _))
  | sta o => exact (isSome_codeIn _ o).trans (congrArg o.isIn (map_fst_append_moreOnCmos _ _))
  | bit o =>
    cases o with
    | imm b => exact (isSome_onCmos _).trans (Bool.and_true _)
    | mem o => exact (isSome_codeIn _ o).trans (congrArg o.isIn (map_fst_append_moreOnCmos _ _))
  -- a table of modes, the same on every variant that has the instruction
  | ldx o | ldy o | cpx o | cpy o => exact isSome_srcCode _ _ o
  | stx o | sty o | inc o | dec o => exact isSome_codeIn _ o
  | asl o | lsr o | rol o | ror o =>
    cases o with
    | acc => rfl
    | mem o => exact isSome_codeIn _ o
  | slo o | rla o | sre o | rra o | dcp o | isc o | sax o | lax o | las o | tas o | shy o | shx o | sha o =>
    exact (isSome_onNmos _).trans (congrArg _ (isSome_codeIn _ o))
  | tsb o | trb o | stz o => exact (isSome_onCmos _).trans (congrArg _ (isSome_codeIn _ o))
  -- one opcode
  | tax | tay | txa | tya | tsx | txs | inx | iny | dex | dey => rfl
  | bpl rr | bmi rr | bvc rr | bvs rr | bcc rr | bcs rr | bne rr | beq rr => rfl
  | jsr w | rts | pha | php | pla | plp | rti | brk | clc | sec | cli | sei | clv | cld | sed => rfl
  | jmp o =>
    cases o with
    | abs w | ind w => rfl
    | iax w => exact (isSome_onCmos _).trans (Bool.and_true _)
  | alr m | arr m | sbx m | ane m | lxa m | usbc m => exact (isSome_onNmos _).trans (Bool.and_true _)
  | bra rr | phx | plx | phy | ply | ina | dea => exact (isSome_onCmos _).trans (Bool.and_true _)
  | rmb b z | smb b z | bbr b z rr | bbs b z rr => exact (isSome_onCmos _).trans (Bool.and_true _)
  -- a slot that keeps its opcode byte
  | anc op m => rw [opcodeOf_anc]; exact (isSome_onNmos _).trans (congrArg _ (isSome_slotCode _ op))
  | nop op o => exact isSome_slotCode _ op
  | jam op => exact (isSome_onNmos _).trans (congrArg _ (isSome_slotCode _ op))
  | undef op o => exact (isSome_onCmos _).trans (congrArg _ (isSome_slotCode _ op))

end Sys2Proof
end

section
/-! The encoder against the opcode maps, in the direction of the encoder: at the opcode of each "Encoding" line, the map of R115
or R116 has the entry that gives the instruction back. -/

namespace Sys2Proof

open Laws

/-- The opcode table makes the instruction `i` of the opcode, where there is one, and the operand bytes `bs`. -/
def DecodesTo (v : Variant) (code : Option Byte) (bs : List Byte) (i : Instr) : Prop :=
  ∀ op, code = some op → decodeFrom v op bs = i

namespace DecodesTo

variable {v : Variant}

theorem of_one {c : Byte} {bs : List Byte} {i : Instr} (h : decodeFrom v c bs = i) : DecodesTo v (some c) bs i := by
  rintro op ⟨⟩
  exact h

theorem of_word {c : Byte} {f : Word → Instr} (h : decodeAt v c = fun b1 b2 => f (wordOf b2 b1)) (w : Word) :
    DecodesTo v (some c) (wordBytes w) (f w) :=
  of_one <| calc
    decodeFrom v c (wordBytes w) = f (wordOf (hiByte w) (loByte w)) := congrFun (congrFun h _) _
    _ = f w := congrArg f (wordOf_hiByte_loByte w)

/-! The NMOS family shares one map (R114). -/

theorem of_onNmos {code : Option Byte} {bs : List Byte} {i : Instr} (h : DecodesTo .nmos code bs i) :
    DecodesTo v (onNmos v code) bs i := by
  cases v with
  | nmos | nes2A03 | m6510 => exact h
  | cmos => rintro op ⟨⟩

theorem of_onCmos {code : Option Byte} {bs : List Byte} {i : Instr} (h : DecodesTo .cmos code bs i) :
    DecodesTo v (onCmos v code) bs i := by
  cases v with
  | cmos => exact h
  | nmos | nes2A03 | m6510 => rintro op ⟨⟩

/-! A table of modes agrees with the map where the map has the instruction's entry at each of its opcodes. -/

theorem of_table {t : List (AddrMode × Byte)} {entry : AddrMode → Slot} {o : Addr} {i : Instr}
    (table : t.map (fun c => slotOf v c.2) = t.map (fun c => entry c.1))
    (build : ∀ op, (entry o.mode).build op (o.bytes.getD 0 0#8) (o.bytes.getD 1 0#8) = i) :
    DecodesTo v (codeIn t o) o.bytes i := by
  intro op hop
  have hmem : (o.mode, op) ∈ t := by
    obtain ⟨l₁, l₂, rfl, -⟩ := List.lookup_eq_some_iff.mp hop
    exact List.mem_append_cons_self
  have hslot : slotOf v op = entry o.mode := List.map_inj_left.mp table _ hmem
  rw [decodeFrom, decodeAt, hslot]
  exact build op

theorem of_codeIn {t : List (AddrMode × Byte)} {f : Addr → Instr}
    (table : t.map (fun c => slotOf v c.2) = t.map (fun c => Entry.mem f c.1)) (o : Addr) :
    DecodesTo v (codeIn t o) o.bytes (f o) :=
  of_table table fun _ => congrArg f (operand_bytes o)

theorem of_srcMem {t : List (AddrMode × Byte)} {f : Src → Instr}
    (table : t.map (fun c => slotOf v c.2) = t.map (fun c => Entry.src f c.1)) (o : Addr) :
    DecodesTo v (codeIn t o) o.bytes (f (.mem o)) :=
  of_table table fun _ => congrArg (f <| .mem ·) (operand_bytes o)

theorem of_srcCode {c : Byte} {t : List (AddrMode × Byte)} {f : Src → Instr} (imm : slotOf v c = Entry.srcImm f)
    (table : t.map (fun c => slotOf v c.2) = t.map (fun c => Entry.src f c.1)) (o : Src) :
    DecodesTo v (srcCode c t o) o.bytes (f o) := by
  cases o with
  | imm b => exact of_one (congrArg (fun s : Slot => s.build c b 0#8) imm)
  | mem o => exact of_srcMem table o

theorem of_placeCode {c : Byte} {t : List (AddrMode × Byte)} {f : Place → Instr} (acc : slotOf v c = Entry.acc (f .acc))
    (table : t.map (fun c => slotOf v c.2) = t.map (fun c => Entry.place f c.1)) (o : Place) :
    DecodesTo v (placeCode c t o) o.bytes (f o) := by
  cases o with
  | acc => exact of_one (congrArg (fun s : Slot => s.build c 0#8 0#8) acc)
  | mem o => exact of_table table fun _ => congrArg (f <| .mem ·) (operand_bytes o)

/-! An instruction that keeps its opcode byte agrees with the map where the map has one entry at all of its slots. -/

theorem of_slots {slots : List Byte} {entry : Slot} {op : Byte} {bs : List Byte} {i : Instr}
    (table : slots.map (slotOf v) = slots.map (fun _ => entry))
    (build : entry.build op (bs.getD 0 0#8) (bs.getD 1 0#8) = i) :
    DecodesTo v (if slots.contains op then some op else none) bs i := by
  intro op' hop
  split at hop
  case isTrue hmem =>
    cases hop
    have hslot : slotOf v op = entry := List.map_inj_left.mp table op (List.contains_iff_mem.mp hmem)
    rw [decodeFrom, decodeAt, hslot]
    exact build
  case isFalse => cases hop

/-- The entry of a NOP or UNDEF slot with the given operand bytes. -/
def padEntry (f : Byte → Pad → Instr) : Pad → Slot
  | .imp => Entry.padImp f
  | .imm _ => Entry.padImm f
  | .mem o => Entry.pad f o.mode

theorem of_padSlots {slots : List Byte} {f : Byte → Pad → Instr} {o : Pad} {op : Byte}
    (table : slots.map (slotOf v) = slots.map (fun _ => padEntry f o)) :
    DecodesTo v (if slots.contains op then some op else none) o.bytes (f op o) :=
  of_slots table <| by
    cases o with
    | imp | imm b => rfl
    | mem o => exact congrArg (f op <| .mem ·) (operand_bytes o)

end DecodesTo

/-- The map has NOP's entry at each of its slots (R370, R371). -/
theorem nopSlots_table (v : Variant) (o : Pad) :
    (nopSlots v o).map (slotOf v) = (nopSlots v o).map (fun _ => DecodesTo.padEntry .nop o) := by
  cases o with
  | imp | imm b => cases v <;> rfl
  | mem o => cases v <;> cases o <;> rfl

/-- The CMOS map has an entry without instruction at each slot of R373. -/
theorem undefSlots_table (o : Pad) :
    (undefSlots o).map (slotOf .cmos) = (undefSlots o).map (fun _ => DecodesTo.padEntry .undef o) := by
  cases o with
  | imp | imm b => rfl
  | mem o => cases o <;> rfl

/-- The opcode table makes every instruction of its own opcode and operand bytes. -/
theorem decodesTo_self (v : Variant) (i : Instr) : DecodesTo v (opcodeOf v i) (operandBytes i) i := by
  cases i with
  -- a table of modes
  | adc o | sbc o | and o | ora o | eor o | lda o | cmp o =>
    exact .of_srcCode (by cases v <;> rfl) (by cases v <;> rfl) o
  | ldx o | ldy o | cpx o | cpy o => exact .of_srcCode (by cases v <;> rfl) (by cases v <;> rfl) o
  | bit o =>
    cases o with
    | imm b => exact .of_onCmos (.of_one rfl)
    | mem o => exact .of_srcMem (f := .bit) (by cases v <;> rfl) o
  | sta o | stx o | sty o | inc o | dec o => exact .of_codeIn (by cases v <;> rfl) o
  | asl o | lsr o | rol o | ror o => exact .of_placeCode (by cases v <;> rfl) (by cases v <;> rfl) o
  | slo o | rla o | sre o | rra o | dcp o | isc o | sax o | lax o | las o | tas o | shy o | shx o | sha o =>
    exact .of_onNmos (.of_codeIn rfl o)
  | tsb o | trb o | stz o => exact .of_onCmos (.of_codeIn rfl o)
  -- one opcode
  | tax | tay | txa | tya | tsx | txs | inx | iny | dex | dey => exact .of_one (by cases v <;> rfl)
  | rts | pha | php | pla | plp | rti | brk | clc | sec | cli | sei | clv | cld | sed => exact .of_one (by cases v <;> rfl)
  | bpl rr | bmi rr | bvc rr | bvs rr | bcc rr | bcs rr | bne rr | beq rr => exact .of_one (by cases v <;> rfl)
  | alr m | arr m | sbx m | ane m | lxa m | usbc m => exact .of_onNmos (.of_one rfl)
  | bra rr | phx | plx | phy | ply | ina | dea => exact .of_onCmos (.of_one rfl)
  -- a word operand
  | jsr w => exact .of_word (f := .jsr) (by cases v <;> rfl) w
  | jmp o =>
    cases o with
    | abs w => exact .of_word (f := (.jmp <| .abs ·)) (by cases v <;> rfl) w
    | ind w => exact .of_word (f := (.jmp <| .ind ·)) (by cases v <;> rfl) w
    | iax w => exact .of_onCmos (.of_word (f := (.jmp <| .iax ·)) rfl w)
  -- an opcode for each bit number
  | rmb b z | smb b z | bbr b z rr | bbs b z rr => exact .of_onCmos (.of_one (by fin_cases b <;> rfl))
  -- a slot that keeps its opcode byte
  | anc op m => rw [opcodeOf_anc]; exact .of_onNmos (.of_slots (entry := Entry.anc) rfl rfl)
  | nop op o => exact .of_padSlots (nopSlots_table v o)
  | jam op => exact .of_onNmos (.of_slots (entry := Entry.jam) rfl rfl)
  | undef op o => exact .of_onCmos (.of_padSlots (undefSlots_table o))

/-- On every variant that has the instruction, its operand bytes are as many as the decoder takes for its opcode: a lemma of
Laws/PerInstr.lean for each constructor. -/
theorem operandBytes_length (i : Instr) : Length.Statement i := by
  cases i <;> simp only [
    Length.adc, Length.sbc, Length.and, Length.ora, Length.eor, Length.lda, Length.ldx, Length.ldy, Length.sta,
    Length.stx, Length.sty, Length.tax, Length.tay, Length.txa, Length.tya, Length.tsx, Length.txs, Length.inc,
    Length.dec, Length.inx, Length.iny, Length.dex, Length.dey, Length.asl, Length.lsr, Length.rol, Length.ror,
    Length.cmp, Length.cpx, Length.cpy, Length.bit, Length.bpl, Length.bmi, Length.bvc, Length.bvs, Length.bcc,
    Length.bcs, Length.bne, Length.beq, Length.jmp, Length.jsr, Length.rts, Length.pha, Length.php, Length.pla,
    Length.plp, Length.rti, Length.brk, Length.clc, Length.sec, Length.cli, Length.sei, Length.clv, Length.cld,
    Length.sed, Length.slo, Length.rla, Length.sre, Length.rra, Length.sax, Length.lax, Length.dcp, Length.isc,
    Length.anc, Length.alr, Length.arr, Length.sbx, Length.ane, Length.lxa, Length.las, Length.tas, Length.shy,
    Length.shx, Length.sha, Length.usbc, Length.tsb, Length.trb, Length.stz, Length.bra, Length.phx, Length.plx,
    Length.phy, Length.ply, Length.rmb, Length.smb, Length.bbr, Length.bbs, Length.ina, Length.dea, Length.nop,
    Length.jam, Length.undef]

end Sys2Proof
end

section
/-! The encoder against the opcode maps, in the direction of the maps: the encoding of each map's entry is its opcode and its
operand bytes. -/

namespace Sys2Proof

/-- The operand bytes of an instruction of the mode, made of `b1` and `b2` (R110, R112). -/
def Mode.operandBytes (b1 b2 : Byte) : Mode → List Byte
  | .imp | .acc => []
  | .imm | .zp | .zpx | .zpy | .izx | .izy | .rel | .izp => [b1]
  | .abs | .abx | .aby | .ind | .iax => wordBytes (wordOf b2 b1)
  | .zpr => [b1, b2]

theorem Mode.operandBytes_eq_take (b1 b2 : Byte) (m : Mode) : m.operandBytes b1 b2 = [b1, b2].take (m.length - 1) := by
  cases m with
  | abs | abx | aby | ind | iax => simp [Mode.operandBytes, wordBytes, Mode.length]
  | imp | acc | imm | zp | zpx | zpy | izx | izy | rel | izp | zpr => rfl

/-- The opcode at a row and a column of the maps. -/
def opcodeAt (row col : Fin 16) : Byte := BitVec.ofNat 8 (16 * row + col)

theorem exists_opcodeAt_eq (op : Byte) : ∃ row col, opcodeAt row col = op := by
  refine ⟨⟨op.toNat / 16, by omega⟩, ⟨op.toNat % 16, by omega⟩, BitVec.eq_of_toNat_eq ?_⟩
  simp only [opcodeAt, BitVec.toNat_ofNat]
  omega

/-- Every entry of a row of the maps, encoded. -/
theorem encode_decodeAt_row (v : Variant) (b1 b2 : Byte) (row : Fin 16) :
    (List.finRange 16).map (fun col => encode v (decodeAt v (opcodeAt row col) b1 b2)) = (List.finRange 16).map (fun col =>
      some (opcodeAt row col :: (modeOf v (opcodeAt row col)).operandBytes b1 b2)) := by
  cases v <;> fin_cases row <;> rfl

theorem encode_decodeAt (v : Variant) (op b1 b2 : Byte) :
    encode v (decodeAt v op b1 b2) = some (op :: [b1, b2].take (lengthOf v op - 1)) := by
  rw [lengthOf, ← Mode.operandBytes_eq_take]
  obtain ⟨row, col, rfl⟩ := exists_opcodeAt_eq op
  exact List.map_inj_left.mp (encode_decodeAt_row v b1 b2 row) col (List.mem_finRange col)

theorem take_getD_of_length_le_two {bs : List Byte} (h : bs.length ≤ 2) :
    [bs.getD 0 0#8, bs.getD 1 0#8].take bs.length = bs := by
  match bs with
  | [] | [_] | [_, _] => rfl
  | _ :: _ :: _ :: _ => simp only [List.length_cons] at h; omega

/-- Encoding what the decoder makes of an opcode and as many operand bytes as it takes gives these bytes. -/
theorem encode_decodeFrom {v : Variant} {op : Byte} {bs : List Byte} (h : bs.length + 1 = lengthOf v op) :
    encode v (decodeFrom v op bs) = some (op :: bs) := by
  have hle := lengthOf_le_three v op
  rw [decodeFrom, encode_decodeAt, ← h, Nat.add_sub_cancel, take_getD_of_length_le_two (by omega)]

end Sys2Proof
end

section
/-! The statements about encoding. -/

namespace Sys2Proof

theorem isSome_encode (v : Variant) (i : Instr) : (encode v i).isSome = WellFormed v i := by
  rw [encode, Option.isSome_map, isSome_opcodeOf]

/-- Settles O1: the opcode table has the instruction at its opcode, and the operand bytes are as many as its length asks for. -/
theorem decodeOfEncodeIsTheInstruction : Obligations.DecodeOfEncodeIsTheInstruction := by
  intro v i hwf
  rw [← isSome_opcodeOf] at hwf
  obtain ⟨op, hop⟩ := Option.isSome_iff_exists.mp hwf
  refine ⟨op :: operandBytes i, by simp [encode, hop], fun rest => ?_⟩
  rw [List.cons_append, decode_cons_append (operandBytes_length i v op hop), decodesTo_self v i op hop]

/-- Settles O2: every entry of the opcode maps encodes to its opcode and operand bytes, and only a well-formed instruction has
an encoding. -/
theorem encodeOfDecodeIsTheBytes : Obligations.EncodeOfDecodeIsTheBytes := by
  constructor
  · intro v bs rest i h
    obtain ⟨op, ops, rfl, hlen, rfl⟩ := exists_of_decode_eq_ok h
    have henc := encode_decodeFrom hlen
    exact ⟨by rw [← isSome_encode, henc]; rfl, _, henc, rfl⟩
  · intro v i hwf
    rw [← isSome_encode] at hwf
    exact Option.isSome_eq_false_iff.mp hwf |> Option.isNone_iff_eq_none.mp

/-- Settles O3: a length is 1, 2 or 3, and an opcode decodes when its operand bytes are there. -/
theorem everyOpcodeDecodes : Obligations.EveryOpcodeDecodes := by
  intro v op rest
  exact ⟨one_le_lengthOf v op, lengthOf_le_three v op, decode_cons_iff op rest⟩

/-- Settles O4: each word, by running the decoder. -/
theorem specWordsDecode : Obligations.SpecWordsDecode := ⟨rfl, rfl, rfl, rfl, rfl, rfl⟩

end Sys2Proof
end

section
/-! The effective addresses of the addressing modes, as numbers (R154 to R167). -/

namespace Sys2Proof.Machine

variable {s t : State}

/-! ## Sums of addresses and indexes -/

/-- Two words have the same high byte when they are on the same page (R167). -/
theorem hiByte_eq_iff (u w : Word) : hiByte u = hiByte w ↔ u.toNat / 256 = w.toNat / 256 := by
  rw [← BitVec.toNat_inj, hiByte_toNat, hiByte_toNat]

/-- Indexing in the zero page wraps (R155, R156). -/
theorem zext16_add_toNat (z index : Byte) : (zext16 (z + index)).toNat = (z.toNat + index.toNat) % 256 := by
  rw [zext16_toNat, BitVec.toNat_add]

/-- Indexing over the 16-bit address space wraps (R158, R159, R162, R165). -/
theorem add_zext16_toNat (w : Word) (index : Byte) : (w + zext16 index).toNat = (w.toNat + index.toNat) % 65536 := by
  rw [BitVec.toNat_add, zext16_toNat]

/-- Indexing crosses a page exactly when it changes the page number (R167). -/
theorem indexed_crossed_iff (base : Word) (index : Byte) :
    (Ea.indexed base index).crossed = true ↔ (base.toNat + index.toNat) % 65536 / 256 ≠ base.toNat / 256 := by
  rw [← add_zext16_toNat, Ne, ← hiByte_eq_iff]
  exact decide_eq_true_iff

/-- Settles O10: an indexed address is a sum modulo 256 in the zero page and modulo 65536 elsewhere, where it may cross. -/
theorem directModesComputeTheirAddress : Obligations.DirectModesComputeTheirAddress := by
  intro s z w
  refine ⟨zext16_toNat z, zext16_add_toNat z s.x, zext16_add_toNat z s.y, rfl, add_zext16_toNat w s.x,
    add_zext16_toNat w s.y, rfl, rfl, indexed_crossed_iff w s.x, indexed_crossed_iff w s.y, ?noReads, ?neverCross⟩
  case noReads => rintro o (rfl | rfl | rfl | rfl | rfl | rfl) <;> rfl
  case neverCross => rintro o (rfl | rfl | rfl | rfl | rfl | rfl) <;> rfl

/-! ## Pointers -/

theorem indexed_wordOf_ea_toNat (h l index : Byte) :
    (Ea.indexed (wordOf h l) index).ea.toNat = (h.toNat * 256 + l.toNat + index.toNat) % 65536 := by
  rw [← wordOf_toNat]
  exact add_zext16_toNat _ index

/-- The page number of an assembled address is its high byte (R162, R167). -/
theorem indexed_wordOf_crossed_iff (h l index : Byte) : (Ea.indexed (wordOf h l) index).crossed = true ↔
    (h.toNat * 256 + l.toNat + index.toNat) % 65536 / 256 ≠ h.toNat := by
  rw [indexed_crossed_iff, ← hiByte_toNat (wordOf h l), hiByte_wordOf, wordOf_toNat]

/-- Settles O11: each mode reads the word at its zero-page pointer, low byte first, and (zp),Y indexes it. -/
theorem indirectModesFollowThePointer : Obligations.IndirectModesFollowThePointer := by
  intro s z
  constructor
  · rintro p o (⟨rfl, rfl⟩ | ⟨rfl, rfl⟩) <;> exact ⟨_, _, rfl, rfl, wordOf_toNat _ _, rfl⟩
  · exact ⟨_, _, rfl, rfl, wordOf_toNat _ _, indexed_wordOf_ea_toNat _ _ s.y, indexed_wordOf_crossed_iff _ _ s.y, rfl⟩

/-! ## JMP -/

/-- On CMOS the high byte of JMP's pointer is at the next address (R160). -/
theorem pointerHigh_toNat_of_cmos {v : Variant} (hv : v = .cmos) (w : Word) :
    (pointerHigh v w).toNat = (w.toNat + 1) % 65536 := by
  rw [pointerHigh_eq, if_pos hv, BitVec.toNat_add]
  rfl

/-- Elsewhere it is within the page of the pointer's low byte (R160). -/
theorem pointerHigh_toNat_of_ne_cmos {v : Variant} (hv : v ≠ .cmos) (w : Word) :
    (pointerHigh v w).toNat = w.toNat / 256 * 256 + (w.toNat + 1) % 256 := by
  rw [pointerHigh_eq, if_neg hv, wordOf_toNat, hiByte_toNat, BitVec.toNat_add, loByte_toNat]
  exact congrArg _ (Nat.mod_add_mod _ _ _)

theorem setPc_sameButReads (h : sameButReads s t) (w : Word) : sameButReads (s.setPc w) (t.setPc w) := by
  unfold sameButReads State.setPc at *
  rw [h]

theorem exec_jmp (o : Target) (s : State) :
    exec (.jmp o) s = .next ((resolveTarget o s).st.setPc (resolveTarget o s).val) := rfl

/-- JMP through a pointer loads PC with the word read there, low byte first, and changes nothing else (R269). -/
theorem exec_jmp_of_read16 {o : Target} {lo hi : Word} (pointer : resolveTarget o s = s.read16 lo hi) :
    ∃ (l h : Got Byte) (t : State), l = s.memRead lo ∧ h = l.st.memRead hi ∧ exec (.jmp o) s = .next t ∧
      t.pc.toNat = h.val.toNat * 256 + l.val.toNat ∧ sameButReads { s with pc := t.pc } t := by
  rw [exec_jmp, pointer]
  exact ⟨_, _, _, rfl, rfl, rfl, wordOf_toNat _ _, setPc_sameButReads (read16_sameButReads s lo hi) _⟩

/-- Settles O12: the numbers name the addresses the resolver reads its pointer at. -/
theorem jmpGoesToItsTarget : Obligations.JmpGoesToItsTarget := by
  intro s w
  refine ⟨rfl, ?_⟩
  rintro o lo hi (⟨rfl, rfl, hnmos, hcmos⟩ | ⟨rfl, hlo, hhi⟩)
  · have hhigh : hi = pointerHigh s.cfg.variant lo := by
      apply BitVec.eq_of_toNat_eq
      by_cases hv : s.cfg.variant = .cmos
      · rw [hcmos hv, pointerHigh_toNat_of_cmos hv]
      · rw [hnmos hv, pointerHigh_toNat_of_ne_cmos hv]
    exact exec_jmp_of_read16 (congrArg (s.read16 lo) hhigh.symm)
  · have hlow : lo = w + zext16 s.x := BitVec.eq_of_toNat_eq (hlo.trans (add_zext16_toNat w s.x).symm)
    have hnext : hi = lo + 1#16 := BitVec.eq_of_toNat_eq (hhi.trans (BitVec.toNat_add lo 1#16).symm)
    subst hlow hnext
    exact exec_jmp_of_read16 rfl

end Sys2Proof.Machine
end

section
/-! The binary adders as exact arithmetic (R192, R193). -/

namespace Sys2Proof.Machine

/-! ## Bytes as numbers -/

theorem getLsbD_seven_eq_decide (x : Byte) : x.getLsbD 7 = decide (x.toNat ≥ 128) := by
  rw [← msb_eq_getLsbD_seven, BitVec.msb_eq_decide]

theorem beq_zero_eq_decide (x : Byte) : (x == 0#8) = decide (x.toNat = 0) := by
  rw [Bool.beq_eq_decide_eq]
  exact decide_eq_decide.mpr BitVec.toNat_inj.symm

theorem ofInt_toNat (i : Int) : ((BitVec.ofInt 8 i).toNat : Int) = i % 256 := by
  rw [BitVec.toNat_ofInt]
  exact Int.toNat_of_nonneg (Int.emod_nonneg i (by decide))

/-- The complement of a signed byte, without the wrap of `BitVec.toInt_not`: it never leaves the range. -/
theorem not_toInt (m : Byte) : (~~~m).toInt = -1 - m.toInt := by
  rw [BitVec.toInt_eq_toNat_cond, BitVec.toInt_eq_toNat_cond, BitVec.toNat_not]
  omega

/-! ## The overflow flag -/

/-- Two summands of one sign whose sum modulo 256 has the other sign: their signed sum is no signed byte (R192). -/
theorem overflow_eq_decide {a m r : Byte} {c : Bool} (hr : r.toNat = (a.toNat + m.toNat + c.toNat) % 256) :
    (~~~(a ^^^ m) &&& (a ^^^ r)).getLsbD 7 =
      decide (a.toInt + m.toInt + c.toNat < -128 ∨ a.toInt + m.toInt + c.toNat > 127) := by
  have hbit : (~~~(a ^^^ m) &&& (a ^^^ r)).getLsbD 7 = (!(a.getLsbD 7 ^^ m.getLsbD 7) && (a.getLsbD 7 ^^ r.getLsbD 7)) := by
    simp
  have hc := c.toNat_le
  rw [hbit, Bool.eq_iff_iff, getLsbD_seven_eq_decide a, getLsbD_seven_eq_decide m, getLsbD_seven_eq_decide r,
    BitVec.toInt_eq_toNat_cond a, BitVec.toInt_eq_toNat_cond m, decide_eq_true_iff]
  by_cases ha : a.toNat ≥ 128 <;> by_cases hm : m.toNat ≥ 128 <;> simp [ha, hm] <;> omega

/-! ## The outputs -/

theorem addBinary_r_toNat (a m : Byte) (c : Bool) : (addBinary a m c).r.toNat = (a.toNat + m.toNat + c.toNat) % 256 :=
  BitVec.toNat_ofNat _ 8

theorem subBinary_r_toNat (a m : Byte) (c : Bool) :
    ((subBinary a m c).r.toNat : Int) = ((a.toNat : Int) - m.toNat - (1 - c.toNat)) % 256 := ofInt_toNat _

theorem addBinary_v_eq_bit (a m : Byte) (c : Bool) :
    (addBinary a m c).v = (~~~(a ^^^ m) &&& (a ^^^ (addBinary a m c).r)).getLsbD 7 := msb_eq_getLsbD_seven _

theorem subBinary_v_eq_bit (a m : Byte) (c : Bool) :
    (subBinary a m c).v = ((a ^^^ m) &&& (a ^^^ (subBinary a m c).r)).getLsbD 7 := msb_eq_getLsbD_seven _

theorem addBinary_v_eq_decide (a m : Byte) (c : Bool) : (addBinary a m c).v =
    decide (a.toInt + m.toInt + c.toNat < -128 ∨ a.toInt + m.toInt + c.toNat > 127) := by
  rw [addBinary_v_eq_bit, overflow_eq_decide (addBinary_r_toNat a m c)]

/-- Subtracting is adding the complement (R193). -/
theorem subBinary_eq_addBinary_not (a m : Byte) (c : Bool) : subBinary a m c = addBinary a (~~~m) c := by
  have hr : (subBinary a m c).r = (addBinary a (~~~m) c).r := by
    apply BitVec.eq_of_toNat_eq
    zify
    rw [subBinary_r_toNat, addBinary_r_toNat, BitVec.toNat_not]
    omega
  have hc : (subBinary a m c).c = (addBinary a (~~~m) c).c := by
    refine decide_eq_decide.mpr ?_
    rw [BitVec.toNat_not]
    omega
  have hv : (subBinary a m c).v = (addBinary a (~~~m) c).v := by
    rw [subBinary_v_eq_bit, addBinary_v_eq_bit, hr, ← BitVec.not_xor_right, BitVec.not_not]
  calc subBinary a m c
    _ = { r := (subBinary a m c).r, n := (subBinary a m c).r.msb, v := (subBinary a m c).v,
          z := (subBinary a m c).r == 0#8, c := (subBinary a m c).c } := rfl
    _ = addBinary a (~~~m) c := by
      rw [hr, hv, hc]
      rfl

theorem subBinary_v_eq_decide (a m : Byte) (c : Bool) : (subBinary a m c).v =
    decide (a.toInt - m.toInt - (1 - c.toNat) < -128 ∨ a.toInt - m.toInt - (1 - c.toNat) > 127) := by
  rw [subBinary_eq_addBinary_not, addBinary_v_eq_decide, not_toInt]
  exact decide_eq_decide.mpr (by omega)

/-- Settles O13: the outputs are exact sums by definition, but for V, which the signs decide; a difference's V is that of the
sum with the complement. -/
theorem binaryAddersAreExact : Obligations.BinaryAddersAreExact := by
  intro a m c
  refine ⟨⟨addBinary_r_toNat a m c, rfl, addBinary_v_eq_decide a m c, addBinary_v_eq_bit a m c, ?_, ?_⟩,
    ⟨subBinary_r_toNat a m c, rfl, subBinary_v_eq_decide a m c, subBinary_v_eq_bit a m c, ?_, ?_⟩,
    subBinary_eq_addBinary_not a m c⟩
  · exact msb_eq_getLsbD_seven _
  · exact beq_zero_eq_decide _
  · exact msb_eq_getLsbD_seven _
  · exact beq_zero_eq_decide _

end Sys2Proof.Machine
end

section
/-! The decimal adders (R194 to R197): for every operand the rules' algorithms, on valid digits decimal arithmetic. -/

namespace Sys2Proof.Machine

variable {cfg : Config} {a m : Byte} {c : Bool} {o : AluOut}

/-! ## Every operand -/

theorem ofInt_msb (i : Int) : (BitVec.ofInt 8 i).msb = decide (i % 256 ≥ 128) := by
  rw [BitVec.msb_eq_decide, ← ofInt_toNat]
  exact decide_eq_decide.mpr (by omega)

/-- The two decimal adds give the same result and carry (R194, R196). -/
theorem decimalAdd_r_c (ho : o = addNmosDecimal cfg a m c ∨ o = addCmosDecimal cfg a m c) :
    o.r.toNat = decimalAddSum a m c % 256 ∧ o.c = decimalAddCarry cfg.adcDecimalCarry a m c := by
  rcases ho with rfl | rfl <;> exact ⟨BitVec.toNat_ofNat _ 8, rfl⟩

theorem decimalAdd_c_of_decimal (h : cfg.adcDecimalCarry = .decimal)
    (ho : o = addNmosDecimal cfg a m c ∨ o = addCmosDecimal cfg a m c) : o.c = decide (decimalAddSum a m c ≥ 0x100) := by
  rw [(decimalAdd_r_c ho).2, h]
  rfl

theorem decimalAdd_c_of_binary (h : cfg.adcDecimalCarry = .binary)
    (ho : o = addNmosDecimal cfg a m c ∨ o = addCmosDecimal cfg a m c) : o.c = (addBinary a m c).c := by
  rw [(decimalAdd_r_c ho).2, h]
  rfl

theorem addNmosDecimal_nv_of_binary (h : cfg.nmosDecimalNV = .binary) :
    (addNmosDecimal cfg a m c).n = (addBinary a m c).n ∧ (addNmosDecimal cfg a m c).v = (addBinary a m c).v := by
  simp [addNmosDecimal, h]

theorem addNmosDecimal_nv_of_silicon (h : cfg.nmosDecimalNV = .silicon) :
    (addNmosDecimal cfg a m c).n = decide (decimalAddSigned a m c % 256 ≥ 128) ∧
      (addNmosDecimal cfg a m c).v = decide (decimalAddSigned a m c < -128 ∨ decimalAddSigned a m c > 127) := by
  rw [← ofInt_msb]
  simp [addNmosDecimal, h]

theorem subNmosDecimal_r_toNat {diff : Int} (hdiff : diff = (highPart a : Int) - highPart m +
      if decimalSubLow a m c < 0 then (decimalSubLow a m c - 6) % 16 - 16 else decimalSubLow a m c) :
    ((subNmosDecimal a m c).r.toNat : Int) = (if diff < 0 then diff - 0x60 else diff) % 256 := by
  subst hdiff
  exact ofInt_toNat _

/-- The two corrections of the CMOS subtract are independent (R197). -/
theorem subCmosDecimal_r_toNat {whole : Int} (hwhole : whole = (a.toNat : Int) - m.toNat + c.toNat - 1) :
    ((subCmosDecimal a m c).r.toNat : Int) =
      (whole - (if whole < 0 then 0x60 else 0) - (if decimalSubLow a m c < 0 then 6 else 0)) % 256 := by
  subst hwhole
  refine (ofInt_toNat _).trans (congrArg (· % 256) ?_)
  split_ifs <;> omega

/-- Settles O15: the results are the exact sums modulo 256; each flag is by definition the binary adder's or the corrected
result's. -/
theorem decimalFlags : Obligations.DecimalFlags := by
  intro cfg a m c
  refine ⟨fun o ho => ?_, addNmosDecimal_nv_of_binary, addNmosDecimal_nv_of_silicon,
    rfl, BitVec.msb_eq_decide (addCmosDecimal cfg a m c).r, rfl, beq_zero_eq_decide _,
    subNmosDecimal_r_toNat rfl, rfl, rfl, rfl, rfl,
    subCmosDecimal_r_toNat rfl, BitVec.msb_eq_decide (subCmosDecimal a m c).r, rfl, beq_zero_eq_decide _, rfl⟩
  exact ⟨(decimalAdd_r_c ho).1, (decimalAdd_c_of_decimal · ho), (decimalAdd_c_of_binary · ho)⟩

/-! ## Valid digits -/

/-- A byte of two digits is decimal and stands for their number. -/
theorem isBcd_of_digits {r : Byte} {n : Nat} (hn : n < 100) (hr : r.toNat = n / 10 * 16 + n % 10) :
    isBcd r ∧ bcdValue r = n := by
  unfold isBcd bcdValue
  omega

section
variable (ha : isBcd a) (hm : isBcd m)
include ha hm

/-- The corrected sum of two-digit numbers has the sum's digits, and a carry of 256 for a carry of 100 (R194). -/
theorem decimalAddSum_of_isBcd : let sum := bcdValue a + bcdValue m + c.toNat
    decimalAddSum a m c = sum / 100 * 256 + sum % 100 / 10 * 16 + sum % 10 := by
  have hc := c.toNat_le
  unfold isBcd at ha hm
  unfold bcdValue decimalAddSum decimalAddLow highPart lowDigit
  dsimp only
  split_ifs <;> omega

theorem decimalAdd_of_isBcd (ho : o = addNmosDecimal cfg a m c ∨ o = addCmosDecimal cfg a m c) :
    isBcd o.r ∧ bcdValue o.r = (bcdValue a + bcdValue m + c.toNat) % 100 := by
  have hr := (decimalAdd_r_c ho).1
  rw [decimalAddSum_of_isBcd ha hm] at hr
  exact isBcd_of_digits (by omega) (by omega)

/-- Two-digit numbers carry where their corrected sum carries. -/
theorem decimalAddSum_carry_of_isBcd : decimalAddSum a m c ≥ 0x100 ↔ bcdValue a + bcdValue m + c.toNat ≥ 100 := by
  rw [decimalAddSum_of_isBcd ha hm]
  omega

/-- Both decimal subtracters subtract digit by digit: a borrow of the low digit takes 6 more, and one of the number adds
$A0, ten in the high digit (R195, R197). -/
theorem decimalSub_r_of_isBcd (ho : o = subNmosDecimal a m c ∨ o = subCmosDecimal a m c) :
    (o.r.toNat : Int) = 16 * (a.toNat / 16) - 16 * (m.toNat / 16) + decimalSubLow a m c
      - (if decimalSubLow a m c < 0 then 6 else 0)
      + (if (bcdValue a : Int) - bcdValue m - (1 - c.toNat) < 0 then 160 else 0) := by
  have hc := c.toNat_le
  unfold isBcd at ha hm
  unfold bcdValue
  rcases ho with rfl | rfl
  · have hr := subNmosDecimal_r_toNat (a := a) (m := m) (c := c) rfl
    unfold decimalSubLow lowDigit highPart at *
    split_ifs at * <;> omega
  · have hr := subCmosDecimal_r_toNat (a := a) (m := m) (c := c) rfl
    unfold decimalSubLow lowDigit at *
    split_ifs at * <;> omega

theorem decimalSub_of_isBcd (ho : o = subNmosDecimal a m c ∨ o = subCmosDecimal a m c) :
    isBcd o.r ∧ (bcdValue o.r : Int) = ((bcdValue a : Int) - bcdValue m - (1 - c.toNat)) % 100 := by
  have hc := c.toNat_le
  have hr := decimalSub_r_of_isBcd ha hm ho
  unfold isBcd at *
  unfold bcdValue decimalSubLow lowDigit at *
  split_ifs at hr <;> omega

/-- Two-digit numbers are ordered as their bytes are: one borrows where the other does. -/
theorem subBinary_c_of_isBcd : (subBinary a m c).c = decide (bcdValue a + c.toNat ≥ bcdValue m + 1) := by
  have hc := c.toNat_le
  unfold isBcd at ha hm
  refine decide_eq_decide.mpr ?_
  unfold bcdValue
  omega

end

/-- Settles O14: digit by digit, for the result and for the carry. -/
theorem decimalAddersAddDecimalNumbers : Obligations.DecimalAddersAddDecimalNumbers := by
  intro cfg a m c ha hm
  refine ⟨fun o ho => ?add, fun o ho => ?sub⟩
  case add =>
    obtain ⟨hbcd, hvalue⟩ := decimalAdd_of_isBcd ha hm ho
    refine ⟨hbcd, hvalue, fun h => ?_, (decimalAdd_c_of_binary · ho)⟩
    rw [decimalAdd_c_of_decimal h ho]
    exact decide_eq_decide.mpr (decimalAddSum_carry_of_isBcd ha hm)
  case sub =>
    obtain ⟨hbcd, hvalue⟩ := decimalSub_of_isBcd ha hm ho
    refine ⟨hbcd, hvalue, ?_⟩
    rw [← subBinary_c_of_isBcd ha hm]
    rcases ho with rfl | rfl <;> rfl

end Sys2Proof.Machine
end

section
/-! ADC, SBC and USBC: the adder that the variant and D select (R191, R198, R199, R331, R478). -/

namespace Sys2Proof.Machine

variable {s t : State}

/-! ## The selection -/

theorem aluAdd_eq (cfg : Config) (d : Bool) (a m : Byte) (c : Bool) : aluAdd cfg d a m c =
    if d = false ∨ cfg.variant = .nes2A03 then addBinary a m c
    else if cfg.variant = .cmos then addCmosDecimal cfg a m c else addNmosDecimal cfg a m c := by
  cases d <;> cases hv : cfg.variant <;> simp [aluAdd, hv]

theorem aluSub_eq (cfg : Config) (d : Bool) (a m : Byte) (c : Bool) : aluSub cfg d a m c =
    if d = false ∨ cfg.variant = .nes2A03 then subBinary a m c
    else if cfg.variant = .cmos then subCmosDecimal a m c else subNmosDecimal a m c := by
  cases d <;> cases hv : cfg.variant <;> simp [aluSub, hv]

theorem decimalCycles_eq (cfg : Config) (d : Bool) :
    decimalCycles cfg d = if cfg.variant = .cmos ∧ d = true then 1 else 0 := by
  cases d <;> cases hv : cfg.variant <;> simp [decimalCycles, hv]

/-! ## What the instructions write -/

/-- A and the flags N, V, Z, C from an adder's output: what each arithmetic instruction ends with. -/
def State.writeAlu (s : State) (out : AluOut) : State := { s with a := out.r, p := out.flags s.p }

theorem addToA_eq_writeAlu (s : State) (m : Byte) :
    s.addToA m = s.writeAlu (aluAdd s.cfg (getFlag s.p .d) s.a m (getFlag s.p .c)) := rfl

theorem subFromA_eq_writeAlu (s : State) (m : Byte) :
    s.subFromA m = s.writeAlu (aluSub s.cfg (getFlag s.p .d) s.a m (getFlag s.p .c)) := rfl

/-- Reading the operand changes nothing that selects the adder or that it adds. -/
theorem exec_adc (o : Src) (s : State) : exec (.adc o) s = .next ((operand o s).st.chargeDecimal.writeAlu
    (aluAdd s.cfg (getFlag s.p .d) s.a (operand o s).val (getFlag s.p .c))) := by
  have h : exec (.adc o) s = .next ((operand o s).st.chargeDecimal.addToA (operand o s).val) := rfl
  simpa [addToA_eq_writeAlu, State.chargeDecimal] using h

theorem subtractOperand_eq (o : Src) (s : State) : subtractOperand o s = (operand o s).st.chargeDecimal.writeAlu
    (aluSub s.cfg (getFlag s.p .d) s.a (operand o s).val (getFlag s.p .c)) := by
  have h : subtractOperand o s = (operand o s).st.chargeDecimal.subFromA (operand o s).val := rfl
  simpa [subFromA_eq_writeAlu, State.chargeDecimal] using h

theorem exec_sbc (o : Src) (s : State) : exec (.sbc o) s = .next (subtractOperand o s) := rfl

theorem exec_usbc (m : Byte) (s : State) : exec (.usbc m) s = .next (subtractOperand (.imm m) s) := rfl

theorem chargeDecimal_writeAlu_sameButReads (h : sameButReads s t) (out : AluOut) :
    sameButReads (s.chargeDecimal.writeAlu out) (t.chargeDecimal.writeAlu out) := by
  unfold sameButReads at *
  rw [h]
  rfl

/-- An instruction that reads an operand and takes an adder's output writes A, the four flags and the cycle counter alone. -/
theorem writeAlu_spec {i : Instr} {o : Src} {out : AluOut}
    (h : exec i s = .next ((operand o s).st.chargeDecimal.writeAlu out)) :
    let extra := if s.cfg.variant = .cmos ∧ getFlag s.p .d = true then 1 else 0
    ∃ t q, exec i s = .next t ∧ sameButReads { s with a := out.r, p := q, clockticks := s.clockticks + extra } t ∧
      writesFlags s.p q [(.n, out.n), (.v, out.v), (.z, out.z), (.c, out.c)] := by
  refine ⟨_, out.flags s.p, h, ?_, writesFlags_aluOut s.p out⟩
  rw [← decimalCycles_eq]
  exact chargeDecimal_writeAlu_sameButReads (operand_sameButReads o s) out

/-- Settles O16: each instruction writes its selected adder's output. -/
theorem adcSbcUsbcUseTheSelectedAdder : Obligations.AdcSbcUsbcUseTheSelectedAdder := by
  intro s o i out m c d extra sum diff
  rintro (⟨rfl, rfl⟩ | ⟨rfl, rfl⟩ | ⟨b, rfl, rfl, rfl⟩)
  · exact writeAlu_spec (by rw [exec_adc, aluAdd_eq])
  · exact writeAlu_spec (by rw [exec_sbc, subtractOperand_eq, aluSub_eq])
  · exact writeAlu_spec (by rw [exec_usbc, subtractOperand_eq, aluSub_eq])

end Sys2Proof.Machine
end

section
/-! Accesses and P: what an access reads and writes does not depend on the status register, and it leaves it alone. -/

namespace Sys2Proof.Machine

theorem busRead_setP (s : State) (q : Byte) (b : Nat) :
    (s.setP q).busRead b = ⟨(s.busRead b).val, (s.busRead b).st.setP q⟩ := by
  unfold State.busRead State.setP
  dsimp only
  split <;> rfl

theorem memRead_setP (s : State) (q : Byte) (a : Word) :
    (s.setP q).memRead a = ⟨(s.memRead a).val, (s.memRead a).st.setP q⟩ := by
  cases hport : s.isPort (s.busAddr a) with
  | true =>
    rw [memRead_of_port hport]
    exact memRead_of_port hport
  | false =>
    rw [memRead_of_not_port hport, ← busRead_setP]
    exact memRead_of_not_port hport

theorem portStore_setP (s : State) (q : Byte) (b : Nat) (v : Byte) : (s.setP q).portStore b v = (s.portStore b v).setP q := by
  unfold State.portStore
  split <;> rfl

theorem portWrite_setP (s : State) (q : Byte) (b : Nat) (v : Byte) : (s.setP q).portWrite b v = (s.portWrite b v).setP q := by
  simp only [State.portWrite, portStore_setP, apply_ite (State.setP · q)]
  rfl

theorem busWrite_setP (s : State) (q : Byte) (b : Nat) (v : Byte) : (s.setP q).busWrite b v = (s.busWrite b v).setP q := by
  unfold State.busWrite State.setP
  dsimp only
  split <;> rfl

theorem memWrite_setP (s : State) (q : Byte) (a : Word) (v : Byte) : (s.setP q).memWrite a v = (s.memWrite a v).setP q := by
  simp only [State.memWrite, portWrite_setP, busWrite_setP, apply_ite (State.setP · q)]
  rfl

theorem resolve_setP (o : Addr) (s : State) (q : Byte) :
    resolve o (s.setP q) = ⟨(resolve o s).val, (resolve o s).st.setP q⟩ := by
  cases o <;> simp only [resolve, State.readZeroPagePointer, State.read16, memRead_setP, State.setP_x, State.setP_y]

theorem operand_setP (o : Src) (s : State) (q : Byte) :
    operand o (s.setP q) = ⟨(operand o s).val, (operand o s).st.setP q⟩ := by
  cases o with
  | imm b => rfl
  | mem o => simp only [operand, operandAt, resolve_setP, memRead_setP]

theorem modifyWith_eq (o : Addr) (f : Byte → State → Byte) (g : Byte → State → State) (s : State) :
    modifyWith o f g s = g (operand (.mem o) s).val ((operand (.mem o) s).st.memWrite (resolve o s).val.ea
      (f (operand (.mem o) s).val (operand (.mem o) s).st)) := rfl

end Sys2Proof.Machine
end

section
/-! NES2A03 ignores D (R191, R310): there the arithmetic instructions do the same whatever D is, and leave D as it was. -/

namespace Sys2Proof.Machine

variable {s : State} {v : Bool}

/-! ## D written -/

/-- The state with D written. -/
def State.setD (s : State) (v : Bool) : State := s.setP (setFlag s.p .d v)

theorem setFlag_setFlag_same (p : Byte) (f : Flag) (v w : Bool) : setFlag (setFlag p f v) f w = setFlag p f w :=
  eq_of_getFlag_eq fun g => by by_cases h : g = f <;> simp [h]

theorem setFlag_comm {f g : Flag} (h : f ≠ g) (p : Byte) (v w : Bool) :
    setFlag (setFlag p f v) g w = setFlag (setFlag p g w) f v := by
  refine eq_of_getFlag_eq fun k => ?_
  by_cases hf : k = f
  · simp [hf, h]
  · simp [hf]

theorem setD_setD (s : State) (v w : Bool) : (s.setD v).setD w = s.setD w :=
  congrArg s.setP (setFlag_setFlag_same s.p .d v w)

theorem carry_setD (s : State) (v : Bool) : getFlag (s.setD v).p .c = getFlag s.p .c := by simp [State.setD]

theorem setFlag_setD {f : Flag} (h : f ≠ .d) (s : State) (v w : Bool) :
    (s.setD v).setP (setFlag (s.setD v).p f w) = (s.setP (setFlag s.p f w)).setD v :=
  congrArg s.setP (setFlag_comm h.symm s.p v w)

theorem aluOut_flags_setFlag_d (o : AluOut) (p : Byte) (v : Bool) : o.flags (setFlag p .d v) = setFlag (o.flags p) .d v := by
  have comm (f : Flag) (h : Flag.d ≠ f) (p : Byte) (w : Bool) := setFlag_comm h p v w
  unfold AluOut.flags
  rw [comm .n (by decide), comm .v (by decide), comm .z (by decide), comm .c (by decide)]

/-! ## Accesses do not depend on D -/

theorem operand_setD (o : Src) (s : State) (v : Bool) :
    operand o (s.setD v) = ⟨(operand o s).val, (operand o s).st.setD v⟩ := by
  rw [State.setD, operand_setP, State.setD, operand_p]

theorem memWrite_setD (s : State) (v : Bool) (a : Word) (b : Byte) : (s.setD v).memWrite a b = (s.memWrite a b).setD v := by
  rw [State.setD, memWrite_setP, State.setD, State.memWrite_p]

/-- A read-modify-write commutes with writing D where its byte does not depend on D and its effect commutes (R168). -/
theorem modifyWith_setD {f : Byte → State → Byte} {g : Byte → State → State} (hf : ∀ m u, f m (u.setD v) = f m u)
    (hg : ∀ m u, u.cfg = s.cfg → g m (u.setD v) = (g m u).setD v) (o : Addr) :
    modifyWith o f g (s.setD v) = (modifyWith o f g s).setD v := by
  have hea : (resolve o (s.setD v)).val = (resolve o s).val := by rw [State.setD, resolve_setP]
  rw [modifyWith_eq, modifyWith_eq, operand_setD, hea, hf, memWrite_setD, hg _ _ (by simp)]

/-! ## The adders on NES2A03 -/

theorem writeAlu_setD (s : State) (v : Bool) (out : AluOut) : (s.setD v).writeAlu out = (s.writeAlu out).setD v := by
  unfold State.writeAlu
  rw [State.setD, State.setP_p, aluOut_flags_setFlag_d]
  rfl

theorem addToA_of_nes2A03 (h : s.cfg.variant = .nes2A03) (m : Byte) :
    s.addToA m = s.writeAlu (addBinary s.a m (getFlag s.p .c)) := by
  rw [addToA_eq_writeAlu, aluAdd_eq, if_pos (.inr h)]

theorem subFromA_of_nes2A03 (h : s.cfg.variant = .nes2A03) (m : Byte) :
    s.subFromA m = s.writeAlu (subBinary s.a m (getFlag s.p .c)) := by
  rw [subFromA_eq_writeAlu, aluSub_eq, if_pos (.inr h)]

theorem chargeDecimal_of_nes2A03 (h : s.cfg.variant = .nes2A03) : s.chargeDecimal = s := by
  rw [State.chargeDecimal, decimalCycles_eq, h]
  rfl

theorem addToA_setD (h : s.cfg.variant = .nes2A03) (v : Bool) (m : Byte) : (s.setD v).addToA m = (s.addToA m).setD v := by
  rw [addToA_of_nes2A03 h, ← writeAlu_setD, ← carry_setD s v]
  exact addToA_of_nes2A03 (s := s.setD v) h m

theorem subFromA_setD (h : s.cfg.variant = .nes2A03) (v : Bool) (m : Byte) : (s.setD v).subFromA m = (s.subFromA m).setD v := by
  rw [subFromA_of_nes2A03 h, ← writeAlu_setD, ← carry_setD s v]
  exact subFromA_of_nes2A03 (s := s.setD v) h m

theorem chargeDecimal_setD (h : s.cfg.variant = .nes2A03) (v : Bool) : (s.setD v).chargeDecimal = s.chargeDecimal.setD v := by
  rw [chargeDecimal_of_nes2A03 h]
  exact chargeDecimal_of_nes2A03 (s := s.setD v) h

/-! ## The instructions -/

/-- Run with D clear or with D set, the instruction does the same and leaves D as it was. -/
def IgnoresD (i : Instr) (s : State) : Prop := ∃ t : State, ∀ v, exec i (s.setD v) = .next (t.setD v)

theorem IgnoresD.of_op {i : Instr} {op : State → State} (h : ∀ u, exec i u = .next (op u))
    (comm : ∀ v, op (s.setD v) = (op s).setD v) : IgnoresD i s := ⟨op s, fun v => by rw [h, comm]⟩

section
variable (h : s.cfg.variant = .nes2A03)
include h

theorem execAdc_ignoresD (o : Src) : IgnoresD (.adc o) s :=
  .of_op (op := fun u => (operand o u).st.chargeDecimal.addToA (operand o u).val) (fun _ => rfl) fun v => by
    have hr : (operand o s).st.cfg.variant = .nes2A03 := by simpa using h
    rw [operand_setD, chargeDecimal_setD hr]
    exact addToA_setD (s := (operand o s).st.chargeDecimal) hr v _

theorem subtractOperand_setD (o : Src) (v : Bool) : subtractOperand o (s.setD v) = (subtractOperand o s).setD v := by
  have hr : (operand o s).st.cfg.variant = .nes2A03 := by simpa using h
  unfold subtractOperand
  dsimp only
  rw [operand_setD, chargeDecimal_setD hr]
  exact subFromA_setD (s := (operand o s).st.chargeDecimal) hr v _

theorem execRra_ignoresD (o : Addr) : IgnoresD (.rra o) s :=
  .of_op (fun _ => rfl) fun v => modifyWith_setD (fun m u => by rw [carry_setD]) (fun m u hu => by
    have hv : u.cfg.variant = .nes2A03 := by rw [hu, h]
    dsimp only
    rw [carry_setD, setFlag_setD (by decide)]
    exact addToA_setD (s := u.setP (setFlag u.p .c (shiftRor m (getFlag u.p .c)).c)) hv v _) o

theorem execIsc_ignoresD (o : Addr) : IgnoresD (.isc o) s :=
  .of_op (fun _ => rfl) fun v => modifyWith_setD (fun _ _ => rfl) (fun m u hu => subFromA_setD (by rw [hu, h]) v _) o

theorem arrIsDecimal_of_nes2A03 (d : Bool) : arrIsDecimal s.cfg d = false := by
  cases d <;> simp [arrIsDecimal, h]

theorem exec_arr_of_nes2A03 (m : Byte) : exec (.arr m) s = .next (s.writeAlu (arrBinary (s.a &&& m) (getFlag s.p .c))) := by
  have harr : exec (.arr m) s = .next (s.writeAlu (if arrIsDecimal s.cfg (getFlag s.p .d)
    then arrDecimalForm (s.a &&& m) (getFlag s.p .c) else arrBinary (s.a &&& m) (getFlag s.p .c))) := rfl
  rw [harr, arrIsDecimal_of_nes2A03 h]
  rfl

theorem execArr_ignoresD (m : Byte) : IgnoresD (.arr m) s :=
  ⟨s.writeAlu (arrBinary (s.a &&& m) (getFlag s.p .c)), fun v => by
    rw [← writeAlu_setD, ← carry_setD s v]
    exact exec_arr_of_nes2A03 (s := s.setD v) h m⟩

end

/-- Settles O17: from the state with D clear and from the one with D set the instruction reaches one state, but for D. -/
theorem nes2A03IgnoresDecimalMode : Obligations.Nes2A03IgnoresDecimalMode := by
  intro s i h hi
  have ignores : IgnoresD i s := by
    rcases hi with ⟨o, rfl | rfl⟩ | ⟨o, rfl | rfl⟩ | ⟨m, rfl | rfl⟩
    · exact execAdc_ignoresD h o
    · exact .of_op (exec_sbc o) (subtractOperand_setD h o)
    · exact execRra_ignoresD h o
    · exact execIsc_ignoresD h o
    · exact .of_op (exec_usbc m) (subtractOperand_setD h (.imm m))
    · exact execArr_ignoresD h m
  obtain ⟨t, ht⟩ := ignores
  exact ⟨_, _, ht false, ht true, (setD_setD t false true).symm⟩

end Sys2Proof.Machine
end

section
/-! The instruction classes of R168 that write registers: one read of an operand, or one read and one write of a byte, and then
an update of the registers that does not depend on the bus. -/

namespace Sys2Proof.Machine

variable {s t : State} {i : Instr} {w : List (Flag × Bool)} {v : Byte}

/-! ## Updates of the registers -/

/-- `s` with everything an access of the bus may change taken from `b`. -/
def State.withBus (s b : State) : State :=
  { s with mem := b.mem, portDdr := b.portDdr, portLatch := b.portLatch, busLog := b.busLog, oracle := b.oracle }

theorem sameButBus_iff_withBus : sameButBus s t ↔ t = s.withBus t := Iff.rfl

/-- An update that neither looks at what an access of the bus may change nor changes it. -/
def IsRegisterUpdate (g : State → State) : Prop := ∀ s b, g (s.withBus b) = (g s).withBus b

namespace IsRegisterUpdate

variable {g : State → State} (hg : IsRegisterUpdate g)
include hg

theorem eq_withBus_self (s : State) : g s = (g s).withBus s := hg s s

theorem eq_withBus (h : sameButBus s t) : g t = (g s).withBus t := by
  rw [← hg, ← sameButBus_iff_withBus.mp h]

theorem sameButBus_map (h : sameButBus s t) : sameButBus (g s) (g t) := by
  rw [sameButBus_iff_withBus, hg.eq_withBus h]
  rfl

theorem sameButReads_map (h : sameButReads s t) : sameButReads (g s) (g t) := by
  unfold sameButReads at *
  rw [hg.eq_withBus (sameButBus_of_sameButReads h), hg.eq_withBus_self s, h]
  rfl

theorem stored_map {ea : Word} (h : stored s t ea v) : stored s (g t) ea v := by
  rw [hg.eq_withBus_self t]
  exact stored_congr rfl rfl rfl rfl rfl rfl rfl h

end IsRegisterUpdate

/-! ## The two classes -/

/-- The read class (R168): registers and flags are updated from the operand, and nothing else changes. -/
theorem readClass_spec {o : Src} (g : State → State) (h : exec i s = .next (g (operand o s).st)) (hg : IsRegisterUpdate g)
    (flags : writesFlags s.p (g s).p w) :
    ∃ t q, exec i s = .next t ∧ sameButReads { g s with p := q } t ∧ writesFlags s.p q w :=
  ⟨_, (g s).p, h, hg.sameButReads_map (operand_sameButReads o s), flags⟩

/-- The read-modify-write class (R79, R168): one byte is stored, registers and flags are updated from the byte read, and nothing
else changes. -/
theorem modifyClass_spec {o : Addr} {f : Byte → State → Byte} (g : Byte → State → State)
    (h : exec i s = .next (modifyWith o f g s)) (byte : ∀ r, sameButReads s r → f (operand (.mem o) s).val r = v)
    (hg : ∀ m, IsRegisterUpdate (g m)) (flags : writesFlags s.p (g (operand (.mem o) s).val s).p w) :
    ∃ t q, exec i s = .next t ∧ sameButBus { g (operand (.mem o) s).val s with p := q } t ∧
      stored s t (resolve o s).val.ea v ∧ writesFlags s.p q w := by
  obtain ⟨r, u, hr, hu, hstored, heq⟩ := modifyWith_spec o f g s
  rw [heq] at h
  rw [byte r hr] at hstored
  exact ⟨_, _, h, (hg _).sameButBus_map hu, (hg _).stored_map hstored, flags⟩

/-- The write class (R168), where the byte stored is known. -/
theorem storeWith_stores {o : Addr} {f : Ea → State → Byte} (byte : f (resolve o s).val (resolve o s).st = v) :
    sameButBus s (storeWith o f s) ∧ stored s (storeWith o f s) (resolve o s).val.ea v := by
  rw [← byte]
  exact storeWith_spec o f s

end Sys2Proof.Machine
end

section
/-! Logic, loads, stores, transfers, increments and decrements (R210 to R230, R316, R317, R326, R343, R353, R354). -/

namespace Sys2Proof.Machine

/-- Settles O18: each is of the read class and ends with A loaded. -/
theorem logicWritesA : Obligations.LogicWritesA := by
  intro s o m
  refine ⟨?and, ?ora, ?eor⟩
  case and => exact readClass_spec (fun u => u.loadA (u.a &&& m)) rfl (fun _ _ => rfl) (writesFlags_setNZ s.p _)
  case ora => exact readClass_spec (fun u => u.loadA (u.a ||| m)) rfl (fun _ _ => rfl) (writesFlags_setNZ s.p _)
  case eor => exact readClass_spec (fun u => u.loadA (u.a ^^^ m)) rfl (fun _ _ => rfl) (writesFlags_setNZ s.p _)

/-- Settles O19: each is of the read class and ends with its registers loaded. -/
theorem loadsWriteTheirRegisters : Obligations.LoadsWriteTheirRegisters := by
  intro s o a m b
  refine ⟨?lda, ?ldx, ?ldy, ?lax, ?las⟩
  case lda => exact readClass_spec (·.loadA m) rfl (fun _ _ => rfl) (writesFlags_setNZ s.p m)
  case ldx => exact readClass_spec (·.loadX m) rfl (fun _ _ => rfl) (writesFlags_setNZ s.p m)
  case ldy => exact readClass_spec (·.loadY m) rfl (fun _ _ => rfl) (writesFlags_setNZ s.p m)
  case lax =>
    exact readClass_spec (o := .mem a) (fun u => { u.loadA b with x := b }) rfl (fun _ _ => rfl) (writesFlags_setNZ s.p b)
  case las =>
    exact readClass_spec (o := .mem a) (fun u => { u.loadA (b &&& u.sp) with x := b &&& u.sp, sp := b &&& u.sp }) rfl
      (fun _ _ => rfl) (writesFlags_setNZ s.p _)

/-- Settles O20: each is of the write class, and resolving the address leaves the registers it stores. -/
theorem storesWriteMemory : Obligations.StoresWriteMemory := by
  intro s o ea
  refine ⟨⟨_, rfl, storeWith_stores (resolve_a s o)⟩, ⟨_, rfl, storeWith_stores (resolve_x s o)⟩,
    ⟨_, rfl, storeWith_stores (resolve_y s o)⟩, ⟨_, rfl, storeWith_stores ?sax⟩, ⟨_, rfl, storeWith_stores rfl⟩⟩
  case sax => rw [resolve_a, resolve_x]

/-- Settles O22: each ends with its destination loaded, but TXS, which writes S alone. -/
theorem transfersCopyRegisters : Obligations.TransfersCopyRegisters := fun s =>
  ⟨⟨_, rfl, writesFlags_setNZ s.p s.a⟩, ⟨_, rfl, writesFlags_setNZ s.p s.a⟩, ⟨_, rfl, writesFlags_setNZ s.p s.x⟩,
    ⟨_, rfl, writesFlags_setNZ s.p s.y⟩, ⟨_, rfl, writesFlags_setNZ s.p s.sp⟩, rfl⟩

/-- Settles O23: the memory forms are of the read-modify-write class, the register forms end with their register loaded. -/
theorem incrementsAndDecrements : Obligations.IncrementsAndDecrements := by
  intro s o
  simp only [← add_one_eq_ofNat, ← sub_one_eq_ofNat]
  refine ⟨?inc, ?dec, ⟨_, rfl, writesFlags_setNZ s.p _⟩, ⟨_, rfl, writesFlags_setNZ s.p _⟩, ⟨_, rfl, writesFlags_setNZ s.p _⟩,
    ⟨_, rfl, writesFlags_setNZ s.p _⟩, ⟨_, rfl, writesFlags_setNZ s.p _⟩, ⟨_, rfl, writesFlags_setNZ s.p _⟩⟩
  case inc =>
    exact modifyClass_spec (fun m u => u.setP (setNZ u.p (m + 1#8))) rfl (fun _ _ => rfl) (fun _ _ _ => rfl)
      (writesFlags_setNZ s.p _)
  case dec =>
    exact modifyClass_spec (fun m u => u.setP (setNZ u.p (m - 1#8))) rfl (fun _ _ => rfl) (fun _ _ _ => rfl)
      (writesFlags_setNZ s.p _)

end Sys2Proof.Machine
end

section
/-! Shifts and rotates, compares, and the bit tests (R240 to R248, R341, R342). -/

namespace Sys2Proof.Machine

variable {s t : State}

theorem a_of_sameButReads (h : sameButReads s t) : t.a = s.a := by
  unfold sameButReads at h
  rw [h]

theorem p_of_sameButReads (h : sameButReads s t) : t.p = s.p := by
  unfold sameButReads at h
  rw [h]

/-! ## The flags they write -/

theorem writesFlags_shiftOut (p : Byte) (o : ShiftOut) : writesFlags p (o.flags p) ((.c, o.c) :: nz o.r) :=
  writesFlags_setNZ_setFlag_c p o.r o.c

/-- A difference of bytes wraps modulo 256 (R244). -/
theorem sub_eq_ofNat (r m : Byte) : r - m = BitVec.ofNat 8 (r.toNat + 256 - m.toNat) := by
  apply BitVec.eq_of_toNat_eq
  rw [BitVec.toNat_sub, BitVec.toNat_ofNat]
  have hm := m.isLt
  omega

theorem writesFlags_compareP (p r m : Byte) :
    writesFlags p (compareP p r m) ((.c, decide (r.toNat ≥ m.toNat)) :: nz (r - m)) :=
  writesFlags_setNZ_setFlag_c p (r - m) _

theorem writesFlags_testBits (p a m : Byte) : writesFlags p (testBits p a m) [(.z, decide (a &&& m = 0#8))] := by
  rw [← Bool.beq_eq_decide_eq]
  exact writesFlags_setFlag p .z _

/-- A flag written after other flags, none of which is that flag. -/
theorem writesFlags_append_setFlag {p q : Byte} {w : List (Flag × Bool)} (h : writesFlags p q w) {f : Flag}
    (hf : w.lookup f = none) (v : Bool) : writesFlags p (setFlag q f v) (w ++ [(f, v)]) := by
  intro g
  rw [getFlag_setFlag, List.lookup_append]
  by_cases hg : g = f
  · simp [hg, hf]
  · simp [hg, h g, List.lookup, beq_false_of_ne hg]

/-! ## The shifts and rotates -/

/-- A shift of A, and of a byte of memory, whose result and bit shifted out are known for the carry before it. -/
theorem shiftPlace_spec {f : Byte → Bool → ShiftOut} {i : Place → Instr} {result : Byte → Byte} {out : Byte → Bool}
    (h : ∀ o, exec (i o) s = .next (shiftPlace f o s)) (hr : ∀ m, (f m (getFlag s.p .c)).r = result m)
    (hc : ∀ m, (f m (getFlag s.p .c)).c = out m) :
    (∃ q, exec (i .acc) s = .next { s with a := result s.a, p := q } ∧
      writesFlags s.p q ((.c, out s.a) :: nz (result s.a))) ∧
    ∀ o : Addr, let m := (operand (.mem o) s).val
      ∃ t q, exec (i (.mem o)) s = .next t ∧ sameButBus { s with p := q } t ∧
        stored s t (resolve o s).val.ea (result m) ∧ writesFlags s.p q ((.c, out m) :: nz (result m)) := by
  simp only [← hr, ← hc]
  refine ⟨⟨_, h .acc, writesFlags_shiftOut s.p _⟩, fun o => ?_⟩
  exact modifyClass_spec (f := fun m u => (f m (getFlag u.p .c)).r) (fun m u => u.setP ((f m (getFlag u.p .c)).flags u.p))
    (h (.mem o)) (fun r hsame => by rw [p_of_sameButReads hsame]) (fun _ _ _ => rfl) (writesFlags_shiftOut s.p _)

/-- Settles O24: each is a shift of a place, by the four results as numbers. -/
theorem shiftsAndRotates : Obligations.ShiftsAndRotates := by
  intro s i result out c
  rintro (⟨rfl, rfl, rfl⟩ | ⟨rfl, rfl, rfl⟩ | ⟨rfl, rfl, rfl⟩ | ⟨rfl, rfl, rfl⟩)
  · exact shiftPlace_spec (f := fun m _ => shiftAsl m) (fun _ => rfl) shiftAsl_r (fun _ => rfl)
  · exact shiftPlace_spec (f := fun m _ => shiftLsr m) (fun _ => rfl) shiftLsr_r (fun _ => rfl)
  · exact shiftPlace_spec (fun _ => rfl) (shiftRol_r · _) (fun _ => rfl)
  · exact shiftPlace_spec (fun _ => rfl) (shiftRor_r · _) (fun _ => rfl)

/-! ## The compares -/

/-- Settles O25: each is of the read class and ends with the flags of the comparison. -/
theorem comparesSetFlags : Obligations.ComparesSetFlags := by
  intro s o m
  simp only [← sub_eq_ofNat]
  refine ⟨?cmp, ?cpx, ?cpy⟩
  case cmp => exact readClass_spec (fun u => u.setP (compareP u.p u.a m)) rfl (fun _ _ => rfl) (writesFlags_compareP s.p s.a m)
  case cpx => exact readClass_spec (fun u => u.setP (compareP u.p u.x m)) rfl (fun _ _ => rfl) (writesFlags_compareP s.p s.x m)
  case cpy => exact readClass_spec (fun u => u.setP (compareP u.p u.y m)) rfl (fun _ _ => rfl) (writesFlags_compareP s.p s.y m)

/-! ## The bit tests -/

/-- P after BIT of memory: bits 7 and 6 of the operand go to N and V after Z is written (R248). -/
theorem writesFlags_bitMemory (p a m : Byte) :
    writesFlags p (setFlag (setFlag (testBits p a m) .n (m.getLsbD 7)) .v (m.getLsbD 6))
      [(.z, decide (a &&& m = 0#8)), (.n, m.getLsbD 7), (.v, m.getLsbD 6)] :=
  writesFlags_append_setFlag (writesFlags_append_setFlag (writesFlags_testBits p a m) rfl _) rfl _

/-- An instruction that stores a byte made of the operand and A, and tests A against the operand (R341, R342). -/
theorem modifyTestBits_spec {i : Instr} {o : Addr} {f : Byte → Byte → Byte}
    (h : exec i s = .next (modifyWith o (fun m u => f m u.a) (fun m u => u.setP (testBits u.p u.a m)) s)) :
    let m := (operand (.mem o) s).val
    ∃ t q, exec i s = .next t ∧ sameButBus { s with p := q } t ∧ stored s t (resolve o s).val.ea (f m s.a) ∧
      writesFlags s.p q [(.z, decide (s.a &&& m = 0#8))] :=
  modifyClass_spec (fun m u => u.setP (testBits u.p u.a m)) h (fun _ hr => by rw [a_of_sameButReads hr]) (fun _ _ _ => rfl)
    (writesFlags_testBits s.p s.a _)

/-- Settles O26: BIT of memory is of the read class, TSB and TRB are of the read-modify-write class, and each tests A against
the operand. -/
theorem bitTests : Obligations.BitTests := by
  intro s o b ea m
  refine ⟨⟨_, rfl, writesFlags_testBits s.p s.a b⟩, ?bit, ?tsb, ?trb⟩
  case bit =>
    exact readClass_spec (o := .mem o)
      (fun u => u.setP (setFlag (setFlag (testBits u.p u.a m) .n (m.getLsbD 7)) .v (m.getLsbD 6))) rfl (fun _ _ => rfl)
      (writesFlags_bitMemory s.p s.a m)
  case tsb => exact modifyTestBits_spec (f := (· ||| ·)) rfl
  case trb => exact modifyTestBits_spec (f := (· &&& ~~~·)) rfl

end Sys2Proof.Machine
end

section
/-! The relative branches, JSR and RTS (R163, R260 to R268, R270, R271, R344, R477). -/

namespace Sys2Proof.Machine

variable {s : State} {i : Instr}

/-! ## The relative branches -/

/-- A branch moves by its signed offset, modulo 2^16 (R163). -/
theorem branchTarget_toNat (s : State) (rr : Byte) :
    ((s.branchTarget rr).toNat : Int) = ((s.pc.toNat : Int) + rr.toInt) % 65536 := by
  have hoffset : rr.toInt = (sext16 rr).toInt := (BitVec.toInt_signExtend_of_le (by decide)).symm
  rw [State.branchTarget, BitVec.toNat_add, hoffset, BitVec.toInt_eq_toNat_cond]
  split <;> omega

/-- A taken branch loads PC, for 1 cycle, or 2 when the page changes (R260, R477). -/
theorem branch_true (s : State) (target : Word) : s.branch true target = { s with
    pc := target
    clockticks := s.clockticks + if target.toNat / 256 = s.pc.toNat / 256 then 1 else 2 } := by
  rw [State.branch, if_pos rfl, ite_not]
  simp only [hiByte_eq_iff]
  rfl

/-- A branch that is not taken changes nothing (R260). -/
theorem branch_false (s : State) (target : Word) : s.branch false target = s := rfl

/-- An instruction that branches on a condition by a signed offset. -/
theorem relativeBranch_spec {cond : Bool} {rr : Byte} (h : exec i s = .next (s.branch cond (s.branchTarget rr))) :
    ∃ target : Word, (target.toNat : Int) = ((s.pc.toNat : Int) + rr.toInt) % 65536 ∧
      (cond = true → exec i s = .next { s with
        pc := target
        clockticks := s.clockticks + if target.toNat / 256 = s.pc.toNat / 256 then 1 else 2 }) ∧
      (cond = false → exec i s = .next s) := by
  refine ⟨s.branchTarget rr, branchTarget_toNat s rr, ?taken, ?notTaken⟩
  case taken =>
    rintro rfl
    rw [h, branch_true]
  case notTaken =>
    rintro rfl
    rw [h, branch_false]

/-- Settles O27: each of the nine is a relative branch on its own condition. -/
theorem branchesFollowTheirCondition : Obligations.BranchesFollowTheirCondition := by
  rintro s rr i cond (⟨rfl, rfl⟩ | ⟨rfl, rfl⟩ | ⟨rfl, rfl⟩ | ⟨rfl, rfl⟩ | ⟨rfl, rfl⟩ | ⟨rfl, rfl⟩ | ⟨rfl, rfl⟩ |
    ⟨rfl, rfl⟩ | ⟨rfl, rfl⟩) <;> exact relativeBranch_spec rfl

/-! ## JSR and RTS -/

theorem exec_jsr (w : Word) (s : State) :
    exec (.jsr w) s = .next (((s.push (hiByte (s.pc - 1#16))).push (loByte (s.pc - 1#16))).setPc w) := rfl

theorem exec_rts (s : State) : exec .rts s = .next (s.pullWord.st.setPc (s.pullWord.val + 1#16)) := rfl

theorem wordOf_add_one (h l : Byte) : wordOf h l + 1#16 = BitVec.ofNat 16 (h.toNat * 256 + l.toNat + 1) := by
  rw [BitVec.ofNat_add, ← wordOf_toNat, BitVec.ofNat_toNat, BitVec.setWidth_eq]

/-- Settles O28: the two pushes of JSR, the two pulls of RTS, each in their order. -/
theorem subroutineCallAndReturn : Obligations.SubroutineCallAndReturn := by
  intro s w
  refine ⟨⟨_, _, push_pushed s _, push_pushed _ _, exec_jsr w s⟩, _, _, _, _, pull_pulled s, pull_pulled _, ?_⟩
  rw [← wordOf_add_one]
  exact exec_rts s

/-! ## The stack as plain memory -/

/-- What a push leaves at any address, where the stack byte is plain memory (R72, R81). -/
theorem push_byteAt_of_plain (h : s.isPlain (s.busAddr (stackAddr s.sp))) (v : Byte) (k : Nat) :
    (s.push v).byteAt k = if k = s.busAddr (stackAddr s.sp) then v else s.byteAt k :=
  memWrite_byteAt_of_plain h v k

/-- A pull answers the byte of the backing array where the stack byte is plain memory (R72, R82). -/
theorem pull_val_of_plain (h : s.isPlain (s.busAddr (stackAddr (s.sp + 1#8)))) :
    s.pull.val = s.byteAt (s.busAddr (stackAddr (s.sp + 1#8))) := by
  rw [pull_val, memRead_plain h]

theorem busAddr_congr {t : State} (cfg : t.cfg = s.cfg) (a : Word) : t.busAddr a = s.busAddr a := by
  rw [State.busAddr, cfg, State.busAddr]

/-- A pulled word is in the backing array, low byte first, where both stack bytes are plain memory. -/
theorem pullWord_val_of_plain (hl : s.isPlain (s.busAddr (stackAddr (s.sp + 1#8))))
    (hh : s.isPlain (s.busAddr (stackAddr (s.sp + 1#8 + 1#8)))) :
    s.pullWord.val = wordOf (s.byteAt (s.busAddr (stackAddr (s.sp + 1#8 + 1#8))))
      (s.byteAt (s.busAddr (stackAddr (s.sp + 1#8)))) := by
  have hcfg : s.pull.st.cfg = s.cfg := State.pull_cfg s
  have hbus : s.pull.st.busAddr (stackAddr (s.pull.st.sp + 1#8)) = s.busAddr (stackAddr (s.sp + 1#8 + 1#8)) := by
    rw [State.pull_sp, busAddr_congr hcfg]
  have hhigh : s.pull.st.pull.val = s.byteAt (s.busAddr (stackAddr (s.sp + 1#8 + 1#8))) := by
    rw [pull_val_of_plain (hbus ▸ isPlain_congr hcfg hh), hbus, State.byteAt, State.pull_mem, State.byteAt]
  rw [State.pullWord, hhigh, pull_val_of_plain hl]

theorem push_busAddr (s : State) (v : Byte) (a : Word) : (s.push v).busAddr a = s.busAddr a :=
  busAddr_congr (State.push_cfg s v) a

section
variable (hhigh : s.isPlain (s.busAddr (stackAddr s.sp))) (hlow : s.isPlain (s.busAddr (stackAddr (s.sp - 1#8))))
include hhigh hlow

/-- What two pushes on plain memory leave at any address (R81). -/
theorem push_push_byteAt_of_plain (h l : Byte) (k : Nat) : ((s.push h).push l).byteAt k =
    if k = s.busAddr (stackAddr (s.sp - 1#8)) then l else if k = s.busAddr (stackAddr s.sp) then h else s.byteAt k := by
  rw [← push_byteAt_of_plain hhigh, ← push_busAddr s h (stackAddr _)]
  exact push_byteAt_of_plain (push_busAddr s h _ ▸ isPlain_congr (State.push_cfg s h) hlow) l k

/-- A word pushed on two bytes of plain memory, high byte first, is pulled again in every state that has the memory and the S
after the pushes (R270, R271). -/
theorem pullWord_val_of_pushes (hne : s.busAddr (stackAddr s.sp) ≠ s.busAddr (stackAddr (s.sp - 1#8))) {t : State} {h l : Byte}
    (cfg : t.cfg = s.cfg) (sp : t.sp = s.sp - 1#8 - 1#8) (mem : t.mem = ((s.push h).push l).mem) :
    t.pullWord.val = wordOf h l := by
  have hbyte (k : Nat) : t.byteAt k = ((s.push h).push l).byteAt k := congrArg (Memory.read · k) mem
  have hlowAddr : t.busAddr (stackAddr (t.sp + 1#8)) = s.busAddr (stackAddr (s.sp - 1#8)) := by
    rw [busAddr_congr cfg, sp, BitVec.sub_add_cancel]
  have hhighAddr : t.busAddr (stackAddr (t.sp + 1#8 + 1#8)) = s.busAddr (stackAddr s.sp) := by
    rw [busAddr_congr cfg, sp, BitVec.sub_add_cancel, BitVec.sub_add_cancel]
  rw [pullWord_val_of_plain (hlowAddr ▸ isPlain_congr cfg hlow) (hhighAddr ▸ isPlain_congr cfg hhigh), hlowAddr, hhighAddr,
    hbyte, hbyte, push_push_byteAt_of_plain hhigh hlow, push_push_byteAt_of_plain hhigh hlow, if_neg hne, if_pos rfl,
    if_pos rfl]

end

/-- Settles O29: RTS pulls the word JSR pushed, which is PC less 1, and adds the 1. -/
theorem rtsReturnsFromJsr : Obligations.RtsReturnsFromJsr := by
  intro s w hhigh hlow hne
  let t := ((s.push (hiByte (s.pc - 1#16))).push (loByte (s.pc - 1#16))).setPc w
  have hcfg : t.cfg = s.cfg := (State.push_cfg _ _).trans (State.push_cfg s _)
  have hword : t.pullWord.val = wordOf (hiByte (s.pc - 1#16)) (loByte (s.pc - 1#16)) :=
    pullWord_val_of_pushes hhigh hlow hne hcfg rfl rfl
  refine ⟨t, _, exec_jsr w s, rfl, exec_rts t, ?pc, ?sp⟩
  case pc =>
    calc t.pullWord.val + 1#16
      _ = s.pc - 1#16 + 1#16 := by rw [hword, wordOf_hiByte_loByte]
      _ = s.pc := BitVec.sub_add_cancel _ _
  case sp =>
    calc t.pullWord.st.sp
      _ = s.sp - 1#8 - 1#8 + 1#8 + 1#8 := State.pullWord_sp t
      _ = s.sp := by rw [BitVec.sub_add_cancel, BitVec.sub_add_cancel]

end Sys2Proof.Machine
end

section
/-! Stack, flag and software-interrupt instructions (R280 to R293, R345 to R348, R409). -/

namespace Sys2Proof.Machine

/-! ## The flag instructions and the deferral -/

/-- What arming the deferral writes, in terms of the P and the inhibit it finds (R280). -/
theorem armDeferral_eq {s : State} {q : Byte} {n : Nat} (p : s.p = q) (inhibit : s.inhibit = n) (iBefore : Bool) :
    s.armDeferral iBefore = { s with inhibit := if iBefore = true ∧ getFlag q .i = false then 2 else n } := by
  subst p inhibit
  unfold State.armDeferral
  split <;> rfl

theorem exec_cli (s : State) : exec .cli s = .next ((s.setP (setFlag s.p .i false)).armDeferral (getFlag s.p .i)) := rfl

/-- Settles O34: each writes one bit of P; CLI's deferral sees I cleared. -/
theorem flagInstructions : Obligations.FlagInstructions := fun s =>
  ⟨⟨_, rfl, writesFlags_setFlag s.p .c false⟩, ⟨_, rfl, writesFlags_setFlag s.p .c true⟩,
    ⟨_, rfl, writesFlags_setFlag s.p .i true⟩, ⟨_, rfl, writesFlags_setFlag s.p .v false⟩,
    ⟨_, rfl, writesFlags_setFlag s.p .d false⟩, ⟨_, rfl, writesFlags_setFlag s.p .d true⟩,
    _, by simp [exec_cli, armDeferral_eq rfl rfl, State.setP], writesFlags_setFlag s.p .i false⟩

/-! ## Pushes and pulls -/

/-- A pull leaves P, so the flags a load of the pulled byte writes are counted from the P before the pull. -/
theorem writesFlags_setNZ_pull (s : State) : writesFlags s.p (setNZ s.pull.st.p s.pull.val) (nz s.pull.val) := by
  rw [State.pull_p]
  exact writesFlags_setNZ s.p s.pull.val

/-- Settles O30: each is one push, or one pull and a load. -/
theorem pushAndPullInstructions : Obligations.PushAndPullInstructions := by
  intro s
  have flags := writesFlags_setNZ_pull s
  exact ⟨⟨_, rfl, push_pushed s s.a⟩, ⟨_, rfl, push_pushed s s.x⟩, ⟨_, rfl, push_pushed s s.y⟩,
    ⟨_, _, rfl, push_pushed s _, writesFlags_pushedBySoftware s.p⟩,
    _, _, pull_pulled s, ⟨_, rfl, flags⟩, ⟨_, rfl, flags⟩, _, rfl, flags⟩

theorem exec_plp (s : State) : exec .plp s = .next (s.pullP.armDeferral (getFlag s.p .i)) := rfl

theorem exec_rti (s : State) : exec .rti s =
    .next ((s.pullP.pullWord.st.setPc s.pullP.pullWord.val).armDeferral (getFlag s.p .i)) := rfl

theorem pullP_p (s : State) : s.pullP.p = restoredP s.pull.val := rfl

theorem wordOf_eq_ofNat (h l : Byte) : wordOf h l = BitVec.ofNat 16 (h.toNat * 256 + l.toNat) := by
  rw [← wordOf_toNat, BitVec.ofNat_toNat, BitVec.setWidth_eq]

/-- Loading PC first does not matter to the deferral (R285). -/
theorem setPc_armDeferral_eq {s : State} {q : Byte} {n : Nat} (p : s.p = q) (inhibit : s.inhibit = n) (w : Word)
    (iBefore : Bool) : (s.setPc w).armDeferral iBefore =
      { s with pc := w, inhibit := if iBefore = true ∧ getFlag q .i = false then 2 else n } :=
  armDeferral_eq (s := s.setPc w) p inhibit iBefore

/-- Settles O31: both pull P and arm the deferral by it; RTI's pulls of PC in between leave P and inhibit alone. -/
theorem plpAndRtiRestoreP : Obligations.PlpAndRtiRestoreP := by
  intro s
  refine ⟨_, _, restoredP s.pull.val, _, pull_pulled s, writesFlags_restoredP _, rfl, ?plp, _, _, _,
    s.pullP.pullWord.st, pull_pulled s.pullP, pull_pulled _, ?rti⟩
  case plp => exact congrArg _ (armDeferral_eq (pullP_p s) (State.pullP_inhibit s) _)
  case rti =>
    rw [exec_rti, ← wordOf_eq_ofNat]
    have p : s.pullP.pullWord.st.p = restoredP s.pull.val := State.pullWord_p s.pullP
    have inhibit : s.pullP.pullWord.st.inhibit = s.inhibit := (State.pullWord_inhibit s.pullP).trans (State.pullP_inhibit s)
    exact congrArg _ (setPc_armDeferral_eq p inhibit s.pullP.pullWord.val _)

/-! ## Entering a handler -/

theorem enterHandler_p (s : State) (vector : Word) (pp : Byte) : (s.enterHandler vector pp).p = setFlag s.p .i true := by
  simp [State.enterHandler, State.jumpVector]

theorem enterHandler_sp (s : State) (vector : Word) (pp : Byte) :
    (s.enterHandler vector pp).sp = s.sp - 1#8 - 1#8 - 1#8 := by
  simp [State.enterHandler, State.jumpVector]

theorem enterHandler_mem (s : State) (vector : Word) (pp : Byte) :
    (s.enterHandler vector pp).mem = (((s.push (hiByte s.pc)).push (loByte s.pc)).push pp).mem := by
  simp [State.enterHandler, State.jumpVector]

theorem brkClearD_eq (s : State) : s.brkClearD = s.setP (if s.cfg.brkClearsD then setFlag s.p .d false else s.p) := by
  unfold State.brkClearD
  split <;> rfl

/-- The core as BRK enters its handler: past the signature byte (R286). -/
def State.skipSignature (s : State) : State := { s with pc := s.pc + 1#16 }

theorem exec_brk (s : State) :
    exec .brk s = .next (s.skipSignature.enterHandler 0xFFFE#16 (pushedBySoftware s.p)).brkClearD := rfl

/-- Settles O32: BRK enters like an interrupt, and then clears D where configured. -/
theorem brkEntersItsHandler : Obligations.BrkEntersItsHandler := by
  intro s
  have hi : writesFlags s.p (setFlag s.p .i true) [(.i, true)] := writesFlags_setFlag s.p .i true
  refine ⟨_, _, _, enterHandler_entered s.skipSignature 0xFFFE#16 (pushedBySoftware s.p) hi,
    writesFlags_pushedBySoftware s.p, by rw [exec_brk, brkClearD_eq]; rfl, ?flags⟩
  rw [enterHandler_p, State.enterHandler_cfg]
  show writesFlags s.p (if s.cfg.brkClearsD then _ else _) _
  split
  · exact writesFlags_append_setFlag hi rfl false
  · exact hi

/-! ## Returning from the handler of a BRK -/

section
variable {s : State} (hfirst : s.isPlain (s.busAddr (stackAddr s.sp)))
  (hsecond : s.isPlain (s.busAddr (stackAddr (s.sp - 1#8)))) (hthird : s.isPlain (s.busAddr (stackAddr (s.sp - 1#8 - 1#8))))
include hfirst hsecond hthird

/-- What three pushes on plain memory leave at any address (R81). -/
theorem push_push_push_byteAt_of_plain (h l v : Byte) (k : Nat) : (((s.push h).push l).push v).byteAt k =
    if k = s.busAddr (stackAddr (s.sp - 1#8 - 1#8)) then v
    else if k = s.busAddr (stackAddr (s.sp - 1#8)) then l
    else if k = s.busAddr (stackAddr s.sp) then h else s.byteAt k := by
  have hcfg : ((s.push h).push l).cfg = s.cfg := (State.push_cfg _ l).trans (State.push_cfg s h)
  have hthird' : ((s.push h).push l).busAddr (stackAddr ((s.push h).push l).sp) =
      s.busAddr (stackAddr (s.sp - 1#8 - 1#8)) := busAddr_congr hcfg _
  rw [← push_push_byteAt_of_plain hfirst hsecond, ← hthird']
  exact push_byteAt_of_plain (hthird' ▸ isPlain_congr hcfg hthird) v k

variable (hfs : s.busAddr (stackAddr s.sp) ≠ s.busAddr (stackAddr (s.sp - 1#8)))
  (hft : s.busAddr (stackAddr s.sp) ≠ s.busAddr (stackAddr (s.sp - 1#8 - 1#8)))
  (hst : s.busAddr (stackAddr (s.sp - 1#8)) ≠ s.busAddr (stackAddr (s.sp - 1#8 - 1#8)))
  {t : State} {h l v : Byte} (cfg : t.cfg = s.cfg) (sp : t.sp = s.sp - 1#8 - 1#8 - 1#8)
  (mem : t.mem = (((s.push h).push l).push v).mem)
include cfg sp mem

/-- The byte pushed last is pulled first, in every state that has the memory and the S after the pushes (R285, R286). -/
theorem pull_val_of_pushes : t.pull.val = v := by
  have haddr : t.busAddr (stackAddr (t.sp + 1#8)) = s.busAddr (stackAddr (s.sp - 1#8 - 1#8)) := by
    rw [busAddr_congr cfg, sp, BitVec.sub_add_cancel]
  rw [pull_val_of_plain (haddr ▸ isPlain_congr cfg hthird), haddr]
  calc t.byteAt _
    _ = (((s.push h).push l).push v).byteAt _ := congrArg (Memory.read · _) mem
    _ = v := by rw [push_push_push_byteAt_of_plain hfirst hsecond hthird, if_pos rfl]

include hfs hft hst

/-- The word pushed first is pulled after it. -/
theorem pullP_pullWord_val_of_pushes : t.pullP.pullWord.val = wordOf h l := by
  have hcfg : t.pullP.cfg = s.cfg := (State.pullP_cfg t).trans cfg
  have hsp : t.pullP.sp + 1#8 = s.sp - 1#8 := by rw [State.pullP_sp, sp, BitVec.sub_add_cancel, BitVec.sub_add_cancel]
  have hbyte (k : Nat) : t.pullP.byteAt k = (((s.push h).push l).push v).byteAt k :=
    congrArg (Memory.read · k) ((State.pullP_mem t).trans mem)
  have hlow : t.pullP.busAddr (stackAddr (t.pullP.sp + 1#8)) = s.busAddr (stackAddr (s.sp - 1#8)) := by
    rw [busAddr_congr hcfg, hsp]
  have hhigh : t.pullP.busAddr (stackAddr (t.pullP.sp + 1#8 + 1#8)) = s.busAddr (stackAddr s.sp) := by
    rw [busAddr_congr hcfg, hsp, BitVec.sub_add_cancel]
  rw [pullWord_val_of_plain (hlow ▸ isPlain_congr hcfg hsecond) (hhigh ▸ isPlain_congr hcfg hfirst), hlow, hhigh, hbyte,
    hbyte, push_push_push_byteAt_of_plain hfirst hsecond hthird, push_push_push_byteAt_of_plain hfirst hsecond hthird,
    if_neg hft, if_neg hfs, if_pos rfl, if_neg hst, if_pos rfl]

end

theorem restoredP_pushedBySoftware (p : Byte) : restoredP (pushedBySoftware p) = pushedBySoftware p :=
  BitVec.or_assoc p 0x30#8 0x20#8

/-- Settles O33: RTI pulls the P and the word that BRK pushed, and nothing in between moves the memory or S. -/
theorem rtiReturnsFromBrk : Obligations.RtiReturnsFromBrk := by
  intro s b0 b1 b2
  have hsp : s.sp - 2#8 = s.sp - 1#8 - 1#8 := (BitVec.sub_sub s.sp 1#8 1#8).symm
  dsimp only [b0, b1, b2]
  rw [hsp]
  intro hfirst hsecond hthird hfs hft hst
  let t := (s.skipSignature.enterHandler 0xFFFE#16 (pushedBySoftware s.p)).brkClearD
  have tcfg : t.cfg = s.cfg := (State.brkClearD_cfg _).trans (State.enterHandler_cfg s.skipSignature _ _)
  have tsp : t.sp = s.sp - 1#8 - 1#8 - 1#8 := (State.brkClearD_sp _).trans (enterHandler_sp s.skipSignature _ _)
  have tmem : t.mem = (((s.skipSignature.push (hiByte (s.pc + 1#16))).push (loByte (s.pc + 1#16))).push
      (pushedBySoftware s.p)).mem := (State.brkClearD_mem _).trans (enterHandler_mem s.skipSignature _ _)
  have hpull : t.pull.val = pushedBySoftware s.p :=
    pull_val_of_pushes (s := s.skipSignature) hfirst hsecond hthird tcfg tsp tmem
  have hword : t.pullP.pullWord.val = wordOf (hiByte (s.pc + 1#16)) (loByte (s.pc + 1#16)) :=
    pullP_pullWord_val_of_pushes (s := s.skipSignature) hfirst hsecond hthird hfs hft hst tcfg tsp tmem
  refine ⟨t, _, exec_brk s, exec_rti t, ?pc, ?sp, ?a, ?x, ?y, ?p⟩
  case pc => simp [State.setPc, hword]
  case sp => simp [State.setPc, tsp]
  case a | x | y => simp [State.setPc, t, State.skipSignature]
  case p =>
    have up : t.pullP.p = pushedBySoftware s.p := by rw [pullP_p, hpull, restoredP_pushedBySoftware]
    simpa [State.setPc, up] using writesFlags_pushedBySoftware s.p

/-! ## After I is cleared -/

/-- Of the instructions that may write I, all but CLI, PLP and RTI set it (R35). -/
theorem mayWriteFlag_i {cfg : Config} {i : Instr} (h : mayWriteFlag cfg .i i = true) :
    i ∈ [Instr.cli, .plp, .rti] ∨ i = .sei ∨ i = .brk := by
  cases i
  case bit o => cases o <;> cases h
  case cli | plp | rti => exact .inl (by simp)
  case sei => exact .inr (.inl rfl)
  case brk => exact .inr (.inr rfl)
  all_goals cases h

theorem exec_clears_i {i : Instr} {s t : State} (h : exec i s = .next t) (before : getFlag s.p .i = true)
    (after : getFlag t.p .i = false) : i ∈ [Instr.cli, .plp, .rti] := by
  cases hm : mayWriteFlag s.cfg .i i with
  | false =>
    rw [exec_flags h .i hm, before] at after
    cases after
  | true =>
    rcases mayWriteFlag_i hm with hmem | rfl | rfl
    · exact hmem
    · cases h
      simp [State.setP] at after
    · obtain ⟨u, -, q, -, -, hbrk, flags⟩ := brkEntersItsHandler s
      rw [hbrk] at h
      cases h
      have set : getFlag q .i = true := flags .i
      simp [set] at after

/-- An instruction that clears I arms the deferral (R280). -/
theorem exec_clears_i_inhibit {i : Instr} {s t : State} (h : exec i s = .next t) (before : getFlag s.p .i = true)
    (after : getFlag t.p .i = false) : t.inhibit = 2 := by
  obtain ⟨u, rfl⟩ : ∃ u : State, t = u.armDeferral true := by
    rw [← before]
    have hi := exec_clears_i h before after
    simp only [List.mem_cons, List.not_mem_nil, or_false] at hi
    rcases hi with rfl | rfl | rfl <;> cases h <;> exact ⟨_, rfl⟩
  rw [State.armDeferral_p] at after
  rw [armDeferral_eq rfl rfl, if_pos ⟨rfl, after⟩]

theorem service_sets_i (s : State) (vector : Word) : getFlag (s.service vector).p .i = true := by
  rw [State.service, enterHandler_p, getFlag_setFlag, if_pos rfl]

theorem step_hasReset {s t : State} (h : step s = .next t) : t.hasReset = true := by
  obtain ⟨hr, ⟨-, rfl⟩ | ⟨-, -, rfl⟩ | ⟨-, -, -, rfl⟩ | ⟨-, -, -, u, hu, rfl⟩⟩ := step_cases h
  · exact hr
  · simpa [State.nmiStep] using hr
  · simpa [State.irqStep] using hr
  · have hu' : u.hasReset = s.beginStep.fetchInstr.st.hasReset := congrArg Control.hasReset (exec_control hu)
    simpa [State.finishInstr, hu'] using hr

/-- With no halt and no interrupt to take, a step is the instruction at PC (R400 step 5). -/
theorem step_eq_runInstr {s : State} (hr : s.hasReset = true) (hh : s.halted = false) (hn : s.nmiPending = false)
    (hi : s.irqRecognised = false) : step s = runInstr s.beginStep := by
  simp [step, runStep, hr, hh, hn, hi]

theorem irqRecognised_of_inhibit {s : State} (h : s.inhibit ≠ 0) : s.irqRecognised = false := by
  simp [State.irqRecognised, h]

theorem finishInstr_inhibit (s : State) (op : Byte) (crossed : Bool) :
    (s.finishInstr op crossed).inhibit = s.inhibit - 1 := rfl

/-- Interrupts set I, so a step that cleared it ran an instruction that cleared it. -/
theorem step_clears_i {s t : State} (h : step s = .next t) (before : getFlag s.p .i = true)
    (after : getFlag t.p .i = false) : ∃ u, exec s.beginStep.fetchInstr.instr s.beginStep.fetchInstr.st = .next u ∧
      getFlag u.p .i = false ∧ t = u.finishInstr s.beginStep.fetchInstr.op s.beginStep.fetchInstr.crossed := by
  obtain ⟨-, ⟨-, rfl⟩ | ⟨-, -, rfl⟩ | ⟨-, -, -, rfl⟩ | ⟨-, -, -, u, hu, rfl⟩⟩ := step_cases h
  · exact absurd (before.symm.trans after) (by decide)
  · simp [State.nmiStep, service_sets_i] at after
  · simp [State.irqStep, service_sets_i] at after
  · exact ⟨u, hu, by simpa [State.finishInstr] using after, rfl⟩

/-- Settles O55: the deferral is armed with 2, the step counts it down once, and 1 still inhibits the next step's IRQ. -/
theorem oneInstructionRunsAfterIClears : Obligations.OneInstructionRunsAfterIClears := by
  intro s t h before after
  obtain ⟨u, hu, uafter, ht⟩ := step_clears_i h before after
  have ubefore : getFlag s.beginStep.fetchInstr.st.p .i = true := by simpa using before
  have inhibit : t.inhibit = 1 := by rw [ht, finishInstr_inhibit, exec_clears_i_inhibit hu ubefore uafter]
  have noIrq : t.assertIrq.irqRecognised = false := irqRecognised_of_inhibit (ne_of_eq_of_ne inhibit Nat.one_ne_zero)
  have hasReset : t.hasReset = true := step_hasReset h
  exact ⟨exec_clears_i hu ubefore uafter, inhibit, fun hn hh => step_eq_runInstr hasReset hh hn noIrq⟩

end Sys2Proof.Machine
end

section
/-! The composites of the undocumented opcodes (R311 to R315, R318 to R321, R323 to R325, R327 to R330): stores ANDed with the
base's high byte, read-modify-writes that combine their byte with A, and immediate forms. -/

namespace Sys2Proof.Machine

variable {s : State}

/-! ## The high-byte stores -/

/-- TAS is of the write class after it has written S, which the resolver does not look at (R327). -/
theorem execTas_spec (o : Addr) (s : State) :
    ∃ t, exec (.tas o) s = .next t ∧ sameButBus { s with sp := s.a &&& s.x } t ∧
      stored s t (resolve o s).val.ea (s.a &&& s.x &&& (resolve o s).val.hPlus1) := by
  have spec := storeWith_spec o (fun e t => t.sp &&& e.hPlus1) { s with sp := s.a &&& s.x }
  rw [resolve_withSp] at spec
  exact ⟨_, rfl, spec⟩

/-- Settles O21: each is of the write class, and resolving the address leaves the registers it stores. -/
theorem highByteStores : Obligations.HighByteStores := by
  intro s o
  simp only [← hPlus1_eq_ofNat]
  refine ⟨⟨_, rfl, storeWith_stores ?shy⟩, ⟨_, rfl, storeWith_stores ?shx⟩, ⟨_, rfl, storeWith_stores ?sha⟩, execTas_spec o s⟩
  case shy => rw [resolve_y]
  case shx => rw [resolve_x]
  case sha => rw [resolve_a, resolve_x]

/-! ## A shifted or decremented byte combined with A -/

/-- A shift of memory whose result is then combined with A (R312 to R314). -/
theorem modifyCombine_spec {i : Instr} {o : Addr} {f : Byte → Bool → ShiftOut} {combine : Byte → Byte → Byte}
    (h : exec i s = .next (modifyWith o (fun m u => (f m (getFlag u.p .c)).r) (fun m u =>
      (u.setP (setFlag u.p .c (f m (getFlag u.p .c)).c)).loadA (combine u.a (f m (getFlag u.p .c)).r)) s)) :
    let out := f (operand (.mem o) s).val (getFlag s.p .c)
    ∃ t q, exec i s = .next t ∧ sameButBus { s with a := combine s.a out.r, p := q } t ∧
      stored s t (resolve o s).val.ea out.r ∧ writesFlags s.p q ((.c, out.c) :: nz (combine s.a out.r)) :=
  modifyClass_spec _ h (fun r hr => by rw [p_of_sameButReads hr]) (fun _ _ _ => rfl) (writesFlags_setNZ_setFlag_c s.p _ _)

/-- Settles O35: three shifts of memory combined with A, and a decrement compared with A. -/
theorem shiftAndCombineComposites : Obligations.ShiftAndCombineComposites := by
  intro s o
  simp only [← shiftAsl_r, ← shiftRol_r, ← shiftLsr_r, ← sub_one_eq_ofNat]
  refine ⟨?slo, ?rla, ?sre, ?dcp⟩
  case slo => exact modifyCombine_spec (f := fun m _ => shiftAsl m) (combine := (· ||| ·)) rfl
  case rla => exact modifyCombine_spec (f := shiftRol) (combine := (· &&& ·)) rfl
  case sre => exact modifyCombine_spec (f := fun m _ => shiftLsr m) (combine := (· ^^^ ·)) rfl
  case dcp =>
    exact modifyClass_spec (fun m u => u.setP (compareP u.p u.a (m - 1#8))) rfl (fun _ _ => rfl) (fun _ _ _ => rfl)
      (writesFlags_compareP s.p s.a _)

/-! ## A rotated or incremented byte through the selected adder -/

/-- An adder writes C, so a C written before it leaves no trace in P. -/
theorem aluOut_flags_setFlag_c (out : AluOut) (p : Byte) (c : Bool) : out.flags (setFlag p .c c) = out.flags p := by
  unfold AluOut.flags
  rw [setFlag_comm (show Flag.c ≠ .n by decide), setFlag_comm (show Flag.c ≠ .v by decide),
    setFlag_comm (show Flag.c ≠ .z by decide), setFlag_setFlag_same]

/-- The add of RRA: C is the rotate's, everything else is as before the rotate (R315). -/
theorem setP_carry_addToA (s : State) (c : Bool) (m : Byte) :
    (s.setP (setFlag s.p .c c)).addToA m = s.writeAlu (aluAdd s.cfg (getFlag s.p .d) s.a m c) := by
  rw [addToA_eq_writeAlu, State.writeAlu, State.setP_p, aluOut_flags_setFlag_c]
  simp [State.writeAlu, State.setP]

/-- A read-modify-write that ends with an adder's output (R315, R319). -/
theorem modifyAlu_spec {i : Instr} {o : Addr} {f : Byte → State → Byte} {out : Byte → State → AluOut} {v : Byte}
    (h : exec i s = .next (modifyWith o f (fun m u => u.writeAlu (out m u)) s))
    (byte : ∀ r, sameButReads s r → f (operand (.mem o) s).val r = v) (hout : ∀ m u b, out m (State.withBus u b) = out m u) :
    let sum := out (operand (.mem o) s).val s
    ∃ t q, exec i s = .next t ∧ sameButBus { s with a := sum.r, p := q } t ∧ stored s t (resolve o s).val.ea v ∧
      writesFlags s.p q [(.n, sum.n), (.v, sum.v), (.z, sum.z), (.c, sum.c)] :=
  modifyClass_spec (fun m u => u.writeAlu (out m u)) h byte
    (fun m u b => by
      dsimp only
      rw [hout]
      rfl) (writesFlags_aluOut s.p _)

/-- Settles O36: each is of the read-modify-write class and ends with the selected adder's output. -/
theorem rotateAddAndIncrementSubtract : Obligations.RotateAddAndIncrementSubtract := by
  intro s o
  simp only [← add_one_eq_ofNat, ← shiftRor_r]
  refine ⟨?rra, ?isc⟩
  case rra =>
    refine modifyAlu_spec (f := fun m u => (shiftRor m (getFlag u.p .c)).r)
      (out := fun m u => aluAdd u.cfg (getFlag u.p .d) u.a (shiftRor m (getFlag u.p .c)).r (m.getLsbD 0)) ?_
      (fun r hr => by rw [p_of_sameButReads hr]) (fun _ _ _ => rfl)
    simp only [← setP_carry_addToA]
    rfl
  case isc =>
    exact modifyAlu_spec (f := fun m _ => m + 1#8)
      (out := fun m u => aluSub u.cfg (getFlag u.p .d) u.a (m + 1#8) (getFlag u.p .c)) rfl (fun _ _ => rfl) (fun _ _ _ => rfl)

/-! ## The immediate composites -/

/-- C written after N and Z, as if before them. -/
theorem writesFlags_setFlag_c_setNZ (p v : Byte) (c : Bool) :
    writesFlags p (setFlag (setNZ p v) .c c) ((.c, c) :: nz v) := by
  rw [setNZ, setFlag_comm (show Flag.n ≠ .c by decide), setFlag_comm (show Flag.z ≠ .c by decide)]
  exact writesFlags_setNZ_setFlag_c p v c

/-- Settles O37: each writes its registers from its result, and N, Z and C by the rule for it. -/
theorem immediateComposites : Obligations.ImmediateComposites := by
  intro s op m
  simp only [← shiftLsr_r, ← sub_eq_ofNat]
  refine ⟨?anc, ?alr, ?sbx, ?ane, ?lxa⟩
  case anc => exact ⟨_, rfl, writesFlags_setFlag_c_setNZ s.p (s.a &&& m) _⟩
  case alr => exact ⟨_, rfl, writesFlags_shiftOut s.p (shiftLsr (s.a &&& m))⟩
  case sbx => exact ⟨_, rfl, writesFlags_compareP s.p (s.a &&& s.x) m⟩
  case ane => exact ⟨_, rfl, writesFlags_setNZ s.p _⟩
  case lxa => exact ⟨_, rfl, writesFlags_setNZ s.p _⟩

end Sys2Proof.Machine
end

section
/-! ARR (R322): which form it takes, and the two forms as numbers. -/

namespace Sys2Proof.Machine

/-! ## The selection -/

theorem arrIsDecimal_iff (cfg : Config) (d : Bool) : arrIsDecimal cfg d = true ↔
    d = true ∧ (cfg.variant = .nmos ∨ cfg.variant = .m6510) ∧ cfg.arrDecimal = .silicon := by
  cases d <;> cases hv : cfg.variant <;> cases ha : cfg.arrDecimal <;> simp [arrIsDecimal, hv, ha]

/-! ## The binary form -/

/-- The same flags, listed in another order. -/
theorem writesFlags_of_lookup_eq {p q : Byte} {w w' : List (Flag × Bool)} (h : writesFlags p q w)
    (lookup : ∀ f, w.lookup f = w'.lookup f) : writesFlags p q w' := fun f => by rw [← lookup, h]

theorem writesFlags_arrBinary (p t : Byte) (c : Bool) : let r := (shiftRor t c).r
    writesFlags p ((arrBinary t c).flags p) ((.c, r.getLsbD 6) :: (.v, (r.getLsbD 6).xor (r.getLsbD 5)) :: nz r) := by
  refine writesFlags_of_lookup_eq (writesFlags_aluOut p (arrBinary t c)) fun f => ?_
  simp only [arrBinary, msb_eq_getLsbD_seven]
  cases f <;> rfl

/-! ## The decimal form -/

theorem and_high_toNat (x : Byte) : (x &&& 0xF0#8).toNat = highPart x := by
  have shifts : x &&& 0xF0#8 = x >>> 4 <<< 4 := (BitVec.shiftLeft_ushiftRight (x := x) (n := 4)).symm
  have hx := x.isLt
  rw [shifts, highPart, BitVec.toNat_shiftLeft, BitVec.toNat_ushiftRight, Nat.shiftRight_eq_div_pow, Nat.shiftLeft_eq]
  omega

theorem and_low_toNat (x : Byte) : (x &&& 0x0F#8).toNat = lowDigit x := Nat.and_two_pow_sub_one_eq_mod x.toNat 4

theorem and_bit_four_toNat (x : Byte) : (x &&& 0x10#8).toNat = x.toNat / 16 % 2 * 16 := by
  rw [BitVec.toNat_and]
  refine (Nat.and_two_pow x.toNat 4).trans ?_
  rw [Nat.toNat_testBit]
  rfl

/-- The high digit of one byte beside the low digit of another. -/
theorem digits_toNat (x y : Byte) : ((x &&& 0xF0#8) ||| (y &&& 0x0F#8)).toNat = highPart x + lowDigit y := by
  have disjoint : (x &&& 0xF0#8) &&& (y &&& 0x0F#8) = 0#8 := by
    rw [show (x &&& 0xF0#8) &&& (y &&& 0x0F#8) = (x &&& y) &&& (0xF0#8 &&& 0x0F#8) by ac_rfl]
    exact BitVec.and_zero
  have hx := x.isLt
  rw [← BitVec.add_eq_or_of_and_eq_zero _ _ disjoint, BitVec.toNat_add, and_high_toNat, and_low_toNat, highPart, lowDigit]
  omega

theorem arrDecimalForm_c (t : Byte) (c : Bool) :
    (arrDecimalForm t c).c = decide (t.toNat / 16 * 16 + t.toNat / 16 % 2 * 16 > 0x50) := by
  rw [← and_bit_four_toNat]
  rfl

/-- The low digit of a byte, corrected alone: its carry does not reach the high digit (R322). -/
theorem lowCorrection_toNat (r : Byte) (correct : Prop) [Decidable correct] :
    (if correct then (r &&& 0xF0#8) ||| ((r + 0x06#8) &&& 0x0F#8) else r).toNat =
      highPart r + if correct then (lowDigit r + 6) % 16 else lowDigit r := by
  split_ifs
  · have hlow : lowDigit (r + 0x06#8) = (lowDigit r + 6) % 16 := by
      rw [lowDigit, lowDigit, BitVec.toNat_add, BitVec.toNat_ofNat]
      omega
    rw [digits_toNat, hlow]
  · exact (Nat.div_add_mod' r.toNat 16).symm

theorem arrDecimalForm_r (t : Byte) (c : Bool) :
    let r := (shiftRor t c).r
    let low := if t.toNat % 16 + t.toNat % 2 > 5 then (r.toNat % 16 + 6) % 16 else r.toNat % 16
    (arrDecimalForm t c).r =
      BitVec.ofNat 8 (r.toNat / 16 * 16 + (if (arrDecimalForm t c).c = true then 0x60 else 0) + low) := by
  intro r low
  obtain ⟨corrected, hr, hcorrected⟩ : ∃ r1 : Byte,
      (arrDecimalForm t c).r = (if (arrDecimalForm t c).c = true then r1 + 0x60#8 else r1) ∧
        r1.toNat = r.toNat / 16 * 16 + low := ⟨_, rfl, lowCorrection_toNat r _⟩
  apply BitVec.eq_of_toNat_eq
  rw [hr, BitVec.toNat_ofNat]
  split_ifs
  · rw [BitVec.toNat_add, hcorrected, BitVec.toNat_ofNat]
    omega
  · have hlt := corrected.isLt
    omega

theorem writesFlags_arrDecimalForm (p t : Byte) (c : Bool) : let r := (shiftRor t c).r
    writesFlags p ((arrDecimalForm t c).flags p)
      [(.n, c), (.z, decide (r = 0#8)), (.v, (t.getLsbD 6).xor (r.getLsbD 6)), (.c, (arrDecimalForm t c).c)] := by
  intro r
  rw [← BitVec.getLsbD_xor]
  exact writesFlags_of_lookup_eq (writesFlags_aluOut p (arrDecimalForm t c)) fun f => by cases f <;> rfl

/-! ## The instruction -/

theorem exec_arr (m : Byte) (s : State) : exec (.arr m) s = .next (s.writeAlu (if arrIsDecimal s.cfg (getFlag s.p .d)
    then arrDecimalForm (s.a &&& m) (getFlag s.p .c) else arrBinary (s.a &&& m) (getFlag s.p .c))) := rfl

/-- Settles O38: the form is the one D, the variant and `ARR_DECIMAL` select, and A and the flags are its output. -/
theorem arrRotatesWithItsOwnFlags : Obligations.ArrRotatesWithItsOwnFlags := by
  intro s m
  simp only [← shiftRor_r]
  rw [exec_arr, ← arrIsDecimal_iff]
  refine ⟨fun binary => ?binary, fun decimal => ?decimal⟩
  case binary =>
    rw [if_neg binary]
    exact ⟨_, rfl, writesFlags_arrBinary s.p (s.a &&& m) (getFlag s.p .c)⟩
  case decimal =>
    rw [if_pos decimal, ← arrDecimalForm_c _ (getFlag s.p .c), ← arrDecimalForm_r]
    exact ⟨_, rfl, writesFlags_arrDecimalForm s.p (s.a &&& m) (getFlag s.p .c)⟩

end Sys2Proof.Machine
end

section
/-! The 65C02 instructions on one bit of a zero-page byte (R166, R349 to R352, R477). -/

namespace Sys2Proof.Machine

variable {s : State} {i : Instr} {b : Fin 8} {z : Byte} {bit : Bool}

/-! ## One bit of a byte -/

theorem bitMask_getLsbD (b : Fin 8) {k : Nat} (hk : k < 8) : (bitMask b).getLsbD k = decide (k = b.val) := by
  rw [bitMask, BitVec.getLsbD_shiftLeft, BitVec.getLsbD_one, Bool.eq_iff_iff]
  simp only [Bool.and_eq_true, Bool.not_eq_true', decide_eq_true_eq, decide_eq_false_iff_not]
  omega

/-- The byte RMB stores (R349). -/
theorem and_not_bitMask_getLsbD (b : Fin 8) (m : Byte) {k : Nat} (hk : k < 8) :
    (m &&& ~~~bitMask b).getLsbD k = if k = b.val then false else m.getLsbD k := by
  rw [BitVec.getLsbD_and, BitVec.getLsbD_not, bitMask_getLsbD b hk]
  by_cases hb : k = b.val <;> simp [hb, hk]

/-- The byte SMB stores (R350). -/
theorem or_bitMask_getLsbD (b : Fin 8) (m : Byte) {k : Nat} (hk : k < 8) :
    (m ||| bitMask b).getLsbD k = if k = b.val then true else m.getLsbD k := by
  rw [BitVec.getLsbD_or, bitMask_getLsbD b hk]
  by_cases hb : k = b.val <;> simp [hb]

/-! ## RMB and SMB -/

/-- A read-modify-write of a zero-page byte that writes one bit and no register (R79, R349, R350). -/
theorem modifyBit_spec {f : Byte → Byte} (h : exec i s = .next (modifyWith (.zp z) (fun m _ => f m) (fun _ t => t) s))
    (hf : ∀ m k, k < 8 → (f m).getLsbD k = if k = b.val then bit else m.getLsbD k) :
    ∃ t v, exec i s = .next t ∧ sameButBus s t ∧ stored s t (zext16 z) v ∧
      ∀ k, k < 8 → v.getLsbD k = if k = b.val then bit else (s.memRead (zext16 z)).val.getLsbD k := by
  obtain ⟨-, t, -, ht, hstored, heq⟩ := modifyWith_spec (.zp z) (fun m _ => f m) (fun _ t => t) s
  exact ⟨t, _, h.trans (congrArg _ heq), ht, hstored, hf _⟩

/-! ## BBR and BBS -/

/-- A relative branch taken where bit `b` of a zero-page byte is `bit` (R166, R351, R352). -/
theorem branchOnBit_spec {rr : Byte} {cond : Bool}
    (h : exec i s = .next ((s.memRead (zext16 z)).st.branch cond (s.branchTarget rr)))
    (hcond : cond = true ↔ (s.memRead (zext16 z)).val.getLsbD b.val = bit) :
    ∃ (u : State) (target : Word), sameButReads s u ∧ (target.toNat : Int) = ((s.pc.toNat : Int) + rr.toInt) % 65536 ∧
      ((s.memRead (zext16 z)).val.getLsbD b.val = bit → exec i s = .next { u with
        pc := target
        clockticks := s.clockticks + if target.toNat / 256 = s.pc.toNat / 256 then 1 else 2 }) ∧
      ((s.memRead (zext16 z)).val.getLsbD b.val ≠ bit → exec i s = .next u) := by
  refine ⟨(s.memRead (zext16 z)).st, s.branchTarget rr, memRead_sameButReads s _, branchTarget_toNat s rr, ?taken, ?notTaken⟩
  case taken =>
    intro hbit
    rw [h, hcond.mpr hbit, branch_true, State.memRead_pc, State.memRead_clockticks]
  case notTaken =>
    intro hbit
    rw [h, Bool.eq_false_of_not_eq_true (mt hcond.mp hbit), branch_false]

/-- Settles O39: RMB and SMB modify one bit of the zero-page byte, BBR and BBS branch on one. -/
theorem zeroPageBitInstructions : Obligations.ZeroPageBitInstructions := by
  intro s b z rr i bit m
  refine ⟨?modify, ?branch⟩
  case modify =>
    rintro (⟨rfl, rfl⟩ | ⟨rfl, rfl⟩)
    · exact modifyBit_spec rfl fun m _ => and_not_bitMask_getLsbD b m
    · exact modifyBit_spec rfl fun m _ => or_bitMask_getLsbD b m
  case branch =>
    rintro (⟨rfl, rfl⟩ | ⟨rfl, rfl⟩)
    · exact branchOnBit_spec rfl (Bool.not_eq_true' _).to_iff
    · exact branchOnBit_spec rfl Iff.rfl

end Sys2Proof.Machine
end

section
/-! NOPs, JAM and UNDEF (R370 to R373). -/

namespace Sys2Proof.Machine

/-- Settles O40: NOP and UNDEF answer the state they are given, JAM what the policy says. -/
theorem nopsAndJam : Obligations.NopsAndJam := by
  intro s op o
  refine ⟨rfl, rfl, fun policy => ?_, fun policy => ?_⟩ <;> simp [exec, execJam, policy]

end Sys2Proof.Machine
end

section
/-! Completion, interrupts and the running total (R87, R400 to R407, R480). -/

namespace Sys2Proof.Machine

variable {s t : State}

/-- Settles O48: every kind of step completes, and none clears `has_reset`. -/
theorem everyStepCompletesAfterReset : Obligations.EveryStepCompletesAfterReset := by
  intro s hr
  obtain ⟨t, ht⟩ := step_next hr
  exact ⟨t, ht, step_hasReset ht⟩

/-! ## Taking an interrupt -/

theorem step_of_nmiPending (hr : s.hasReset = true) (hh : s.halted = false) (hn : s.nmiPending = true) :
    step s = .next s.beginStep.nmiStep := by
  simp [step, runStep, hr, hh, hn]

theorem step_of_irqRecognised (hr : s.hasReset = true) (hh : s.halted = false) (hn : s.nmiPending = false)
    (hi : s.irqRecognised = true) : step s = .next s.beginStep.irqStep := by
  simp [step, runStep, hr, hh, hn, hi]

/-- Servicing an interrupt is entering its handler with Break 0 and Unused 1 in the pushed P (R404, R405). -/
theorem service_entered (s : State) (vector : Word) : entered s (s.service vector) vector (pushedByInterrupt s.p) :=
  enterHandler_entered s vector _ (writesFlags_setFlag s.p .i true)

/-- The end of an interrupt step, in terms of the state `s` before the step, whose counters the service left in place. -/
theorem addCycles_decInhibit_account_eq {u : State} (cfg : u.cfg = s.cfg) (ticks : u.clockticks = 0)
    (total : u.clocktickstotal = s.clocktickstotal) (inhibit : u.inhibit = s.inhibit) (n : Nat) :
    (u.addCycles n).decInhibit.account = { u with
      clockticks := n
      inhibit := s.inhibit - 1
      clocktickstotal := if overCeiling s.cfg.cycleCeiling (s.clocktickstotal + n) then 0 else s.clocktickstotal + n } := by
  rw [← cfg, ← total, ← inhibit]
  simp [State.addCycles, State.decInhibit, State.account, ticks]

theorem nmiStep_eq (s : State) : s.beginStep.nmiStep =
    { ({ s with nmiPending := false, clockticks := 0, busLog := [] } : State).service 0xFFFA#16 with
      clockticks := 7
      inhibit := s.inhibit - 1
      clocktickstotal := if overCeiling s.cfg.cycleCeiling (s.clocktickstotal + 7) then 0 else s.clocktickstotal + 7 } :=
  addCycles_decInhibit_account_eq (by simp) (by simp) (by simp) (by simp) 7

/-- Settles O53: the NMI is the first interrupt a step looks for, and its step is a service of 7 cycles. -/
theorem nmiIsTakenFirst : Obligations.NmiIsTakenFirst := by
  intro s
  refine ⟨rfl, rfl, fun hr hh hn => ⟨_, _, service_entered _ 0xFFFA#16, writesFlags_pushedByInterrupt s.p, ?_⟩⟩
  rw [step_of_nmiPending hr hh hn, nmiStep_eq]

theorem irqRecognised_iff (s : State) :
    s.irqRecognised = true ↔ s.irqPending = true ∧ s.inhibit = 0 ∧ getFlag s.p .i = false := by
  simp [State.irqRecognised, and_assoc]

/-- A pending IRQ stays pending in hold mode alone (R404). -/
theorem acknowledgeIrq_eq (pending : s.irqPending = true) :
    s.acknowledgeIrq = { s with irqPending := decide (s.irqMode = .hold) } := by
  unfold State.acknowledgeIrq
  split
  next mode => rw [show decide (s.irqMode = .hold) = false by simp [mode]]
  next mode => rw [show decide (s.irqMode = .hold) = s.irqPending by simp [mode, pending]]

theorem irqStep_eq (hi : s.irqRecognised = true) : s.beginStep.irqStep =
    { s.beginStep.service 0xFFFE#16 with
      irqPending := decide (s.irqMode = .hold)
      clockticks := 7
      inhibit := 0
      clocktickstotal := if overCeiling s.cfg.cycleCeiling (s.clocktickstotal + 7) then 0 else s.clocktickstotal + 7 } := by
  obtain ⟨pending, inhibit, -⟩ := (irqRecognised_iff s).mp hi
  have acknowledged : ((s.beginStep.service 0xFFFE#16).addCycles 7).acknowledgeIrq =
      ({ s.beginStep.service 0xFFFE#16 with irqPending := decide (s.irqMode = .hold) } : State).addCycles 7 := by
    rw [acknowledgeIrq_eq (by simpa using pending)]
    simp [State.addCycles]
  rw [State.irqStep, acknowledged,
    addCycles_decInhibit_account_eq (s := s) (by simp) (by simp) (by simp) (by simp), inhibit]

theorem runInstr_irqPending (h : runInstr s = .next t) : t.irqPending = s.irqPending := by
  obtain ⟨u, hu, hrun⟩ := runInstr_eq s
  rw [hrun] at h
  cases h
  have pending : u.irqPending = s.fetchInstr.st.irqPending := congrArg Control.irqPending (exec_control hu)
  simpa [State.finishInstr] using pending

/-- Settles O54: recognising an IRQ is the stated condition, and without it the step is the instruction's, which leaves the
latch. -/
theorem irqIsTakenExactlyWhenRecognised : Obligations.IrqIsTakenExactlyWhenRecognised := by
  intro s hr hh hn
  rw [← irqRecognised_iff]
  refine ⟨fun hi => ?taken, fun hi => ?notTaken⟩
  case taken =>
    refine ⟨_, _, service_entered s.beginStep 0xFFFE#16, writesFlags_pushedByInterrupt s.p, ?_⟩
    rw [step_of_irqRecognised hr hh hn hi, irqStep_eq hi]
  case notTaken =>
    have hstep := step_eq_runInstr hr hh hn (Bool.eq_false_of_not_eq_true hi)
    exact ⟨hstep, fun t ht => runInstr_irqPending (s := s.beginStep) (hstep.symm.trans ht)⟩

/-! ## The running total -/

theorem account_clocktickstotal (s : State) : s.account.clocktickstotal =
    if overCeiling s.cfg.cycleCeiling (s.clocktickstotal + s.clockticks) then 0 else s.clocktickstotal + s.clockticks := rfl

theorem exec_clocktickstotal {i : Instr} (h : exec i s = .next t) : t.clocktickstotal = s.clocktickstotal :=
  congrArg Control.clocktickstotal (exec_control h)

/-- Every step that is not halted accounts the cycles it took, whichever kind it is (R480). -/
theorem step_clocktickstotal (h : step s = .next t) (hh : s.halted = false) : t.clocktickstotal =
    if overCeiling s.cfg.cycleCeiling (s.clocktickstotal + t.clockticks) then 0 else s.clocktickstotal + t.clockticks := by
  obtain ⟨-, ⟨halted, -⟩ | ⟨-, -, rfl⟩ | ⟨-, -, -, rfl⟩ | ⟨-, -, -, u, hu, rfl⟩⟩ := step_cases h
  · exact absurd (hh.symm.trans halted) Bool.false_ne_true
  · simp [State.nmiStep, account_clocktickstotal]
  · simp [State.irqStep, account_clocktickstotal]
  · simp [State.finishInstr, account_clocktickstotal, exec_cfg hu, exec_clocktickstotal hu]

/-- Settles O57: a step's accounting, without a ceiling and with one. -/
theorem totalAccountsEveryStep : Obligations.TotalAccountsEveryStep := by
  intro s
  refine ⟨by simp [State.hostReset], fun t ht hh => ⟨fun noCeiling => ?_, fun c ceiling => ?_⟩⟩
  · simp [step_clocktickstotal ht hh, noCeiling, overCeiling]
  · simp [step_clocktickstotal ht hh, ceiling, overCeiling]

end Sys2Proof.Machine
end

section
/-! The instruction step: what it fetches is what the decoder reads, and where its operand crosses a page (R400, R150, R167). -/

namespace Sys2Proof.Machine

variable {s : State}

/-- Two functions of the opcode that agree on every row of the maps are equal. -/
theorem eq_of_rows {α : Type} {f g : Byte → α} (h : ∀ row, (List.finRange 16).map (fun col => f (opcodeAt row col)) =
    (List.finRange 16).map (fun col => g (opcodeAt row col))) (op : Byte) : f op = g op := by
  obtain ⟨row, col, rfl⟩ := exists_opcodeAt_eq op
  exact List.map_inj_left.mp (h row) col (List.mem_finRange col)

/-- Whether the resolver reports a page cross for the instruction's memory operand; false without one (R150, R167). -/
def operandCrossed (i : Instr) (s : State) : Bool := ((memOperand i).map fun o => (resolve o s).val.crossed).getD false

/-- The mode of an opcode and the memory operand of the instruction it decodes to cross a page alike. -/
theorem crossedBy_modeOf (v : Variant) (op b1 b2 : Byte) (s : State) :
    crossedBy (modeOf v op) b1 b2 s = operandCrossed (decodeAt v op b1 b2) s :=
  eq_of_rows (f := fun op => crossedBy (modeOf v op) b1 b2 s) (g := fun op => operandCrossed (decodeAt v op b1 b2) s)
    (fun row => by cases v <;> fin_cases row <;> rfl) op

theorem fetchInstr_crossed (s : State) : s.fetchInstr.crossed = operandCrossed s.fetchInstr.instr s.fetchInstr.st :=
  crossedBy_modeOf ..

theorem fetchInstr_instr (s : State) :
    s.fetchInstr.instr = decodeAt s.cfg.variant s.fetchInstr.op s.fetchInstr.b1 s.fetchInstr.b2 := by
  rw [Fetched.instr, State.fetchInstr_cfg]

/-- The decoder reads the fetched instruction from the fetched bytes (R111, R114). -/
theorem decode_fetchInstr (s : State) : ∃ rest,
    decode s.cfg.variant [s.fetchInstr.op, s.fetchInstr.b1, s.fetchInstr.b2] = .ok (s.fetchInstr.instr, rest) := by
  rw [fetchInstr_instr]
  obtain h | h | h := lengthOf_cases s.cfg.variant s.fetchOpcode.val
  · simp [fetchInstr_of_length_one h, decode, h]
  · simp [fetchInstr_of_length_two h, decode, h]
  · simp [fetchInstr_of_length_three h, decode, h]

/-- The end of an instruction step, in terms of the configuration and the total before the step (R400 steps 6 and 7). -/
theorem finishInstr_eq {u : State} (cfg : u.cfg = s.cfg) (total : u.clocktickstotal = s.clocktickstotal) (op : Byte)
    (crossed : Bool) :
    let cycles := u.clockticks + baseCycles s.cfg op + if crossed = true ∧ pagePenalty s.cfg op = true then 1 else 0
    u.finishInstr op crossed = { u with
      clockticks := cycles
      clocktickstotal :=
        if overCeiling s.cfg.cycleCeiling (s.clocktickstotal + cycles) then 0 else s.clocktickstotal + cycles
      inhibit := u.inhibit - 1 } := by
  rw [← cfg, ← total]
  simp [State.finishInstr, State.addCycles, State.account, State.decInhibit, chargedCycles, Nat.add_assoc]

/-- Settles O50: the decoder gives the fetched instruction, whose meaning the step runs and finishes. -/
theorem stepRunsTheDecodedInstruction : Obligations.StepRunsTheDecodedInstruction := by
  rintro s i hr hh hn hi f ⟨rest, hdec⟩ - crossed
  obtain ⟨rest', hfetched⟩ := decode_fetchInstr s.beginStep
  obtain rfl : s.beginStep.fetchInstr.instr = i := congrArg Prod.fst (Except.ok.inj (hfetched.symm.trans hdec))
  obtain ⟨t, ht, hrun⟩ := runInstr_eq s.beginStep
  have hcrossed : f.crossed = crossed := fetchInstr_crossed s.beginStep
  have cfg : t.cfg = s.cfg := (exec_cfg ht).trans (State.fetchInstr_cfg s.beginStep)
  have total : t.clocktickstotal = s.clocktickstotal :=
    (exec_clocktickstotal ht).trans (State.fetchInstr_clocktickstotal s.beginStep)
  refine ⟨hcrossed, t, ht, ?_⟩
  rw [step_eq_runInstr hr hh hn hi, hrun, finishInstr_eq cfg total, ← hcrossed]
  rfl

end Sys2Proof.Machine
end

section
/-! Cycle counts: the base counts, the page-cross penalty, and what a step costs (R474 to R479). -/

namespace Sys2Proof.Machine

variable {s t : State}

/-! ## The tables of R475 against the rules -/

/-- The table of R475 has the count that the rule of the opcode's instruction gives. -/
theorem defaultCycles_eq_ruleCycles (v : Variant) (op b1 b2 : Byte) :
    defaultCycles v op = ruleCycles v (decodeAt v op b1 b2) :=
  eq_of_rows (f := defaultCycles v) (g := fun op => ruleCycles v (decodeAt v op b1 b2))
    (fun row => by cases v <;> fin_cases row <;> rfl) op

theorem baseCycles_of_default {cfg : Config} (h : cfg.cycleOverrides = []) (op : Byte) :
    baseCycles cfg op = defaultCycles cfg.variant op := by
  simp [baseCycles, h]

theorem baseCycles_of_opcodeOf {cfg : Config} {i : Instr} {op : Byte} (h : cfg.cycleOverrides = [])
    (hop : opcodeOf cfg.variant i = some op) : baseCycles cfg op = ruleCycles cfg.variant i := by
  rw [baseCycles_of_default h, ← decodesTo_self cfg.variant i op hop]
  exact defaultCycles_eq_ruleCycles ..

/-! ## The page-cross penalty -/

/-- The opcodes R475 marks on the variant. -/
def penaltyOpcodes (v : Variant) : List Byte :=
  if v = .cmos then
    [0x11#8, 0x19#8, 0x1D#8, 0x31#8, 0x39#8, 0x3C#8, 0x3D#8, 0x51#8, 0x59#8, 0x5D#8, 0x71#8, 0x79#8, 0x7D#8, 0xB1#8, 0xB9#8,
      0xBC#8, 0xBD#8, 0xBE#8, 0xD1#8, 0xD9#8, 0xDD#8, 0xF1#8, 0xF9#8, 0xFD#8]
  else
    [0x11#8, 0x19#8, 0x1C#8, 0x1D#8, 0x31#8, 0x39#8, 0x3C#8, 0x3D#8, 0x51#8, 0x59#8, 0x5C#8, 0x5D#8, 0x71#8, 0x79#8, 0x7C#8,
      0x7D#8, 0xB1#8, 0xB3#8, 0xB9#8, 0xBB#8, 0xBC#8, 0xBD#8, 0xBE#8, 0xBF#8, 0xD1#8, 0xD9#8, 0xDC#8, 0xDD#8, 0xF1#8, 0xF9#8,
      0xFC#8, 0xFD#8]

/-- Without replaced counts the penalty depends on the variant alone. -/
theorem pagePenalty_of_default {cfg : Config} (h : cfg.cycleOverrides = []) (op : Byte) :
    pagePenalty cfg op = pagePenalty (Config.default cfg.variant) op := by
  unfold pagePenalty
  rw [baseCycles_of_default h, baseCycles_of_default rfl]
  rfl

theorem pagePenalty_default (v : Variant) (op : Byte) :
    pagePenalty (Config.default v) op = (penaltyOpcodes v).contains op :=
  eq_of_rows (f := pagePenalty (Config.default v)) (g := (penaltyOpcodes v).contains)
    (fun row => by cases v <;> fin_cases row <;> rfl) op

theorem pagePenalty_iff {cfg : Config} (h : cfg.cycleOverrides = []) (op : Byte) :
    pagePenalty cfg op = true ↔ op ∈ penaltyOpcodes cfg.variant := by
  rw [pagePenalty_of_default h, pagePenalty_default, List.contains_iff_mem]

theorem baseCycles_of_pagePenalty {cfg : Config} {op : Byte} (h : pagePenalty cfg op = true) : baseCycles cfg op ≤ 5 := by
  unfold pagePenalty at h
  split at h
  case h_1 | h_2 => exact (of_decide_eq_true h).trans_le (by decide)
  case h_3 => exact (of_decide_eq_true h).le
  all_goals cases h

/-! ## What an instruction charges beyond its base count -/

/-- The most cycles an instruction charges itself: the decimal cycle (R478), or a taken branch and its page (R260). -/
def ownCycles : Instr → Nat
  | .adc _ | .sbc _ | .usbc _ => 1
  | .bpl _ | .bmi _ | .bvc _ | .bvs _ | .bcc _ | .bcs _ | .bne _ | .beq _ | .bra _ | .bbr _ _ _ | .bbs _ _ _ => 2
  | _ => 0

theorem ownCycles_le_two (i : Instr) : ownCycles i ≤ 2 := by
  unfold ownCycles
  split <;> decide

theorem decimalCycles_le_one (cfg : Config) (d : Bool) : decimalCycles cfg d ≤ 1 := by
  unfold decimalCycles
  split <;> decide

theorem branch_clockticks_bounds (s : State) (cond : Bool) (target : Word) :
    s.clockticks ≤ (s.branch cond target).clockticks ∧ (s.branch cond target).clockticks ≤ s.clockticks + 2 := by
  unfold State.branch
  split
  · dsimp only [State.addCycles]
    split <;> omega
  · omega

theorem modifyWith_clockticks {g : Byte → State → State} (hg : ∀ m u, (g m u).clockticks = u.clockticks) (o : Addr)
    (f : Byte → State → Byte) (s : State) : (modifyWith o f g s).clockticks = s.clockticks := by
  simp [modifyWith, hg]

theorem shiftPlace_clockticks (f : Byte → Bool → ShiftOut) (o : Place) (s : State) :
    (shiftPlace f o s).clockticks = s.clockticks := by
  cases o with
  | acc => rfl
  | mem o => simp [shiftPlace, modifyWith]

/-- The instruction completes, and charges itself no more than `ownCycles`. -/
def ChargesOwn (i : Instr) (s : State) : Prop :=
  ∃ t, exec i s = .next t ∧ s.clockticks ≤ t.clockticks ∧ t.clockticks ≤ s.clockticks + ownCycles i

theorem ChargesOwn.of_none {i : Instr} (h : exec i s = .next t) (ht : t.clockticks = s.clockticks) : ChargesOwn i s :=
  ⟨t, h, ht.ge, ht.trans_le (Nat.le_add_right _ _)⟩

theorem ChargesOwn.of_branch {i : Instr} {u : State} {cond : Bool} {target : Word} (h : exec i s = .next (u.branch cond target))
    (hu : u.clockticks = s.clockticks) (own : ownCycles i = 2) : ChargesOwn i s := by
  refine ⟨_, h, ?_⟩
  rw [own, ← hu]
  exact branch_clockticks_bounds ..

theorem ChargesOwn.of_decimal {i : Instr} {o : Src} (h : exec i s = .next t)
    (ht : t.clockticks = (operand o s).st.chargeDecimal.clockticks) (own : ownCycles i = 1) : ChargesOwn i s := by
  have := decimalCycles_le_one (operand o s).st.cfg (getFlag (operand o s).st.p .d)
  refine ⟨t, h, ?_⟩
  rw [ht, own, State.chargeDecimal, State.addCycles_clockticks, operand_clockticks]
  omega

theorem ChargesOwn.of_modify {i : Instr} {o : Addr} {f : Byte → State → Byte} {g : Byte → State → State}
    (h : exec i s = .next (modifyWith o f g s)) (hg : ∀ m u, (g m u).clockticks = u.clockticks) : ChargesOwn i s :=
  .of_none h (modifyWith_clockticks hg o f s)

theorem execBit_charges (o : Src) (s : State) : ChargesOwn (.bit o) s := by
  cases o with
  | imm m => exact .of_none rfl rfl
  | mem o => exact .of_none rfl (operandAt_clockticks s o)

theorem execJam_charges (op : Byte) (s : State) : ChargesOwn (.jam op) s := by
  obtain ⟨-, -, nop, halt⟩ := nopsAndJam s op .imp
  cases policy : s.cfg.jamPolicy with
  | nop => exact .of_none (nop policy) rfl
  | halt => exact .of_none (halt policy) rfl

theorem exec_charges (i : Instr) (s : State) : ChargesOwn i s := by
  cases i with
  -- the decimal cycle, and branches
  | adc o | sbc o => exact .of_decimal (o := o) rfl rfl rfl
  | usbc m => exact .of_decimal (o := .imm m) rfl rfl rfl
  | bpl rr | bmi rr | bvc rr | bvs rr | bcc rr | bcs rr | bne rr | beq rr | bra rr => exact .of_branch rfl rfl rfl
  | bbr b z rr | bbs b z rr => exact .of_branch rfl (State.memRead_clockticks s _) rfl
  -- operands
  | and o | ora o | eor o | lda o | ldx o | ldy o | cmp o | cpx o | cpy o => exact .of_none rfl (operand_clockticks s o)
  | lax o | las o => exact .of_none rfl (operandAt_clockticks s o)
  | bit o => exact execBit_charges o s
  | sta o | stx o | sty o | stz o | sax o | shy o | shx o | sha o | tas o => exact .of_none rfl (storeWith_clockticks _ o _)
  | inc o | dec o | slo o | rla o | sre o | rra o | dcp o | isc o | tsb o | trb o => exact .of_modify rfl fun _ _ => rfl
  | rmb b z | smb b z => exact .of_modify rfl fun _ _ => rfl
  | asl o | lsr o | rol o | ror o => exact .of_none rfl (shiftPlace_clockticks _ o s)
  -- jumps, subroutines, the stack
  | jmp o => exact .of_none rfl (resolveTarget_clockticks s o)
  | jsr w => exact .of_none rfl ((State.push_clockticks _ _).trans (State.push_clockticks s _))
  | rts => exact .of_none rfl (State.pullWord_clockticks s)
  | pha | php | phx | phy => exact .of_none rfl (State.push_clockticks s _)
  | pla | plx | ply => exact .of_none rfl (State.pull_clockticks s)
  | plp => exact .of_none rfl ((State.armDeferral_clockticks _ _).trans (State.pullP_clockticks s))
  | rti => exact .of_none rfl (State.returnFromHandler_clockticks s)
  | brk => exact .of_none rfl (State.softwareInterrupt_clockticks s)
  -- registers and flags alone
  | tax | tay | txa | tya | tsx | txs | inx | iny | dex | dey | ina | dea => exact .of_none rfl rfl
  | clc | sec | sei | clv | cld | sed => exact .of_none rfl rfl
  | cli => exact .of_none rfl (State.armDeferral_clockticks _ _)
  | anc op m => exact .of_none rfl rfl
  | alr m | arr m | sbx m | ane m | lxa m => exact .of_none rfl rfl
  | nop op o | undef op o => exact .of_none rfl rfl
  | jam op => exact execJam_charges op s

theorem exec_clockticks_bounds {i : Instr} (h : exec i s = .next t) :
    s.clockticks ≤ t.clockticks ∧ t.clockticks ≤ s.clockticks + ownCycles i := by
  obtain ⟨u, hu, charges⟩ := exec_charges i s
  cases h.symm.trans hu
  exact charges

/-! ## What a step costs -/

/-- A base count of R475, with what the opcode's instruction may charge itself, is 1 to 8 cycles. -/
theorem defaultCycles_bounds (v : Variant) (op b1 b2 : Byte) :
    1 ≤ defaultCycles v op ∧ defaultCycles v op + ownCycles (decodeAt v op b1 b2) ≤ 8 :=
  of_decide_eq_true <| eq_of_rows (g := fun _ => true)
    (f := fun op => decide (1 ≤ defaultCycles v op ∧ defaultCycles v op + ownCycles (decodeAt v op b1 b2) ≤ 8))
    (fun row => by cases v <;> fin_cases row <;> rfl) op

/-- The page-cross cycle comes on base counts of at most 5, and an instruction charges itself at most 2 more. -/
theorem chargedCycles_bounds {cfg : Config} (h : cfg.cycleOverrides = []) (op b1 b2 : Byte) (crossed : Bool) :
    1 ≤ chargedCycles cfg op crossed ∧ chargedCycles cfg op crossed + ownCycles (decodeAt cfg.variant op b1 b2) ≤ 8 := by
  obtain ⟨lower, upper⟩ := defaultCycles_bounds cfg.variant op b1 b2
  rw [← baseCycles_of_default h] at lower upper
  have own := ownCycles_le_two (decodeAt cfg.variant op b1 b2)
  unfold chargedCycles
  split
  case isTrue charged =>
    have := baseCycles_of_pagePenalty (Bool.and_eq_true_iff.mp charged).2
    omega
  case isFalse => omega

theorem step_clockticks_bounds (h : s.cfg.cycleOverrides = []) (hh : s.halted = false) (ht : step s = .next t) :
    1 ≤ t.clockticks ∧ t.clockticks ≤ 8 := by
  obtain ⟨-, ⟨halted, -⟩ | ⟨-, -, rfl⟩ | ⟨-, -, -, rfl⟩ | ⟨-, -, -, u, hu, rfl⟩⟩ := step_cases ht
  · exact absurd (hh.symm.trans halted) Bool.false_ne_true
  · simp [State.nmiStep]
  · simp [State.irqStep]
  · obtain ⟨-, own⟩ := exec_clockticks_bounds hu
    have charged := chargedCycles_bounds h s.beginStep.fetchInstr.op s.beginStep.fetchInstr.b1 s.beginStep.fetchInstr.b2
      s.beginStep.fetchInstr.crossed
    have cfg : u.cfg = s.cfg := (exec_cfg hu).trans (State.fetchInstr_cfg s.beginStep)
    simp only [fetchInstr_instr, State.fetchInstr_clockticks, State.beginStep_clockticks, State.beginStep_cfg] at own
    simp only [State.finishInstr, State.decInhibit_clockticks, State.account_clockticks, State.addCycles_clockticks, cfg]
    omega

/-- Settles O58: the tables of R475 against the rules and against the list of marked opcodes, and the bounds they give. -/
theorem pagePenaltiesAndStepCosts : Obligations.PagePenaltiesAndStepCosts :=
  ⟨fun _ _ _ => baseCycles_of_opcodeOf, fun _ op h => pagePenalty_iff h op, fun _ _ => step_clockticks_bounds⟩

end Sys2Proof.Machine
end

section
/-! Runs of a number of cycles (R401). -/

namespace Sys2Proof.Machine

variable {s t : State}

theorem runForLoop_of_le {n done : Nat} (h : n ≤ done) (fuel : Nat) (s : State) :
    runForLoop fuel n done s = .next (done, s) := by
  cases fuel with
  | zero => rfl
  | succ fuel => rw [runForLoop, if_neg (Nat.not_lt.mpr h)]

theorem runForLoop_of_lt {fuel n done : Nat} (hfuel : 0 < fuel) (hlt : done < n) (h : step s = .next t) :
    runForLoop fuel n done s =
      if t.clockticks = 0 then .next (done, t) else runForLoop (fuel - 1) n (done + t.clockticks) t := by
  cases fuel with
  | zero => exact absurd hfuel (Nat.lt_irrefl 0)
  | succ fuel => rw [runForLoop, if_pos hlt, h, Nat.add_sub_cancel]

/-- How a run with a budget of `k` cycles that has executed `d` ends in `t`: it reached the budget with its last step, or a step
of 0 cycles ended it before. -/
def RunEnds (k d : Nat) (t : State) : Prop := (k ≤ d ∧ d < k + t.clockticks) ∨ (d < k ∧ t.clockticks = 0)

/-- With enough fuel the loop adds `d` cycles and ends in `t`, which depend on the rest `k` of its budget and the state alone. -/
theorem runForLoop_spec (k : Nat) (hr : s.hasReset = true) : ∃ d t,
    (∀ fuel n done, n - done = k → k ≤ fuel → runForLoop fuel n done s = .next (done + d, t)) ∧ (0 < k → RunEnds k d t) := by
  induction k using Nat.strong_induction_on generalizing s with
  | _ k ih =>
    obtain rfl | hk := Nat.eq_zero_or_pos k
    · exact ⟨0, s, fun fuel n done hn _ => runForLoop_of_le (Nat.sub_eq_zero_iff_le.mp hn) fuel s, nofun⟩
    obtain ⟨t, ht⟩ := step_next hr
    obtain zero | pos := Nat.eq_zero_or_pos t.clockticks
    · refine ⟨0, t, fun fuel n done hn hfuel => ?_, fun _ => .inr ⟨hk, zero⟩⟩
      rw [runForLoop_of_lt (by omega) (by omega) ht, if_pos zero, Nat.add_zero]
    obtain reached | more := le_or_gt k t.clockticks
    · refine ⟨t.clockticks, t, fun fuel n done hn hfuel => ?_, fun _ => .inl ⟨reached, by omega⟩⟩
      rw [runForLoop_of_lt (by omega) (by omega) ht, if_neg pos.ne', runForLoop_of_le (by omega)]
    · obtain ⟨d, u, hloop, hends⟩ := ih (k - t.clockticks) (by omega) (step_hasReset ht)
      refine ⟨t.clockticks + d, u, fun fuel n done hn hfuel => ?_, fun _ => ?_⟩
      · rw [runForLoop_of_lt (by omega) (by omega) ht, if_neg pos.ne', hloop _ _ _ (by omega) (by omega), Nat.add_assoc]
      · have := hends (by omega)
        unfold RunEnds at *
        omega

theorem runFor_eq (hr : s.hasReset = true) (n : Int) : runFor n s = runForLoop n.toNat n.toNat 0 s := if_pos hr

/-- A run goes on after a step with the budget less its cycles, and adds them (R401). -/
theorem runFor_of_pos_cycles {n : Int} (hr : s.hasReset = true) (hn : 0 < n) (ht : step s = .next t) (pos : 0 < t.clockticks) :
    ∃ d u, runFor (n - t.clockticks) t = .next (d, u) ∧ runFor n s = .next (t.clockticks + d, u) := by
  obtain ⟨d, u, hloop, -⟩ := runForLoop_spec (n - t.clockticks).toNat (step_hasReset ht)
  refine ⟨d, u, ?_, ?_⟩
  · rw [runFor_eq (step_hasReset ht), hloop _ _ _ (Nat.sub_zero _) le_rfl, Nat.zero_add]
  · rw [runFor_eq hr, runForLoop_of_lt (by omega) (by omega) ht, if_neg pos.ne', hloop _ _ _ (by omega) (by omega),
      Nat.zero_add]

theorem runFor_ends (hr : s.hasReset = true) (n : Int) :
    ∃ d t, runFor n s = .next (d, t) ∧ (0 < n.toNat → RunEnds n.toNat d t) := by
  obtain ⟨d, t, hloop, hends⟩ := runForLoop_spec n.toNat hr
  exact ⟨d, t, by rw [runFor_eq hr, hloop _ _ _ (Nat.sub_zero _) le_rfl, Nat.zero_add], hends⟩

/-- Settles O59: the three ways a run goes on, and how it ends. -/
theorem runForReachesItsBudget : Obligations.RunForReachesItsBudget := by
  intro n s hr
  obtain ⟨t, ht⟩ := step_next hr
  obtain ⟨d, u, hrun, hends⟩ := runFor_ends hr n
  refine ⟨fun hn => ?_, fun hn => ⟨t, ht, runFor_of_zero_cycles hr hn ht, runFor_of_pos_cycles hr hn ht⟩,
    d, u, hrun, fun hn => ?_⟩
  · rw [runFor_eq hr, runForLoop_of_le (by omega)]
  · have := hends (by omega)
    unfold RunEnds at this
    omega

end Sys2Proof.Machine
end

section
/-! What reset leaves (R450). -/

namespace Sys2Proof.Machine

/-- What reset writes before it reads its vector, but for the port (R450). -/
def State.resetRegisters (s : State) : State :=
  { s with
    a := 0x00#8
    x := 0x00#8
    y := 0x00#8
    sp := 0xFF#8
    p := 0x26#8
    irqPending := false
    nmiPending := false
    inhibit := 0
    halted := false
    clocktickstotal := 0
    busLog := [] }

/-- Reset initialises the port and the registers, in either order, and then reads its vector. -/
theorem hostReset_eq (s : State) : s.hostReset =
    { s.resetPort.resetRegisters.jumpVector 0xFFFC#16 with clockticks := 6, hasReset := true } := by
  unfold State.hostReset State.resetPort
  dsimp only
  split <;> rfl

/-! ## The port -/

theorem resetPort_of_m6510 {s : State} (h : s.cfg.variant = .m6510) :
    s.resetPort = { s with portDdr := 0x00#8, portLatch := 0x00#8, portPins := 0xFF#8 } := if_pos h

theorem resetPort_of_not_m6510 {s : State} (h : s.cfg.variant ≠ .m6510) : s.resetPort = s := if_neg h

theorem hostReset_port (s : State) : s.hostReset.portDdr = s.resetPort.portDdr ∧
    s.hostReset.portLatch = s.resetPort.portLatch ∧ s.hostReset.portPins = s.resetPort.portPins := by
  simp [hostReset_eq, State.resetRegisters]

/-! ## The vector -/

/-- The registers reset writes do not bear on what its two reads answer. -/
theorem read16_resetRegisters (s : State) (lo hi : Word) :
    (s.resetRegisters.read16 lo hi).val = wordOf ((s.memRead lo).st.memRead hi).val (s.memRead lo).val := by
  obtain ⟨hlow, horacle⟩ := memRead_val_congr (s := s) (t := s.resetRegisters) lo rfl rfl rfl rfl rfl rfl
  have hhigh : ((s.resetRegisters.memRead lo).st.memRead hi).val = ((s.memRead lo).st.memRead hi).val := by
    refine (memRead_val_congr hi ?_ ?_ horacle ?_ ?_ ?_).1 <;> simp [State.resetRegisters]
  rw [State.read16, hlow, hhigh]

theorem hostReset_pc (s : State) : let low := s.resetPort.memRead (s.cfg.addrMask &&& 0xFFFC#16)
    s.hostReset.pc = wordOf (low.st.memRead (s.cfg.addrMask &&& 0xFFFD#16)).val low.val := by
  rw [hostReset_eq, ← State.resetPort_cfg]
  exact read16_resetRegisters ..

theorem twoReadEvents_eq (s : State) (lo hi : Word) : twoReadEvents s lo hi =
    (if s.isPort (s.busAddr lo) then [] else [.read (s.busAddr lo) (s.memRead lo).val]) ++
      (if s.isPort (s.busAddr hi) then [] else [.read (s.busAddr hi) ((s.memRead lo).st.memRead hi).val]) := by
  simp [twoReadEvents, readEvents, State.isPort, State.busAddr]

theorem hostReset_busLog (s : State) : s.hostReset.busLog =
    twoReadEvents s.resetPort (s.cfg.addrMask &&& 0xFFFC#16) (s.cfg.addrMask &&& 0xFFFD#16) := by
  rw [hostReset_eq, ← State.resetPort_cfg]
  exact (jumpVector_busLog ..).trans (twoReadEvents_congr _ _ rfl rfl rfl rfl rfl rfl)

/-- Settles O44: the vector's reads touch nothing that reset writes before them. -/
theorem resetLeavesTheSpecifiedState : Obligations.ResetLeavesTheSpecifiedState := by
  intro s t lo hi
  obtain ⟨ddr, latch, pins⟩ := hostReset_port s
  refine ⟨?_, ?_, ?_, ?_, ?_, ?_, ?_, ?_, ?_, ?_, rfl, rfl, fun hm => ?m6510, fun hm => ?other, ?_, ?_, ?_, ?_, ?_,
    hostReset_cfg s, _, _, rfl, rfl, hostReset_pc s, ?log⟩
  case m6510 =>
    rw [ddr, latch, pins, resetPort_of_m6510 hm]
    exact ⟨rfl, rfl, rfl⟩
  case other =>
    rw [ddr, latch, pins, resetPort_of_not_m6510 hm]
    exact ⟨rfl, rfl, rfl⟩
  case log =>
    rw [hostReset_busLog, twoReadEvents_eq]
    simp [State.isPort, State.busAddr, lo, hi]
  all_goals simp [t, hostReset_eq, State.resetRegisters]

end Sys2Proof.Machine
end

section
/-! The host's calls (R420 to R425, R430, R431). -/

namespace Sys2Proof.Machine

variable {s : State}

theorem getReg_of_hasReset (hr : s.hasReset = true) (r : RegId) : s.getReg r = .ok (s.register r) := if_pos hr

theorem getPc_of_hasReset (hr : s.hasReset = true) : s.getPc = .ok s.pc := if_pos hr

theorem getPpc_of_hasReset (hr : s.hasReset = true) :
    s.getPpc = if s.ppcWritten then .ok s.ppc else .error .ppcNotWritten := by
  simp [State.getPpc, hr]

theorem setReg_hasReset (s : State) (r : RegId) (v : Byte) : (s.setReg r v).hasReset = s.hasReset := by cases r <;> rfl

theorem setReg_register (s : State) (r r' : RegId) (v : Byte) :
    (s.setReg r v).register r' = if r' = r then v else s.register r' := by
  cases r <;> cases r' <;> rfl

/-- The pins show on the port's input lines (R73, R425). -/
theorem setPortPins_memRead_getLsbD (hm : s.cfg.variant = .m6510) {w : Word} (hw : s.busAddr w = 1) (v : Byte) {k : Nat}
    (hk : k < 8) : ((s.setPortPins v).memRead w).val.getLsbD k =
      if s.portDdr.getLsbD k then s.portLatch.getLsbD k else v.getLsbD k := by
  have haddr : (s.setPortPins v).busAddr w = 1 := hw
  have hport : (s.setPortPins v).isPort ((s.setPortPins v).busAddr w) = true :=
    isPort_iff.mpr ⟨hm, haddr.trans_lt Nat.one_lt_two⟩
  rw [memRead_of_port hport, haddr]
  exact portRead_one_getLsbD _ hk

/-- Settles O60: a call's state is its definition; what a read answers is the field its call wrote. -/
theorem hostCallsReadBack : Obligations.HostCallsReadBack := by
  intro s r v w
  refine ⟨fun hr => ⟨getReg_of_hasReset hr r, getPc_of_hasReset hr, fun r' => ?setReg, getPc_of_hasReset hr, fun written => ?ppc,
    fun unwritten => ?noPpc⟩, rfl, rfl, rfl, rfl, rfl, rfl, rfl, rfl, rfl, fun _ => rfl, rfl, rfl, rfl, fun _ => rfl,
    fun hm hw _ => setPortPins_memRead_getLsbD hm hw v, rfl, fun _ => rfl, rfl, rfl, memRead_sameButReads s w⟩
  case setReg => rw [getReg_of_hasReset ((setReg_hasReset s r v).trans hr), setReg_register]
  case ppc => rw [getPpc_of_hasReset hr, if_pos written]
  case noPpc => simp [getPpc_of_hasReset hr, unwritten]

end Sys2Proof.Machine
end
